-- ==== Sys2Proof/Word.lean ====
section
/-! DEFINITION. The widths of the block (spec/00_scope.md R7, R8; spec/30_encoding.md R70 to R73) and its four ports. -/

namespace Sys2Proof

/-- A value of `AW = 32` bits: every index, length, count and storage address (R7). -/
abbrev Word := BitVec 32

/-- One byte of the storage address space or of a data lane (R50, R71). -/
abbrev Byte := BitVec 8

/-- The CRC accumulator's width (R34). -/
abbrev Crc := BitVec 16

/-- A command word `CW`: `OP` in 71:64, `A` in 63:32, `B` in 31:0 (R72). -/
abbrev CommandWord := BitVec 72

/-- A response word `RW`: `RSP` in 35:32, `VAL` in 31:0 (R73). -/
abbrev ResponseWord := BitVec 36

/-- The four transaction ports (R70): host, producer, consumer, CRC client. -/
inductive Port where
  | h
  | p
  | c
  | k
deriving DecidableEq, Repr

end Sys2Proof
end

