-- ==== Sys2Proof/Syntax.lean ====
section
/-! DEFINITION. The fourteen operations (spec/00_scope.md R3, spec/30_encoding.md R75, R76), one constructor per row of the opcode table. -/

namespace Sys2Proof

/-- An operation with the operand fields its format reads (R75); a field the format does not read is
no part of it (R78). The port that issues it is no part of the command word (R72) and none of it. -/
inductive Instr where
  /-- `INIT storage, size` (R100), format AB. -/
  | init (storage size : Word)
  /-- `RESET` (R101), format Z. -/
  | reset
  /-- `WRITE_BYTE b` (R110), format D. -/
  | writeByte (b : Byte)
  /-- `WRITE len` (R111), format L; the payload follows on `WDATA`, it is no part of the word (R81). -/
  | write (len : Word)
  /-- `READ_BYTE` (R121), format Z. -/
  | readByte
  /-- `READ len` (R122), format L. -/
  | read (len : Word)
  /-- `PEEK len` (R124), format L. -/
  | peek (len : Word)
  /-- `AVAILABLE` (R141), format Z. -/
  | available
  /-- `FREE` (R142), format Z. -/
  | free
  /-- `IS_EMPTY` (R143), format Z. -/
  | isEmpty
  /-- `IS_FULL` (R144), format Z. -/
  | isFull
  /-- `CRC_CLEAR` (R150), format Z. -/
  | crcClear
  /-- `CRC_BYTE b` (R151), format D. -/
  | crcByte (b : Byte)
  /-- `CRC_GET` (R152), format Z. -/
  | crcGet
deriving DecidableEq, Repr

end Sys2Proof
end

