-- ==== Sys2Proof/Decode.lean ====
section
/-! DEFINITION. The decoder and the encoder of the command word (spec/30_encoding.md R72, R75 to R78, R80). -/

namespace Sys2Proof

/-- `OP = CW[71:64]` (R72). -/
def opField (w : CommandWord) : BitVec 8 := w.extractLsb' 64 8

/-- `A = CW[63:32]` (R72). -/
def aField (w : CommandWord) : Word := w.extractLsb' 32 32

/-- `B = CW[31:0]` (R72). -/
def bField (w : CommandWord) : Word := w.extractLsb' 0 32

/-- `B[7:0]`, the byte of format D (R75). -/
def bByte (w : CommandWord) : Byte := w.extractLsb' 0 8

/-- Why a word names no operation. -/
inductive DecodeError where
  /-- `OP` is one of the 242 reserved values (R80). -/
  | reservedOpcode (op : BitVec 8)
deriving DecidableEq, Repr

/-- Decode is total (R77): each of the 2^72 words is one of the fourteen operations, with the fields its
format reads (R75, R78), or is refused by its reserved opcode (R80). -/
def decode (w : CommandWord) : Except DecodeError Instr :=
  let op := opField w
  if op = 0x01 then .ok (.init (aField w) (bField w))
  else if op = 0x02 then .ok .reset
  else if op = 0x10 then .ok (.writeByte (bByte w))
  else if op = 0x11 then .ok (.write (aField w))
  else if op = 0x20 then .ok .readByte
  else if op = 0x21 then .ok (.read (aField w))
  else if op = 0x22 then .ok (.peek (aField w))
  else if op = 0x30 then .ok .available
  else if op = 0x31 then .ok .free
  else if op = 0x32 then .ok .isEmpty
  else if op = 0x33 then .ok .isFull
  else if op = 0x40 then .ok .crcClear
  else if op = 0x41 then .ok (.crcByte (bByte w))
  else if op = 0x42 then .ok .crcGet
  else .error (.reservedOpcode op)

/-- The decoder on a word of the opcode table: one 72-bit word, bit 0 its least significant (R8, R72).
R81 knows one length, 72 bits, and every row of the table has it; the two other lengths are DESIGN CHOICE
(log 19): a table word given with fewer bits is read as the 72-bit word whose missing high bits are 0, as
this function's caller numbers words, and a longer one is none. -/
def decodeTableWord (nbits w : Nat) : Option Instr :=
  if nbits ≤ 72 then
    match decode (BitVec.ofNat 72 (w % 2 ^ nbits)) with
    | .ok i => some i
    | .error _ => none
  else none

/-- The column `OP` of the opcode map (R76). -/
def Instr.opcode : Instr → BitVec 8
  | .init _ _ => 0x01
  | .reset => 0x02
  | .writeByte _ => 0x10
  | .write _ => 0x11
  | .readByte => 0x20
  | .read _ => 0x21
  | .peek _ => 0x22
  | .available => 0x30
  | .free => 0x31
  | .isEmpty => 0x32
  | .isFull => 0x33
  | .crcClear => 0x40
  | .crcByte _ => 0x41
  | .crcGet => 0x42

/-- The field `A` a writer puts down: the operand the format reads there (R75), else 0. -/
def Instr.aOperand : Instr → Word
  | .init storage _ => storage
  | .reset => 0
  | .writeByte _ => 0
  | .write len => len
  | .readByte => 0
  | .read len => len
  | .peek len => len
  | .available => 0
  | .free => 0
  | .isEmpty => 0
  | .isFull => 0
  | .crcClear => 0
  | .crcByte _ => 0
  | .crcGet => 0

/-- The field `B` a writer puts down: the operand the format reads there (R75), else 0. -/
def Instr.bOperand : Instr → Word
  | .init _ size => size
  | .reset => 0
  | .writeByte b => b.setWidth 32
  | .write _ => 0
  | .readByte => 0
  | .read _ => 0
  | .peek _ => 0
  | .available => 0
  | .free => 0
  | .isEmpty => 0
  | .isFull => 0
  | .crcClear => 0
  | .crcByte b => b.setWidth 32
  | .crcGet => 0

/-- The command word of an operation: `OP ++ A ++ B` (R72), with 0 in every field its format ignores. -/
def encode (i : Instr) : CommandWord := i.opcode ++ i.aOperand ++ i.bOperand

end Sys2Proof
end

