-- ==== Sys2Proof/Config.lean ====
section
/-! DEFINITION. What is fixed for one block: the parameters of spec/00_scope.md R7 and the free values the spec leaves open. -/

namespace Sys2Proof

/-- `AW` (R7, D5): the width in bits of every index, length, count and address. -/
abbrev Config.addressWidth : Nat := 32

/-- `2^AW`: how many bytes the storage address space has (R50). -/
abbrev Config.addressCount : Nat := 2 ^ 32

/-- `NULLREF` (R7, D6): the storage reference that `INIT` treats as null. -/
abbrev Config.nullRef : Word := 0

/-- `CRC_POLY` (R7): the reflected generator polynomial. -/
def Config.crcPoly : Crc := 0xA001

/-- The two parameters R7 marks OPEN. A block has some value of each; `State` carries them, no beat
writes them, and a statement about every state holds for every value of them (DESIGN CHOICE, log 4). -/
structure Config.Params where
  /-- `CRC_SEED`: the value `CRC_CLEAR` loads (R150). -/
  crcSeed : Crc
  /-- `CRC_XOROUT`: the value `CRC_GET` xors into its result (R152). -/
  crcXorOut : Crc
deriving DecidableEq, Repr

/-- The defaults R7 gives the two OPEN parameters (general knowledge in the spec, G1). -/
def Config.defaults : Config.Params := { crcSeed := 0xFFFF, crcXorOut := 0x0000 }

/-- FREE VALUE (log 2): what `crc` holds after the `n`-th hardware reset event. R34 and R190 leave it
unspecified, so it has no body and nothing can be proved about it. -/
opaque Config.freeCrc : Nat → Crc

end Sys2Proof
end

