-- ==== Sys2Proof/Machine/State.lean ====
section
/-! DEFINITION. The state of the block (spec/10_state.md R20 to R35), what stands on its ports, what its agents are going to do, and its value after hardware reset (spec/70_reset_and_hazards.md R190). -/

namespace Sys2Proof.Machine

/-- The consumer sequencer's mode `c_mode` (R32): 0, 1, 2; the value 3 is never taken. -/
inductive CMode where
  | idle
  | read
  | peek
deriving DecidableEq, Repr

/-- The response codes the block returns (R74); 0x3 to 0xF are never produced (U6). -/
inductive Rsp where
  | ok
  | errIllegal
  | errUnbound
deriving DecidableEq, Repr

/-- One response: the port it is returned on, its code, and its `VAL` (R71, R73). -/
structure Reply where
  port : Port
  rsp : Rsp
  val : Word
deriving DecidableEq, Repr

/-- One access the block makes to storage; always one byte (R54). -/
inductive Access where
  | read (addr : Nat)
  | write (addr : Nat) (v : Byte)
deriving DecidableEq, Repr

/-- What happens next at the block's ports. The agents decide it and the spec fixes no order between
ports (R56), so it is input, held as data. -/
inductive Event where
  /-- The agent of port `x` presents the command word `cw` (R71). -/
  | present (x : Port) (cw : CommandWord)
  /-- Port `x` is given the next beat of the total order (R12, R163). `wdata` is what stands on
  `WDATA[7:0]` of port P in that beat (R71); only a producer data beat takes it. -/
  | beat (x : Port) (wdata : Byte)
  /-- Hardware reset, which may occur in any state (R190). -/
  | hardwareReset
deriving DecidableEq, Repr

/-- The bytes of the storage address space that have been written, by strictly rising address. An
address that is not listed reads as nothing (log 3). -/
abbrev Memory := List Host.Cell

/-- The machine. The first twelve fields are the spec's whole state (R20); `hCmd` to `cCmd` are the
command words that stand on the ports (R71); the rest is the block's output, its input and the model's own. -/
structure State where
  /-- `base` (R23): the address of slot 0. -/
  base : Word
  /-- `N` (R22): the capacity; 0 means unbound. -/
  N : Word
  /-- `head` (R25): the slot the next produced byte goes to. -/
  head : Word
  /-- `tail` (R26): the slot of the oldest byte held. -/
  tail : Word
  /-- `full` (R27): the one flag. -/
  full : Bool
  /-- `p_busy` (R31): a `WRITE` burst is in flight. -/
  pBusy : Bool
  /-- `p_rem` (R31): its payload bytes not yet stored. -/
  pRem : Word
  /-- `c_mode` (R32): which burst is in flight on port C. -/
  cMode : CMode
  /-- `c_rem` (R32): its data bytes not yet delivered. -/
  cRem : Word
  /-- `c_cur` (R32): the `PEEK` cursor. -/
  cCur : Word
  /-- `crc` (R34): the accumulator. -/
  crc : Crc
  /-- `store` (R35, R50): the storage bytes. -/
  mem : Memory
  /-- The command word presented on port H and not yet taken; this is where R103 holds one. -/
  hCmd : Option CommandWord
  /-- The command word presented on port P and not yet taken. -/
  pCmd : Option CommandWord
  /-- The command word presented on port C and not yet taken. -/
  cCmd : Option CommandWord
  /-- The command word presented on port K and not yet taken. -/
  kCmd : Option CommandWord
  /-- Output: every response returned, oldest first (R71, R73). -/
  replies : List Reply
  /-- Output: every byte delivered on `RDATA` of port C, oldest first (R71). -/
  rdata : List Byte
  /-- Output: every access made to storage, oldest first (R50, R54). -/
  bus : List Access
  /-- Input: what happens at the ports from here on, the next event first (R21, R56). -/
  script : List Event
  /-- The model's own: the port whose beat is being taken. -/
  turn : Port
  /-- The OPEN parameters (R7); no beat writes them. -/
  params : Config.Params
  /-- The model's own: how many free values hardware resets have drawn. -/
  draws : Nat
deriving DecidableEq, Repr

/-- Why a step stops in a state the block cannot be in. Each is a condition a rule says never holds, and
no state that meets `Safety.BlockInv` raises one. -/
inductive Fault where
  /-- Raised by `push`, `pop` and the `PEEK` data beat when `N = 0`, which R110, R120 and R160 exclude. Safe. -/
  | dataBeatUnbound
  /-- Raised by `pop` when nothing is held, which R120 requires its callers to exclude. Safe. -/
  | popEmpty
  /-- Raised by a data beat whose sequencer has no byte to come, which R160 excludes. Safe. -/
  | burstExhausted
  /-- Raised by a storage access at or above `2^AW`, which does not exist (R50, R53). Safe. -/
  | addressPastTop
  /-- Raised by a read of a storage byte that nothing has written; R58 says no rule reads one. Safe. -/
  | unwrittenByte
deriving DecidableEq, Repr

/-- Why the model gives a step no meaning. -/
inductive Refusal where
  /-- Raised by an arm of `exec` that has no meaning yet. Safe. -/
  | notModelled (mnemonic : String)
  /-- Raised by `INIT` of a region that runs past `2^AW`: obligation (c) of R52 is broken, the spec gives
  no meaning and asks a model to reject the step (R100 corner case (i), U5). Safe. -/
  | regionPastTop
  /-- Raised when an agent presents a command on a port where one stands already, for which the spec
  gives no move (R212). Safe. -/
  | secondCommand
deriving DecidableEq, Repr

/-- The outcome of one step of this machine. -/
abbrev Result := Host.Outcome State Fault Refusal

/-- The machine right after hardware reset (R190): unbound, idle, nothing presented, no byte of storage
listed. `crc` has no reset value in the spec; 0 here is DESIGN CHOICE (log 1). -/
def State.reset : State where
  base := 0
  N := 0
  head := 0
  tail := 0
  full := false
  pBusy := false
  pRem := 0
  cMode := .idle
  cRem := 0
  cCur := 0
  crc := 0
  mem := []
  hCmd := none
  pCmd := none
  cCmd := none
  kCmd := none
  replies := []
  rdata := []
  bus := []
  script := []
  turn := .h
  params := Config.defaults
  draws := 0

end Sys2Proof.Machine
end

