-- ==== Sys2Proof/Machine/Flags.lean ====
section
/-! DEFINITION. The flag `full` and the values computed from the ring registers (spec/10_state.md R27, R29, spec/43_status_ops.md R140 to R144). -/

namespace Sys2Proof.Machine

/-- `available()` (R140): `N` if `full`, else `(head - tail) mod N`, subtracted and reduced over the integers (R9). -/
def available (s : State) : Nat :=
  if s.full then s.N.toNat
  else (((s.head.toNat : Int) - (s.tail.toNat : Int)) % (s.N.toNat : Int)).toNat

/-- `free() = N - available()` (R142). -/
def free (s : State) : Nat := s.N.toNat - available s

/-- `IS_EMPTY` (R143). -/
def isEmpty (s : State) : Bool := !s.full && s.head == s.tail

/-- `IS_FULL` (R144): `full` alone (D23). -/
def isFull (s : State) : Bool := s.full

/-- What a `push` leaves in `full`: 1 exactly when the updated indices meet (R110). -/
def fullAfterPush (head tail : Word) : Bool := head == tail

/-- The `VAL` of a truth value (R79, D22). -/
def truth (b : Bool) : Word := if b then 1 else 0

end Sys2Proof.Machine
end

