-- ==== Sys2Proof/Machine/Operands.lean ====
section
/-! DEFINITION. What the operations read off their operands and the port they stand on: the port column of the opcode map, index and address arithmetic, burst lengths (spec/30_encoding.md R76, spec/45_common_laws.md R160, R164). -/

namespace Sys2Proof

/-- The ports an operation may be issued on: the column "ports" of R76. -/
def Instr.ports : Instr → List Port
  | .init _ _ => [.h]
  | .reset => [.h]
  | .writeByte _ => [.p]
  | .write _ => [.p]
  | .readByte => [.c]
  | .read _ => [.c]
  | .peek _ => [.c]
  | .available => [.h, .p, .c]
  | .free => [.h, .p, .c]
  | .isEmpty => [.h, .p, .c]
  | .isFull => [.h, .p, .c]
  | .crcClear => [.k]
  | .crcByte _ => [.k]
  | .crcGet => [.k]

/-- The two control operations, the ones R103 holds while a burst is in flight. -/
def Instr.control : Instr → Bool
  | .init _ _ => true
  | .reset => true
  | .writeByte _ => false
  | .write _ => false
  | .readByte => false
  | .read _ => false
  | .peek _ => false
  | .available => false
  | .free => false
  | .isEmpty => false
  | .isFull => false
  | .crcClear => false
  | .crcByte _ => false
  | .crcGet => false

/-- The ten operations that raise `ERR_UNBOUND` while `N = 0` (R170, R173): every ring operation but `INIT`. -/
def Instr.needsBinding : Instr → Bool
  | .init _ _ => false
  | .reset => true
  | .writeByte _ => true
  | .write _ => true
  | .readByte => true
  | .read _ => true
  | .peek _ => true
  | .available => true
  | .free => true
  | .isEmpty => true
  | .isFull => true
  | .crcClear => false
  | .crcByte _ => false
  | .crcGet => false

namespace Machine

/-- `(x + 1) mod N` over the integers (R9, R160). -/
def nextIndex (x n : Word) : Word := BitVec.ofNat 32 ((x.toNat + 1) % n.toNat)

/-- `base + i`, the storage address of slot `i`, not wrapped (R51, R53). -/
def slotAddr (base i : Word) : Nat := base.toNat + i.toNat

/-- `n = min(len, available())`, the count `READ` and `PEEK` announce (R126). -/
def burstCount (len : Word) (held : Nat) : Word := BitVec.ofNat 32 (min len.toNat held)

/-- The operands on which `INIT` is a silent no-op: a null reference or a zero size (R100). -/
def nullRegion (storage size : Word) : Bool := storage == Config.nullRef || size == 0

/-- Obligation (c) of R52: the region does not run off the top of the address space. -/
def regionFits (storage size : Word) : Bool := decide (storage.toNat + size.toNat ≤ Config.addressCount)

end Machine

end Sys2Proof
end

