-- ==== Sys2Proof/Machine/Ops.lean ====
section
/-! DEFINITION. The operations every meaning is built from: storage, ports, responses and errors, the order of tests, `push` and `pop` (spec/00_scope.md R11, spec/20_memory.md, spec/60_exceptions.md). -/

namespace Sys2Proof.Machine

/-- The byte at an address, if one has been written there. -/
def Memory.read : Memory → Nat → Option Byte
  | [], _ => none
  | (k, v) :: m, a => if k = a then some v else Memory.read m a

/-- The memory with one byte stored; keeps the addresses strictly rising. -/
def Memory.write : Memory → Nat → Byte → Memory
  | [], a, v => [(a, v)]
  | (k, u) :: m, a, v =>
    if a < k then (a, v) :: (k, u) :: m
    else if a = k then (a, v) :: m
    else (k, u) :: Memory.write m a v

/-- The canonical form: addresses strictly rising, each inside the storage address space (R50). -/
abbrev Memory.wf (m : Memory) : Prop :=
  m.Pairwise (fun c d => c.1 < d.1) ∧ ∀ c ∈ m, c.1 < Config.addressCount

/-- `MemRead(addr, 1)` (R11, R54): one byte, and no side effect but its trace on the bus. -/
def memRead (a : Nat) (s : State) : Except Fault (Byte × State) :=
  if Config.addressCount ≤ a then .error .addressPastTop
  else
    match s.mem.read a with
    | none => .error .unwrittenByte
    | some v => .ok (v, { s with bus := s.bus ++ [.read a] })

/-- `MemWrite(addr, 1, v)` (R11, R54). -/
def memWrite (a : Nat) (v : Byte) (s : State) : Except Fault State :=
  if Config.addressCount ≤ a then .error .addressPastTop
  else .ok { s with mem := s.mem.write a v, bus := s.bus ++ [.write a v] }

/-- The command word that stands on a port (R71). -/
def State.slot (s : State) : Port → Option CommandWord
  | .h => s.hCmd
  | .p => s.pCmd
  | .c => s.cCmd
  | .k => s.kCmd

/-- Put a command word on a port, or take it off. -/
def State.setSlot (s : State) (x : Port) (w : Option CommandWord) : State :=
  match x with
  | .h => { s with hCmd := w }
  | .p => { s with pCmd := w }
  | .c => { s with cCmd := w }
  | .k => { s with kCmd := w }

/-- `RSP` as its four bits (R74). -/
def Rsp.code : Rsp → BitVec 4
  | .ok => 0x0
  | .errIllegal => 0x1
  | .errUnbound => 0x2

/-- The response word `RSP ++ VAL` (R73). -/
def Reply.word (r : Reply) : ResponseWord := r.rsp.code ++ r.val

/-- `respond(X, rsp, val)` (R11): the command on the port gets its one response and leaves the port (R71). -/
def respond (x : Port) (rsp : Rsp) (val : Word) (s : State) : State :=
  { s.setSlot x none with replies := s.replies ++ [{ port := x, rsp := rsp, val := val }] }

/-- `raise ERR_x` (R172, R177): what the block has for taking an exception. The port gets the error with
`VAL = 0` and nothing is written. There is no return from it and nothing to restore (R178). -/
def raise (x : Port) (e : Rsp) (s : State) : State := respond x e 0 s

/-- `emit(C, b)` (R11). -/
def emit (b : Byte) (s : State) : State := { s with rdata := s.rdata ++ [b] }

/-- Whether a burst is in flight on a port; such a port takes no command (R33). H and K have no sequencer. -/
def portBusy (s : State) : Port → Bool
  | .h => false
  | .p => s.pBusy
  | .c => s.cMode != .idle
  | .k => false

/-- Whether a burst is in flight on port P or port C (R103). -/
def burstInFlight (s : State) : Bool := s.pBusy || s.cMode != .idle

/-- Whether the operation `i` is held: a control operation waits for the bursts in flight (R103). -/
def isHeld (i : Instr) (s : State) : Bool := i.control && burstInFlight s

/-- The first beat of the command `i` on the port whose turn it is, with the tests in the order of R77
and R176: a busy port lets it wait (R33); the wrong port raises `ERR_ILLEGAL` (R171), held or not; a
held command waits on its port with nothing written (R103); an unbound block raises `ERR_UNBOUND`
(R173); otherwise `body`, the operation's own rule. -/
def command (i : Instr) (body : State → Result) (s : State) : Result :=
  if portBusy s s.turn then .next s
  else if !i.ports.contains s.turn then .next (raise s.turn .errIllegal s)
  else if isHeld i s then .next s
  else if i.needsBinding && s.N == 0 then .next (raise s.turn .errUnbound s)
  else body s

/-- The ring emptied: `head`, `tail` and `full` to 0 (R100, R101). -/
def emptied (s : State) : State := { s with head := 0, tail := 0, full := false }

/-- The first line of `push`: on a full ring the oldest byte is discarded by advancing `tail` (R110). -/
def discardOldest (s : State) : State :=
  if s.full then { s with tail := nextIndex s.tail s.N } else s

/-- The last two lines of `push`: `head` advances and `full` is set from the updated indices (R110). -/
def advanceHead (s : State) : State :=
  { s with
    head := nextIndex s.head s.N
    full := fullAfterPush (nextIndex s.head s.N) s.tail }

/-- `push(b)` (R110), the whole of a producer data beat; it requires `N ≥ 1`. -/
def push (b : Byte) (s : State) : Except Fault State :=
  if s.N = 0 then .error .dataBeatUnbound
  else
    match memWrite (slotAddr s.base s.head) b (discardOldest s) with
    | .error f => .error f
    | .ok s' => .ok (advanceHead s')

/-- `pop()` (R120), the whole of a consumer pop beat; it requires `N ≥ 1` and `available() ≥ 1`. -/
def pop (s : State) : Except Fault (Byte × State) :=
  if s.N = 0 then .error .dataBeatUnbound
  else if available s = 0 then .error .popEmpty
  else
    match memRead (slotAddr s.base s.tail) s with
    | .error f => .error f
    | .ok (v, s') => .ok (v, { s' with tail := nextIndex s.tail s.N, full := false })

end Sys2Proof.Machine
end

