-- ==== Sys2Proof/Machine/Consumer.lean ====
section
/-! DEFINITION. The consumer operations `READ_BYTE`, `READ` and `PEEK` and their data beats (spec/42_consumer_ops.md R120 to R127). -/

namespace Sys2Proof.Machine

/-- `READ_BYTE` (R121): an empty buffer is answered with the count 0 and no byte. -/
def execReadByte (s : State) : Result :=
  command .readByte
    (fun s =>
      if available s = 0 then .next (respond s.turn .ok 0 s)
      else
        match pop s with
        | .error f => .fault f
        | .ok (v, s') => .next (emit v (respond s'.turn .ok 1 s')))
    s

/-- The consumer sequencer started as `READ` for `n` bytes; not at all when `n = 0` (R122). -/
def startRead (n : Word) (s : State) : State :=
  if n = 0 then s else { s with cMode := .read, cRem := n }

/-- `READ len`, its accept beat (R122); the count is sampled here, once (R126). -/
def execRead (len : Word) (s : State) : Result :=
  command (.read len)
    (fun s =>
      .next (startRead (burstCount len (available s))
        (respond s.turn .ok (burstCount len (available s)) s)))
    s

/-- The consumer sequencer started as `PEEK` for `n` bytes with its cursor at `tail`; not at all when `n = 0` (R124). -/
def startPeek (n : Word) (s : State) : State :=
  if n = 0 then s else { s with cMode := .peek, cRem := n, cCur := s.tail }

/-- `PEEK len`, its accept beat (R124); the count is sampled here, once (R126). -/
def execPeek (len : Word) (s : State) : Result :=
  command (.peek len)
    (fun s =>
      .next (startPeek (burstCount len (available s))
        (respond s.turn .ok (burstCount len (available s)) s)))
    s

/-- One delivered byte counted off; the burst ends with the last (R122, R124). -/
def countDelivered (s : State) : State :=
  { s with cRem := s.cRem - 1, cMode := if s.cRem - 1 = 0 then .idle else s.cMode }

/-- The data beat of a `READ` burst (R122). -/
def readDataBeat (s : State) : Result :=
  if s.cRem = 0 then .fault .burstExhausted
  else
    match pop s with
    | .error f => .fault f
    | .ok (v, s') => .next (countDelivered (emit v s'))

/-- The data beat of a `PEEK` burst (R124): only the consumer sequencer is written. -/
def peekDataBeat (s : State) : Result :=
  if s.cRem = 0 then .fault .burstExhausted
  else if s.N = 0 then .fault .dataBeatUnbound
  else
    match memRead (slotAddr s.base s.cCur) s with
    | .error f => .fault f
    | .ok (v, s') => .next (countDelivered { emit v s' with cCur := nextIndex s.cCur s.N })

end Sys2Proof.Machine
end

