-- ==== Sys2Proof/Machine/Control.lean ====
section
/-! DEFINITION. The control operations `INIT` and `RESET` (spec/40_control_ops.md R100 to R104). -/

namespace Sys2Proof.Machine

/-- `base` and `N` from the operands of `INIT`, and the ring emptied (R100, R102). -/
def bindRegion (storage size : Word) (s : State) : State :=
  emptied { s with base := storage, N := size }

/-- `INIT storage, size` (R100). A null region is a silent no-op, answered `OK` (D15). A region that runs
past the top of the address space has no meaning in the spec, which asks for the step to be rejected (U5, log 5). -/
def execInit (storage size : Word) (s : State) : Result :=
  command (.init storage size)
    (fun s =>
      if nullRegion storage size then .next (respond s.turn .ok 0 s)
      else if !regionFits storage size then .refused .regionPastTop
      else .next (respond s.turn .ok 0 (bindRegion storage size s)))
    s

/-- `RESET` (R101): the ring is emptied; its binding, its contents and `crc` stay. -/
def execReset (s : State) : Result :=
  command .reset (fun s => .next (respond s.turn .ok 0 (emptied s))) s

end Sys2Proof.Machine
end

