-- ==== Sys2Proof/Machine/Crc.lean ====
section
/-! DEFINITION. The CRC unit: `CRC_CLEAR`, `CRC_BYTE`, `CRC_GET`, and the two pseudo-operations a writer expands into them (spec/44_crc_ops.md R150 to R157, spec/30_encoding.md R83). -/

namespace Sys2Proof.Machine

/-- One of the eight steps of R151: the bit about to leave decides whether the polynomial is xored in. -/
def crcShift (c : Crc) : Crc :=
  if c.getLsbD 0 then (c >>> 1) ^^^ Config.crcPoly else c >>> 1

/-- `n` steps of R151. -/
def crcShifts : Nat → Crc → Crc
  | 0, c => c
  | n + 1, c => crcShifts n (crcShift c)

/-- The accumulator after one more byte (R151): the byte meets the low end, then eight steps. -/
def crcUpdate (c : Crc) (b : Byte) : Crc := crcShifts 8 (c ^^^ b.setWidth 16)

/-- The value `CRC_GET` returns (R152): `zext_AW(crc xor CRC_XOROUT)`. -/
def crcValue (s : State) : Word := (s.crc ^^^ s.params.crcXorOut).setWidth 32

/-- `CRC_CLEAR` (R150). -/
def execCrcClear (s : State) : Result :=
  command .crcClear (fun s => .next (respond s.turn .ok 0 { s with crc := s.params.crcSeed })) s

/-- `CRC_BYTE b` (R151). -/
def execCrcByte (b : Byte) (s : State) : Result :=
  command (.crcByte b) (fun s => .next (respond s.turn .ok 0 { s with crc := crcUpdate s.crc b })) s

/-- `CRC_GET` (R152): the accumulator is read and stays. -/
def execCrcGet (s : State) : Result :=
  command .crcGet (fun s => .next (respond s.turn .ok (crcValue s) s)) s

/-- The commands the pseudo-operation `CRC16` stands for (R83). -/
def crc16Commands (bs : List Byte) : List Instr := .crcClear :: bs.map .crcByte ++ [.crcGet]

/-- The checksum of a byte sequence (R83): the `VAL[15:0]` of `CRC16`. -/
def checksum (ps : Config.Params) (bs : List Byte) : Crc := bs.foldl crcUpdate ps.crcSeed ^^^ ps.crcXorOut

/-- `APPEND_CRC` (R83, R153): the checksum follows the bytes it covers, low byte first. -/
def appendCrc (ps : Config.Params) (bs : List Byte) : List Byte :=
  bs ++ [(checksum ps bs).extractLsb' 0 8, (checksum ps bs).extractLsb' 8 8]

/-- The check of a received frame (R154): `L ≥ 4`, and its last two bytes are the checksum of the
others, low byte first. -/
def framePasses (ps : Config.Params) (f : List Byte) : Bool :=
  decide (4 ≤ f.length) && f == appendCrc ps (f.take (f.length - 2))

end Sys2Proof.Machine
end

