-- ==== Sys2Proof/Machine/Producer.lean ====
section
/-! DEFINITION. The producer operations `WRITE_BYTE` and `WRITE` and the producer data beat (spec/41_producer_ops.md R110 to R114). -/

namespace Sys2Proof.Machine

/-- `WRITE_BYTE b` (R110). -/
def execWriteByte (b : Byte) (s : State) : Result :=
  command (.writeByte b)
    (fun s =>
      match push b s with
      | .error f => .fault f
      | .ok s' => .next (respond s'.turn .ok 0 s'))
    s

/-- The producer sequencer started for `len` payload bytes; not at all when `len = 0` (R111). -/
def startWrite (len : Word) (s : State) : State :=
  if len = 0 then s else { s with pBusy := true, pRem := len }

/-- `WRITE len`, its accept beat (R111). -/
def execWrite (len : Word) (s : State) : Result :=
  command (.write len) (fun s => .next (startWrite len (respond s.turn .ok 0 s))) s

/-- One payload byte counted off; the burst ends with the last (R111). -/
def countPayload (s : State) : State :=
  { s with pRem := s.pRem - 1, pBusy := s.pRem - 1 != 0 }

/-- The data beat of a `WRITE` burst, taking the byte `b` that stands on `WDATA` (R111). -/
def producerDataBeat (b : Byte) (s : State) : Result :=
  if s.pRem = 0 then .fault .burstExhausted
  else
    match push b s with
    | .error f => .fault f
    | .ok s' => .next (countPayload s')

end Sys2Proof.Machine
end

