-- ==== Sys2Proof/Machine/Status.lean ====
section
/-! DEFINITION. The status operations `AVAILABLE`, `FREE`, `IS_EMPTY` and `IS_FULL` (spec/43_status_ops.md R140 to R145). -/

namespace Sys2Proof.Machine

/-- `AVAILABLE` (R141). -/
def execAvailable (s : State) : Result :=
  command .available (fun s => .next (respond s.turn .ok (BitVec.ofNat 32 (available s)) s)) s

/-- `FREE` (R142). -/
def execFree (s : State) : Result :=
  command .free (fun s => .next (respond s.turn .ok (BitVec.ofNat 32 (free s)) s)) s

/-- `IS_EMPTY` (R143). -/
def execIsEmpty (s : State) : Result :=
  command .isEmpty (fun s => .next (respond s.turn .ok (truth (isEmpty s)) s)) s

/-- `IS_FULL` (R144). -/
def execIsFull (s : State) : Result :=
  command .isFull (fun s => .next (respond s.turn .ok (truth (isFull s)) s)) s

end Sys2Proof.Machine
end

