-- ==== Sys2Proof/Machine/Dispatch.lean ====
section
/-! DEFINITION. The meaning of each operation of the opcode map (spec/30_encoding.md R76), one arm a constructor: the first beat of the command on the port whose turn it is. -/

namespace Sys2Proof.Machine

def exec (i : Instr) (s : State) : Host.Outcome State Fault Refusal :=
  match i with
  | .init storage size => Sys2Proof.Machine.execInit storage size s
  | .reset => Sys2Proof.Machine.execReset s
  | .writeByte b => Sys2Proof.Machine.execWriteByte b s
  | .write len => Sys2Proof.Machine.execWrite len s
  | .readByte => Sys2Proof.Machine.execReadByte s
  | .read len => Sys2Proof.Machine.execRead len s
  | .peek len => Sys2Proof.Machine.execPeek len s
  | .available => Sys2Proof.Machine.execAvailable s
  | .free => Sys2Proof.Machine.execFree s
  | .isEmpty => Sys2Proof.Machine.execIsEmpty s
  | .isFull => Sys2Proof.Machine.execIsFull s
  | .crcClear => Sys2Proof.Machine.execCrcClear s
  | .crcByte b => Sys2Proof.Machine.execCrcByte b s
  | .crcGet => Sys2Proof.Machine.execCrcGet s

end Sys2Proof.Machine
end

