-- ==== Sys2Proof/Machine/Reset.lean ====
section
/-! DEFINITION. The hardware reset event (spec/70_reset_and_hazards.md R190 to R192), which is no command. -/

namespace Sys2Proof.Machine

/-- Hardware reset (R190): the ring is unbound and the sequencers idle; a command on a port whose first
beat has not been taken is dropped with no response (R191); storage is not written; `crc` holds a
value the spec leaves open, a fresh free value for each reset (log 2). -/
def hardwareReset (s : State) : State :=
  { s with
    base := 0
    N := 0
    head := 0
    tail := 0
    full := false
    pBusy := false
    pRem := 0
    cMode := .idle
    cRem := 0
    cCur := 0
    crc := Config.freeCrc s.draws
    draws := s.draws + 1
    hCmd := none
    pCmd := none
    cCmd := none
    kCmd := none }

end Sys2Proof.Machine
end

