-- ==== Sys2Proof/WellFormed.lean ====
section
/-! DEFINITION. What a writer of commands is held to: the host's duty on a region (spec/20_memory.md R52 (c)) and the written form of a command (spec/30_encoding.md R82). -/

namespace Sys2Proof

/-- An operation is well formed when its operands ask for nothing the spec gives no meaning to. Every
operand is a whole field (R72), so the one condition is R52 (c): an `INIT` that binds names a region
that ends inside the address space. -/
def Instr.wellFormed : Instr → Bool
  | .init storage size => Machine.nullRegion storage size || Machine.regionFits storage size
  | .reset => true
  | .writeByte _ => true
  | .write _ => true
  | .readByte => true
  | .read _ => true
  | .peek _ => true
  | .available => true
  | .free => true
  | .isEmpty => true
  | .isFull => true
  | .crcClear => true
  | .crcByte _ => true
  | .crcGet => true

/-- The written form of a command (R82): port, operation, and the payload in braces. -/
structure Written where
  port : Port
  instr : Instr
  payload : List Byte
deriving DecidableEq, Repr

/-- How many payload bytes the agent owes on `WDATA` (R81, R212): `len` for a `WRITE`, none otherwise. -/
def Instr.payloadLength : Instr → Nat
  | .init _ _ => 0
  | .reset => 0
  | .writeByte _ => 0
  | .write len => len.toNat
  | .readByte => 0
  | .read _ => 0
  | .peek _ => 0
  | .available => 0
  | .free => 0
  | .isEmpty => 0
  | .isFull => 0
  | .crcClear => 0
  | .crcByte _ => 0
  | .crcGet => 0

/-- A written command is well formed when its port may issue it (R76), its operands are well formed,
and its payload has the length its operation asks for. -/
def Written.wellFormed (w : Written) : Bool :=
  w.instr.ports.contains w.port && w.instr.wellFormed
    && w.payload.length == w.instr.payloadLength

end Sys2Proof
end

