-- ==== Sys2Proof/Machine/Beats.lean ====
section
/-! DEFINITION. Which beat a port takes when it is given one, and what an event at the ports does (spec/45_common_laws.md R163, spec/20_memory.md R56). -/

namespace Sys2Proof.Machine

/-- The first beat of the command word `w` on the port whose turn it is (R77): a reserved opcode raises
`ERR_ILLEGAL` (R80, R171), any other runs. -/
def commandBeat (w : CommandWord) (s : State) : Result :=
  match decode w with
  | .error _ => .next (raise s.turn .errIllegal s)
  | .ok i => exec i s

/-- The data beat of the burst in flight on port C (R122, R124). -/
def consumerDataBeat (s : State) : Result :=
  match s.cMode with
  | .idle => .next s
  | .read => readDataBeat s
  | .peek => peekDataBeat s

/-- The first beat of the command that stands on the port whose turn it is; where none stands, no beat
is enabled and nothing happens (R163). -/
def firstBeat (s : State) : Result :=
  match s.slot s.turn with
  | none => .next s
  | some w => commandBeat w s

/-- The beat of the port whose turn it is (R163): the data beat of its burst in flight, else the first
beat of its command. -/
def portBeat (wdata : Byte) (s : State) : Result :=
  match s.turn with
  | .h => firstBeat s
  | .p => if s.pBusy then producerDataBeat wdata s else firstBeat s
  | .c => if s.cMode = .idle then firstBeat s else consumerDataBeat s
  | .k => firstBeat s

/-- An agent presents a command on its port (R71); two at once is a thing it never does (R212). -/
def present (x : Port) (w : CommandWord) (s : State) : Result :=
  match s.slot x with
  | none => .next (s.setSlot x (some w))
  | some _ => .refused .secondCommand

/-- One event at the ports. -/
def onEvent (e : Event) (s : State) : Result :=
  match e with
  | .present x w => present x w s
  | .beat x wdata => portBeat wdata { s with turn := x }
  | .hardwareReset => .next (hardwareReset s)

/-- The port a word is presented on where its writer has not said (R76): the first that may issue its
operation; H for a reserved opcode, which every port answers alike (R80). -/
def fetchPort (w : CommandWord) : Port :=
  match decode w with
  | .error _ => .h
  | .ok i => i.ports.headD .h

/-- The bursts that would keep a port's next beat from being the first beat of its command (R33, R103), ended. -/
def quiesce (x : Port) (s : State) : State :=
  match x with
  | .h => { s with pBusy := false, pRem := 0, cMode := .idle, cRem := 0 }
  | .p => { s with pBusy := false, pRem := 0 }
  | .c => { s with cMode := .idle, cRem := 0 }
  | .k => s

/-- A command word presented on a port and that port given the next beat. -/
def presentNext (x : Port) (w : CommandWord) (s : State) : State :=
  { (quiesce x s).setSlot x (some w) with script := .beat x 0 :: s.script }

/-- The events of a written command (R82) with no other beat between its own: it is presented, its first
beat is taken, and then one producer data beat for each payload byte, in payload order (D33). The
data beats a `READ` or a `PEEK` announces are not among them, since their number is known only then. -/
def writtenEvents (w : Written) : List Event :=
  .present w.port (encode w.instr) :: .beat w.port 0 :: w.payload.map (fun b => .beat w.port b)

end Sys2Proof.Machine
end

