-- ==== Sys2Proof/Machine/Step.lean ====
section
/-! DEFINITION. One step: the next event at the ports, in the one total order of spec/20_memory.md R56. -/

namespace Sys2Proof.Machine

/-- One step takes the next event of the script. With no event left it does nothing: of an ended run R211
says so, in any other state it is DESIGN CHOICE (log 9). -/
def step (s : State) : Host.Outcome State Fault Refusal :=
  match s.script with
  | [] => .next s
  | e :: rest => onEvent e { s with script := rest }

/-- `s` with a command word where the next step takes it: presented on the port that may issue its
operation, that port's burst ended, and its beat next in the order (log 6). A word of fewer than 72 bits is
extended by zeros, of a longer one the low 72 bits are presented (log 19). -/
def State.withFetchWord (s : State) (nbits w : Nat) : State :=
  presentNext (fetchPort (BitVec.ofNat 72 (w % 2 ^ nbits))) (BitVec.ofNat 72 (w % 2 ^ nbits)) s

end Sys2Proof.Machine
end

