-- ==== Sys2Proof/Safety.lean ====
section
/-! DEFINITION. What claims about the block speak of: the bytes held, the invariant of every reachable state, the launch premises, what a step stores and delivers (spec/10_state.md R28, spec/20_memory.md R57, R58, spec/70_reset_and_hazards.md R194, R211). -/

namespace Sys2Proof.Safety

open Sys2Proof.Machine

/-- The address of the slot `i` places after slot `x`, modulo `N` (R28 I7). -/
def addrAfter (s : State) (x : Word) (i : Nat) : Nat :=
  s.base.toNat + (x.toNat + i) % s.N.toNat

/-- The bytes held, oldest first: `store[base + (tail + i) mod N]` for `i < available()` (R28 I7). -/
def held (s : State) : List Byte :=
  (List.range (available s)).filterMap (fun i => s.mem.read (addrAfter s s.tail i))

/-- What holds of every state the block can be in. -/
structure BlockInv (s : State) : Prop where
  /-- The storage keeps its canonical form. -/
  memory : s.mem.wf
  /-- Unbound means as hardware reset left it (U11), with no burst in flight (R173). -/
  unbound : s.N = 0 →
    s.base = 0 ∧ s.head = 0 ∧ s.tail = 0 ∧ s.full = false ∧ s.pBusy = false ∧ s.cMode = .idle
  /-- Bound means to a region that is not null (R23) and ends inside the address space (R52 (c)). -/
  region : s.N ≠ 0 → s.base ≠ 0 ∧ s.base.toNat + s.N.toNat ≤ 2 ^ 32
  /-- I1. -/
  indices : s.N ≠ 0 → s.head.toNat < s.N.toNat ∧ s.tail.toNat < s.N.toNat
  /-- I2. -/
  fullMeets : s.full = true → s.head = s.tail
  /-- Every byte held has been written (R58). -/
  heldWritten : ∀ i < available s, (s.mem.read (addrAfter s s.tail i)).isSome
  /-- `p_busy = 0` goes with `p_rem = 0` (R31). -/
  producer : s.pBusy = false ↔ s.pRem = 0
  /-- `c_mode = IDLE` goes with `c_rem = 0` (R32). -/
  consumer : s.cMode = .idle ↔ s.cRem = 0
  /-- `c_rem ≤ N` (R32). -/
  burstFits : s.cRem.toNat ≤ s.N.toNat
  /-- I8: a `READ` burst never asks for more than is held. -/
  readFits : s.cMode = .read → s.cRem.toNat ≤ available s
  /-- The `PEEK` cursor is a slot (R32), and the slots still to be visited have been written (R58). -/
  peekFits : s.cMode = .peek →
    s.cCur.toNat < s.N.toNat ∧ ∀ i < s.cRem.toNat, (s.mem.read (addrAfter s s.cCur i)).isSome

/-- `Empty` (R194). -/
abbrev Empty (s : State) : Prop := s.full = false ∧ s.head = s.tail

/-- `Quiescent` (R194): no burst in flight and no command at port H. -/
abbrev Quiescent (s : State) : Prop := burstInFlight s = false ∧ s.hCmd = none

/-- Whether an event is an agent presenting a command. -/
def presents : Event → Bool
  | .present _ _ => true
  | .beat _ _ => false
  | .hardwareReset => false

/-- Whether an event gives port `x` a beat. -/
def isBeatOf (x : Port) : Event → Bool
  | .present _ _ => false
  | .beat y _ => y == x
  | .hardwareReset => false

/-- A run has ended (R211): the agents present nothing more, no burst is in flight, no command stands on a port. -/
abbrev Ended (s : State) : Prop :=
  s.script.all (fun e => !presents e) = true ∧ burstInFlight s = false
    ∧ s.hCmd = none ∧ s.pCmd = none ∧ s.cCmd = none ∧ s.kCmd = none

/-- The port `x` has the beat and is ready for a command (R33). -/
abbrev ReadyAt (x : Port) (s : State) : Prop := s.turn = x ∧ portBusy s x = false

/-- Whether the first beat of the command `w` on port `x` is enabled (R163): it is not held. -/
def mayTake (x : Port) (w : CommandWord) (s : State) : Bool :=
  match decode w with
  | .error _ => true
  | .ok i => !(i.ports.contains x && isHeld i s)

/-- Whether the command that stands on port `x` has its first beat enabled: it is there, and not held. -/
def commandEnabled (x : Port) (s : State) : Bool :=
  match s.slot x with
  | none => false
  | some w => mayTake x w s

/-- Whether port `x` has a beat enabled now: the data beat of its burst, or the first beat of the command
its agent has presented. -/
def enabled (x : Port) (s : State) : Bool := portBusy s x || commandEnabled x s

/-- The first command that the agent of port `x` is still going to present (R21). -/
def toPresent (x : Port) : List Event → Option CommandWord
  | [] => none
  | .present y w :: es => if y = x then some w else toPresent x es
  | .beat _ _ :: es => toPresent x es
  | .hardwareReset :: es => toPresent x es

/-- The next command of port `x`: the one that stands there, else the first its agent is going to present. -/
def nextCommand (x : Port) (s : State) : Option CommandWord :=
  match s.slot x with
  | some w => some w
  | none => toPresent x s.script

/-- Whether port `x` has an enabled beat in the words of R163, which counts the next command that its agent
presents: `enabled`, or one presentation away from it. -/
def live (x : Port) (s : State) : Bool :=
  portBusy s x ||
    match nextCommand x s with
    | none => false
    | some w => mayTake x w s

/-- The most data beats the burst of an operation can have (R111, R122, R124): `len`. -/
def burstBound : Instr → Nat
  | .init _ _ => 0
  | .reset => 0
  | .writeByte _ => 0
  | .write len => len.toNat
  | .readByte => 0
  | .read len => len.toNat
  | .peek len => len.toNat
  | .available => 0
  | .free => 0
  | .isEmpty => 0
  | .isFull => 0
  | .crcClear => 0
  | .crcByte _ => 0
  | .crcGet => 0

/-- The most beats the command `w` can take: its first beat and its data beats. -/
def commandWork (w : CommandWord) : Nat :=
  match decode w with
  | .error _ => 1
  | .ok i => 1 + burstBound i

/-- The same for what stands on a port. -/
def slotWork : Option CommandWord → Nat
  | none => 0
  | some w => commandWork w

/-- A command still to be presented takes its presentation and its beats. -/
def eventWork : Event → Nat
  | .present _ w => 1 + commandWork w
  | .beat _ _ => 0
  | .hardwareReset => 0

/-- A bound on the presentations and enabled beats that can still be taken without new input (R211): the
commands to be presented, those on the ports, and the bursts in flight. It is finite, as the script is. -/
def work (s : State) : Nat :=
  (s.script.map eventWork).sum + slotWork s.hCmd + slotWork s.pCmd + slotWork s.cCmd + slotWork s.kCmd
    + s.pRem.toNat + s.cRem.toNat

/-- A round of a fair order (R60): every port is given a beat in it, and nothing is presented. -/
abbrev FairRound (es : List Event) : Prop :=
  (∀ x : Port, es.any (isBeatOf x) = true) ∧ es.all (fun e => !presents e) = true

/-- Whether a command word is an `INIT`. -/
def isInit (w : CommandWord) : Bool := opField w == 0x01

/-- `Bound` (R194): an `INIT` has succeeded since hardware reset, which is what `N ≠ 0` says (R22), and no
other will be taken: none stands on port H, the one port that may issue it, and none will be presented
there. That it was the only one so far is not asked, since an `INIT` leaves no trace of an earlier one (R102); the
reading is DEDUCED (log 22). -/
abbrev Bound (s : State) : Prop :=
  s.N ≠ 0 ∧ s.hCmd.all (fun w => !isInit w) = true ∧
    s.script.all (fun e => match e with
      | .present x w => !(x == .h && isInit w)
      | .beat _ _ => true
      | .hardwareReset => true) = true

/-- Whether the next step is the beat of a `CRC_CLEAR`. Port K has no burst and holds nothing, so the
command that stands there is taken when the port is given its beat. -/
def takesCrcClear (s : State) : Bool :=
  match s.script with
  | .beat .k _ :: _ => s.kCmd.any (fun w => opField w == 0x40)
  | _ => false

/-- Whether `k` steps leave the CRC unit seeded, if `b` says whether it is before them: the last `CRC_CLEAR`
seeds it, a hardware reset undoes that. A run that stops seeds nothing. -/
def seededAfter : Nat → State → Bool → Bool
  | 0, _, b => b
  | k + 1, s, b =>
    match step s with
    | .next t => seededAfter k t (takesCrcClear s || (b && s.script.head? != some .hardwareReset))
    | .fault _ => false
    | .refused _ => false

/-- `CrcSeeded` (R194), of where `k` steps from `s` lead: one of them took a `CRC_CLEAR`, and none after it
was a hardware reset. It is history, which the block's registers do not hold. -/
abbrev CrcSeeded (k : Nat) (s : State) : Prop := seededAfter k s false = true

/-- The address a storage access goes to. -/
def accessAddr : Access → Nat
  | .read a => a
  | .write a _ => a

/-- The accesses a step made. -/
def accesses (s t : State) : List Access := t.bus.drop s.bus.length

/-- The bytes a step delivered on `RDATA`. -/
def delivered (s t : State) : List Byte := t.rdata.drop s.rdata.length

/-- What a byte of storage holds after some accesses of the block, if nothing else touched it. -/
def afterAccesses (a : Nat) (old : Option Byte) : List Access → Option Byte
  | [] => old
  | .read _ :: acc => afterAccesses a old acc
  | .write b v :: acc => afterAccesses a (if b = a then some v else old) acc

/-- `RegionPrivate` (R194), obligations (a) to (c) of R52, for the next step. Storage is a plain memory and
no event is another agent's access (log 15), so every state the block can be in has it
(`regionPrivate_of_inv`): here it is a theorem, on hardware a premise the platform owes. -/
structure RegionPrivate (s : State) : Prop where
  /-- (a): a load delivers what the byte holds. -/
  ordinary : ∀ t a, step s = .next t → .read a ∈ accesses s t → (delivered s t).head? = s.mem.read a
  /-- (a), (b): a byte changes by the block's own stores alone. -/
  untouched : ∀ t a, step s = .next t → t.mem.read a = afterAccesses a (s.mem.read a) (accesses s t)
  /-- (c): the region ends inside the address space. -/
  fits : s.base.toNat + s.N.toNat ≤ 2 ^ 32

/-- Nothing of the ring registers is written. -/
abbrev SameRing (s t : State) : Prop :=
  t.base = s.base ∧ t.N = s.N ∧ t.head = s.head ∧ t.tail = s.tail ∧ t.full = s.full

/-- Nothing of the producer sequencer is written. -/
abbrev SameProducer (s t : State) : Prop := t.pBusy = s.pBusy ∧ t.pRem = s.pRem

/-- Nothing of the consumer sequencer is written. For `c_cur` outside a `PEEK` burst that is the model's
reading (log 18). -/
abbrev SameConsumer (s t : State) : Prop := t.cMode = s.cMode ∧ t.cRem = s.cRem ∧ t.cCur = s.cCur

/-- Nothing of the CRC unit, the parameters and the free values drawn is written. -/
abbrev SameCrc (s t : State) : Prop := t.crc = s.crc ∧ t.params = s.params ∧ t.draws = s.draws

/-- Every byte of storage reads as before, and no access was made. -/
abbrev SameStorage (s t : State) : Prop := (∀ a, t.mem.read a = s.mem.read a) ∧ t.bus = s.bus

/-- The command of port `x` was taken and answered with `r`; the other ports, the input and the turn stay. -/
abbrev Answered (s t : State) (rsp : Rsp) (val : Word) : Prop :=
  t.slot s.turn = none ∧ (∀ y, y ≠ s.turn → t.slot y = s.slot y)
    ∧ t.replies = s.replies ++ [{ port := s.turn, rsp := rsp, val := val }]
    ∧ t.script = s.script ∧ t.turn = s.turn

/-- No command was taken or answered; the ports, the input and the turn stay. -/
abbrev Unanswered (s t : State) : Prop :=
  (∀ y, t.slot y = s.slot y) ∧ t.replies = s.replies ∧ t.script = s.script ∧ t.turn = s.turn

/-- The byte a storage access stores, if it stores one. -/
def storedByte : Access → Option Byte
  | .read _ => none
  | .write _ v => some v

/-- The bytes a step stored in the ring, as producer data beats do. -/
def produced (s t : State) : List Byte := (accesses s t).filterMap storedByte

/-- The bytes a step removed from the ring: what it delivered, but for a `PEEK`. -/
def removed (s t : State) : List Byte := if s.cMode = .peek then [] else delivered s t

/-- `k` steps, stopping at the first fault or refusal. -/
def run : Nat → State → Result
  | 0, s => .next s
  | k + 1, s =>
    match step s with
    | .next t => run k t
    | .fault f => .fault f
    | .refused r => .refused r

/-- What `k` steps produce and remove, in order, and where they lead, if none of them stops. -/
def history : Nat → State → Option (List Byte × List Byte × State)
  | 0, s => some ([], [], s)
  | k + 1, s =>
    match step s with
    | .next t =>
      match history k t with
      | some (p, r, u) => some (produced s t ++ p, removed s t ++ r, u)
      | none => none
    | .fault _ => none
    | .refused _ => none

/-- Whether an event is the hardware reset. -/
def isHardwareReset : Event → Bool
  | .present _ _ => false
  | .beat _ _ => false
  | .hardwareReset => true

/-- The reserved values of `OP`, range by range (R80). -/
def reservedOpcode (op : Nat) : Bool :=
  op == 0x00 || (0x03 ≤ op && op ≤ 0x0F) || (0x12 ≤ op && op ≤ 0x1F) || (0x23 ≤ op && op ≤ 0x2F)
    || (0x34 ≤ op && op ≤ 0x3F) || (0x43 ≤ op && op ≤ 0xFF)

/-- A bounded queue that overwrites: appending to a full one discards its oldest element first. -/
def overwriteAppend (capacity : Nat) (q : List Byte) (b : Byte) : List Byte :=
  if q.length = capacity then q.tail ++ [b] else q ++ [b]

end Sys2Proof.Safety
end

