-- ==== Sys2Proof/Certificates/Slice0/Obligations.lean ====
section
/-! DEFINITION. The statements for the provers: what the numbered rules of the spec say the block does. -/

open Sys2Proof Sys2Proof.Machine Sys2Proof.Safety

/-! Encoding. -/

/-- R72, R75, R76: no bit of an operand is lost on the way into a command word and out of it. -/
def Obligations.DecodeEncodeRoundTrip : Prop :=
  ∀ i : Instr, decode (encode i) = .ok i

/-- R78: two words with the same `OP` that agree on the fields the format reads (R75) are the same operation. -/
def Obligations.IgnoredFieldsDoNotMatter : Prop :=
  ∀ w w' : CommandWord, opField w = opField w' →
    (opField w = 0x01 → aField w = aField w' ∧ bField w = bField w') →
    (opField w = 0x11 ∨ opField w = 0x21 ∨ opField w = 0x22 → aField w = aField w') →
    (opField w = 0x10 ∨ opField w = 0x41 → bByte w = bByte w') →
    decode w = decode w'

/-- R76: `OP` selects the operation, the format its operands, and the column "ports" who may issue it. -/
def Obligations.OpcodeMapSelectsOperation : Prop :=
  ∀ w : CommandWord,
    (opField w = 0x01 → decode w = .ok (.init (aField w) (bField w))) ∧
    (opField w = 0x02 → decode w = .ok .reset) ∧
    (opField w = 0x10 → decode w = .ok (.writeByte (bByte w))) ∧
    (opField w = 0x11 → decode w = .ok (.write (aField w))) ∧
    (opField w = 0x20 → decode w = .ok .readByte) ∧
    (opField w = 0x21 → decode w = .ok (.read (aField w))) ∧
    (opField w = 0x22 → decode w = .ok (.peek (aField w))) ∧
    (opField w = 0x30 → decode w = .ok .available) ∧
    (opField w = 0x31 → decode w = .ok .free) ∧
    (opField w = 0x32 → decode w = .ok .isEmpty) ∧
    (opField w = 0x33 → decode w = .ok .isFull) ∧
    (opField w = 0x40 → decode w = .ok .crcClear) ∧
    (opField w = 0x41 → decode w = .ok (.crcByte (bByte w))) ∧
    (opField w = 0x42 → decode w = .ok .crcGet) ∧
    (∀ storage size, (Instr.init storage size).ports = [.h]) ∧ Instr.reset.ports = [.h] ∧
    (∀ b, (Instr.writeByte b).ports = [.p]) ∧ (∀ len, (Instr.write len).ports = [.p]) ∧
    Instr.readByte.ports = [.c] ∧ (∀ len, (Instr.read len).ports = [.c]) ∧
    (∀ len, (Instr.peek len).ports = [.c]) ∧
    Instr.available.ports = [.h, .p, .c] ∧ Instr.free.ports = [.h, .p, .c] ∧
    Instr.isEmpty.ports = [.h, .p, .c] ∧ Instr.isFull.ports = [.h, .p, .c] ∧
    Instr.crcClear.ports = [.k] ∧ (∀ b, (Instr.crcByte b).ports = [.k]) ∧ Instr.crcGet.ports = [.k]

/-- R80: the reserved values are the 242 listed; on any port that is ready, in any state, a command that
holds one gets `ERR_ILLEGAL` with `VAL = 0` and nothing else happens. -/
def Obligations.ReservedOpcodeIsAnsweredIllegal : Prop :=
  ((List.range 256).filter reservedOpcode).length = 242 ∧
  ∀ w : CommandWord,
    (reservedOpcode (opField w).toNat = true ↔ decode w = .error (.reservedOpcode (opField w))) ∧
    (reservedOpcode (opField w).toNat = true →
      ∀ (s : State) (x : Port) (wdata : Byte) (rest : List Event),
        s.script = .beat x wdata :: rest → s.slot x = some w → portBusy s x = false →
        ∃ t, step s = .next t ∧ Answered { s with script := rest, turn := x } t .errIllegal 0 ∧
          SameRing s t ∧ SameProducer s t ∧ SameConsumer s t ∧ SameCrc s t ∧ SameStorage s t ∧
          t.rdata = s.rdata)

/-- A word of each family, written out from R72 and R76, is the operation it stands for. -/
def Obligations.FamilyWordsDecode : Prop :=
  decodeTableWord 72 0x012000000000000004 = some (.init 0x20000000 4) ∧
  decodeTableWord 72 0x100000000000000041 = some (.writeByte 0x41) ∧
  decodeTableWord 72 0x220000000200000000 = some (.peek 2) ∧
  decodeTableWord 72 0x330000000000000000 = some .isFull ∧
  decodeTableWord 72 0x410000000000000091 = some (.crcByte 0x91)

/-- R73, R74: `RSP` in the four high bits, `VAL` in the 32 low ones, and the three codes. -/
def Obligations.ResponseWordLayout : Prop :=
  (∀ r : Reply, r.word.extractLsb' 32 4 = r.rsp.code ∧ r.word.extractLsb' 0 32 = r.val) ∧
  Rsp.ok.code = 0x0 ∧ Rsp.errIllegal.code = 0x1 ∧ Rsp.errUnbound.code = 0x2

/-! Sequencing. -/

/-- R163: a step that gives a ready port its beat runs the operation its command decodes to, and around
it only the script moves on and the turn is set. -/
def Obligations.StepRunsDecodedOperation : Prop :=
  ∀ (s : State) (x : Port) (wdata : Byte) (rest : List Event) (w : CommandWord) (i : Instr),
    s.script = .beat x wdata :: rest → s.slot x = some w → decode w = .ok i → portBusy s x = false →
    step s = exec i { s with script := rest, turn := x }

/-- R33, R163: a port with a burst in flight takes its data beat, whatever command waits on it. -/
def Obligations.BusyPortTakesDataBeat : Prop :=
  ∀ (s : State) (wdata : Byte) (rest : List Event),
    (s.script = .beat .p wdata :: rest → s.pBusy = true →
      step s = producerDataBeat wdata { s with script := rest, turn := .p }) ∧
    (s.script = .beat .c wdata :: rest → s.cMode = .read →
      step s = readDataBeat { s with script := rest, turn := .c }) ∧
    (s.script = .beat .c wdata :: rest → s.cMode = .peek →
      step s = peekDataBeat { s with script := rest, turn := .c })

/-- R71: presenting a command puts it on its port and does nothing else. Two clauses are
the model's choice (log 9). A script may give a beat to a port with neither burst nor command, and such a
step does nothing: R163 has no such beat. A step with no event left does nothing in any state: R211 says
that nothing further happens only of an ended run, and with a burst in flight R163 has a beat enabled. -/
def Obligations.PresentingAndIdleBeats : Prop :=
  ∀ (s : State) (x : Port) (rest : List Event),
    (∀ w, s.script = .present x w :: rest → s.slot x = none →
      step s = .next ({ s with script := rest }.setSlot x (some w))) ∧
    (∀ wdata, s.script = .beat x wdata :: rest → s.slot x = none → portBusy s x = false →
      step s = .next { s with script := rest, turn := x }) ∧
    (s.script = [] → step s = .next s)

/-- R31, R32, R180: what a beat of each port can write. A beat of K leaves the ring, the sequencers and
storage; of C, leaves `base`, `N`, `head`, storage and the producer sequencer; of P, leaves `base`, `N`,
the consumer sequencer and `RDATA`; of H, leaves both sequencers, storage and `RDATA`; only K writes `crc`. -/
def Obligations.EachPortWritesItsOwn : Prop :=
  ∀ (s t : State) (x : Port) (wdata : Byte) (rest : List Event),
    s.script = .beat x wdata :: rest → step s = .next t →
    (x = .k → SameRing s t ∧ SameProducer s t ∧ SameConsumer s t ∧ SameStorage s t ∧ t.rdata = s.rdata) ∧
    (x = .c → t.base = s.base ∧ t.N = s.N ∧ t.head = s.head ∧ t.mem = s.mem ∧ SameProducer s t) ∧
    (x = .p → t.base = s.base ∧ t.N = s.N ∧ SameConsumer s t ∧ t.rdata = s.rdata) ∧
    (x = .h → SameProducer s t ∧ SameConsumer s t ∧ SameStorage s t ∧ t.rdata = s.rdata) ∧
    (x ≠ .k → t.crc = s.crc) ∧ t.params = s.params ∧ t.draws = s.draws

/-- R22, R23: `base` and `N` are written by a successful `INIT` and by hardware reset, by nothing else. -/
def Obligations.OnlyInitAndHardwareResetRebind : Prop :=
  ∀ s t : State, step s = .next t → t.base ≠ s.base ∨ t.N ≠ s.N →
    (∃ rest, s.script = .hardwareReset :: rest ∧ t.base = 0 ∧ t.N = 0) ∨
    (∃ wdata rest w storage size, s.script = .beat .h wdata :: rest ∧ s.hCmd = some w ∧
      decode w = .ok (.init storage size) ∧ t.base = storage ∧ t.N = size)

/-! Errors and responses. -/

/-- R71, R172: the first beat of a command answers it once, on the port that issued it, and takes it off
that port, or leaves everything as it was; and an error has no other effect. -/
def Obligations.FirstBeatAnswersOnceOrWaits : Prop :=
  ∀ (i : Instr) (s t : State), exec i s = .next t →
    t = s ∨
    ∃ rsp val, t.replies = s.replies ++ [{ port := s.turn, rsp := rsp, val := val }] ∧
      t.slot s.turn = none ∧ (∀ y, y ≠ s.turn → t.slot y = s.slot y) ∧
      (rsp ≠ .ok → val = 0 ∧ SameRing s t ∧ SameProducer s t ∧ SameConsumer s t ∧ SameCrc s t ∧
        SameStorage s t ∧ t.rdata = s.rdata)

/-- R171 (b): an operation on a port that may not issue it gets `ERR_ILLEGAL` at once, bound or not, held
or not, and has no effect. -/
def Obligations.WrongPortIsAnsweredIllegal : Prop :=
  ∀ (i : Instr) (s : State), s.turn ∉ i.ports → portBusy s s.turn = false →
    ∃ t, exec i s = .next t ∧ Answered s t .errIllegal 0 ∧ SameRing s t ∧ SameProducer s t ∧
      SameConsumer s t ∧ SameCrc s t ∧ SameStorage s t ∧ t.rdata = s.rdata

/-- R173: the ten ring operations other than `INIT` get `ERR_UNBOUND` while `N = 0` and have no effect. -/
def Obligations.UnboundRingOperationIsAnsweredUnbound : Prop :=
  ∀ (i : Instr) (s : State),
    (i = .reset ∨ (∃ b, i = .writeByte b) ∨ (∃ len, i = .write len) ∨ i = .readByte ∨
      (∃ len, i = .read len) ∨ (∃ len, i = .peek len) ∨ i = .available ∨ i = .free ∨ i = .isEmpty ∨
      i = .isFull) →
    s.turn ∈ i.ports → portBusy s s.turn = false → (i = .reset → burstInFlight s = false) → s.N = 0 →
    ∃ t, exec i s = .next t ∧ Answered s t .errUnbound 0 ∧ SameRing s t ∧ SameProducer s t ∧
      SameConsumer s t ∧ SameCrc s t ∧ SameStorage s t ∧ t.rdata = s.rdata

/-- R176: `ERR_UNBOUND` is reported only by an operation on a port that may issue it, and never by
`INIT` or an operation of the CRC unit (R100, R150 to R152). -/
def Obligations.IllegalIsTestedBeforeUnbound : Prop :=
  ∀ (i : Instr) (s t : State), exec i s = .next t →
    t.replies = s.replies ++ [{ port := s.turn, rsp := .errUnbound, val := 0 }] →
    s.turn ∈ i.ports ∧ s.N = 0 ∧ (∀ storage size, i ≠ .init storage size) ∧ i ≠ .crcClear ∧
      (∀ b, i ≠ .crcByte b) ∧ i ≠ .crcGet

/-! Control operations. -/

/-- R100, R102: `INIT` with a region that is not null, bound before or not, binds and empties the ring. -/
def Obligations.InitBindsAndEmpties : Prop :=
  ∀ (s : State) (storage size : Word), s.turn = .h → burstInFlight s = false → storage ≠ 0 → size ≠ 0 →
    storage.toNat + size.toNat ≤ 2 ^ 32 →
    ∃ t, exec (.init storage size) s = .next t ∧ t.base = storage ∧ t.N = size ∧ t.head = 0 ∧ t.tail = 0 ∧
      t.full = false ∧ SameProducer s t ∧ SameConsumer s t ∧ SameCrc s t ∧ SameStorage s t ∧
      t.rdata = s.rdata ∧ Answered s t .ok 0

/-- R100: `INIT` with a null reference or a zero size is answered `OK` and writes nothing. -/
def Obligations.NullInitIsSilentNoOp : Prop :=
  ∀ (s : State) (storage size : Word), s.turn = .h → burstInFlight s = false → storage = 0 ∨ size = 0 →
    ∃ t, exec (.init storage size) s = .next t ∧ SameRing s t ∧ SameProducer s t ∧ SameConsumer s t ∧
      SameCrc s t ∧ SameStorage s t ∧ t.rdata = s.rdata ∧ Answered s t .ok 0

/-- R52 (c), U5: `INIT` of a region that runs past the top of the address space is refused; the spec gives
it no meaning and leaves the refusal to the model (log 5). -/
def Obligations.InitPastTopIsRefused : Prop :=
  ∀ (s : State) (storage size : Word), s.turn = .h → burstInFlight s = false → storage ≠ 0 → size ≠ 0 →
    2 ^ 32 < storage.toNat + size.toNat → exec (.init storage size) s = .refused .regionPastTop

/-- R101: `RESET` empties the ring; it writes neither its binding nor `crc` nor storage. -/
def Obligations.ResetEmptiesRing : Prop :=
  ∀ s : State, s.turn = .h → burstInFlight s = false → s.N ≠ 0 →
    ∃ t, exec .reset s = .next t ∧ t.base = s.base ∧ t.N = s.N ∧ t.head = 0 ∧ t.tail = 0 ∧
      t.full = false ∧ SameProducer s t ∧ SameConsumer s t ∧ SameCrc s t ∧ SameStorage s t ∧
      t.rdata = s.rdata ∧ Answered s t .ok 0

/-- R103: while a burst is in flight `INIT` and `RESET` stay on port H with nothing written and no
response, and the status operations on port H do not wait. -/
def Obligations.ControlWaitsForBursts : Prop :=
  ∀ s : State, s.turn = .h → burstInFlight s = true →
    (∀ storage size, exec (.init storage size) s = .next s) ∧ exec .reset s = .next s ∧
    ∀ i : Instr, i = .available ∨ i = .free ∨ i = .isEmpty ∨ i = .isFull →
      ∃ t, exec i s = .next t ∧ t.slot .h = none ∧ t.replies.length = s.replies.length + 1

/-! Producer operations. -/

/-- R110: `WRITE_BYTE` on a bound ring stores its byte at `base + head` and advances `head`; on a full
ring it first advances `tail`; `full` is whether the updated indices meet. -/
def Obligations.WriteByteStoresAndAdvances : Prop :=
  ∀ (s : State) (b : Byte), ReadyAt .p s → s.N ≠ 0 → s.base.toNat + s.head.toNat < 2 ^ 32 →
    ∃ t, exec (.writeByte b) s = .next t ∧
      t.head.toNat = (s.head.toNat + 1) % s.N.toNat ∧
      t.tail.toNat = (if s.full then (s.tail.toNat + 1) % s.N.toNat else s.tail.toNat) ∧
      (t.full = true ↔ t.head = t.tail) ∧ t.base = s.base ∧ t.N = s.N ∧
      t.mem.read (s.base.toNat + s.head.toNat) = some b ∧
      (∀ a, a ≠ s.base.toNat + s.head.toNat → t.mem.read a = s.mem.read a) ∧
      t.bus = s.bus ++ [.write (s.base.toNat + s.head.toNat) b] ∧
      SameProducer s t ∧ SameConsumer s t ∧ SameCrc s t ∧ t.rdata = s.rdata ∧ Answered s t .ok 0

/-- R111: the accept beat of `WRITE` answers `OK` and starts the burst; `WRITE 0` only answers. -/
def Obligations.WriteAcceptStartsBurst : Prop :=
  ∀ (s : State) (len : Word), ReadyAt .p s → s.N ≠ 0 →
    ∃ t, exec (.write len) s = .next t ∧
      (len = 0 → SameProducer s t) ∧ (len ≠ 0 → t.pBusy = true ∧ t.pRem = len) ∧
      SameRing s t ∧ SameConsumer s t ∧ SameCrc s t ∧ SameStorage s t ∧ t.rdata = s.rdata ∧
      Answered s t .ok 0

/-- R111: the data beat of `WRITE` takes the byte on `WDATA`, stores it as `WRITE_BYTE` does, counts it,
and ends the burst with the last; it answers no command. -/
def Obligations.WriteDataBeatStoresPayload : Prop :=
  ∀ (s : State) (b : Byte) (rest : List Event), s.script = .beat .p b :: rest → s.pBusy = true →
    s.pRem ≠ 0 → s.N ≠ 0 → s.base.toNat + s.head.toNat < 2 ^ 32 →
    ∃ t, step s = .next t ∧
      t.pRem.toNat = s.pRem.toNat - 1 ∧ (t.pBusy = true ↔ t.pRem ≠ 0) ∧
      t.head.toNat = (s.head.toNat + 1) % s.N.toNat ∧
      t.tail.toNat = (if s.full then (s.tail.toNat + 1) % s.N.toNat else s.tail.toNat) ∧
      (t.full = true ↔ t.head = t.tail) ∧ t.base = s.base ∧ t.N = s.N ∧
      t.mem.read (s.base.toNat + s.head.toNat) = some b ∧
      (∀ a, a ≠ s.base.toNat + s.head.toNat → t.mem.read a = s.mem.read a) ∧
      t.bus = s.bus ++ [.write (s.base.toNat + s.head.toNat) b] ∧
      SameConsumer s t ∧ SameCrc s t ∧ t.rdata = s.rdata ∧
      Unanswered { s with script := rest, turn := .p } t

/-- R113: on a bound block the producer is never denied: `WRITE_BYTE` and `WRITE` of any length are
answered `OK` in their first beat, a `WRITE` owes all `len` bytes, and every data beat stores its byte. -/
def Obligations.ProducerIsNeverDenied : Prop :=
  ∀ s : State, BlockInv s → s.N ≠ 0 →
    (∀ b, ReadyAt .p s → ∃ t, exec (.writeByte b) s = .next t ∧ Answered s t .ok 0 ∧
      accesses s t = [.write (s.base.toNat + s.head.toNat) b]) ∧
    (∀ len, ReadyAt .p s → ∃ t, exec (.write len) s = .next t ∧ Answered s t .ok 0 ∧ t.pRem = len ∧
      (t.pBusy = true ↔ len ≠ 0)) ∧
    (∀ b rest, s.script = .beat .p b :: rest → s.pBusy = true →
      ∃ t, step s = .next t ∧ t.pRem.toNat + 1 = s.pRem.toNat ∧
        accesses s t = [.write (s.base.toNat + s.head.toNat) b])

/-- R110: a stored byte raises the count by one, up to the capacity. -/
def Obligations.PushCountsUpToCapacity : Prop :=
  ∀ (s t : State) (b : Byte), BlockInv s → push b s = .ok t → available t = min (available s + 1) s.N.toNat

/-- R112: a ring of capacity 1 keeps both indices at 0; a `push` makes it full with the byte in slot 0, a
`pop` returns that byte and clears `full`. -/
def Obligations.OneByteRingHoldsLastByte : Prop :=
  ∀ (s : State) (b : Byte), BlockInv s → s.N = 1 →
    s.head = 0 ∧ s.tail = 0 ∧
    ∃ t, push b s = .ok t ∧ t.head = 0 ∧ t.tail = 0 ∧ t.full = true ∧
      t.mem.read s.base.toNat = some b ∧ held t = [b] ∧
      ∃ u, pop t = .ok (b, u) ∧ u.head = 0 ∧ u.tail = 0 ∧ u.full = false

/-- R111 corner case (f): with no other port active `WRITE len` leaves the same registers and storage as
`len` commands `WRITE_BYTE`. -/
def Obligations.WriteEqualsWriteBytes : Prop :=
  ∀ (s : State) (bs : List Byte), BlockInv s → s.N ≠ 0 → s.pBusy = false → s.pCmd = none →
    bs.length < 2 ^ 32 →
    ∃ t u : State,
      run (2 + bs.length)
        { s with script := writtenEvents ⟨.p, .write (BitVec.ofNat 32 bs.length), bs⟩ } = .next t ∧
      run (2 * bs.length)
        { s with script := bs.flatMap (fun b => writtenEvents ⟨.p, .writeByte b, []⟩) } = .next u ∧
      SameRing t u ∧ t.mem = u.mem ∧ SameProducer t u ∧ SameConsumer t u ∧ SameCrc t u

/-! Consumer operations. -/

/-- R121, R120: `READ_BYTE` on a buffer that holds a byte delivers the one at `base + tail`, advances
`tail` and clears `full`; the byte stays in its slot. -/
def Obligations.ReadByteTakesOldest : Prop :=
  ∀ (s : State) (v : Byte), ReadyAt .c s → s.N ≠ 0 → available s ≠ 0 →
    s.base.toNat + s.tail.toNat < 2 ^ 32 → s.mem.read (s.base.toNat + s.tail.toNat) = some v →
    ∃ t, exec .readByte s = .next t ∧ t.rdata = s.rdata ++ [v] ∧
      t.tail.toNat = (s.tail.toNat + 1) % s.N.toNat ∧ t.full = false ∧ t.base = s.base ∧ t.N = s.N ∧
      t.head = s.head ∧ (∀ a, t.mem.read a = s.mem.read a) ∧
      t.bus = s.bus ++ [.read (s.base.toNat + s.tail.toNat)] ∧
      SameProducer s t ∧ SameConsumer s t ∧ SameCrc s t ∧ Answered s t .ok 1

/-- R121 corner case (a): on an empty buffer `READ_BYTE` answers 0, delivers no byte and writes no register. -/
def Obligations.ReadByteOnEmptyDeliversNothing : Prop :=
  ∀ s : State, ReadyAt .c s → s.N ≠ 0 → available s = 0 →
    ∃ t, exec .readByte s = .next t ∧ t.rdata = s.rdata ∧ SameRing s t ∧ SameProducer s t ∧
      SameConsumer s t ∧ SameCrc s t ∧ SameStorage s t ∧ Answered s t .ok 0

/-- R122, R126: the accept beat of `READ` announces `min(len, available())` and starts the burst; a `READ`
of nothing only answers, and leaves `full`. The clauses that `c_cur` is unchanged are the model's reading
(log 18): outside `PEEK` its value is open (R32, U10). -/
def Obligations.ReadAcceptAnnouncesCount : Prop :=
  ∀ (s : State) (len : Word), ReadyAt .c s → s.N ≠ 0 →
    ∃ (t : State) (n : Word), exec (.read len) s = .next t ∧
      n.toNat = min len.toNat (available s) ∧ Answered s t .ok n ∧
      (n = 0 → SameConsumer s t) ∧ (n ≠ 0 → t.cMode = .read ∧ t.cRem = n ∧ t.cCur = s.cCur) ∧
      SameRing s t ∧ SameProducer s t ∧ SameCrc s t ∧ SameStorage s t ∧ t.rdata = s.rdata

/-- R122, R120: the data beat of `READ` delivers the byte at `base + tail`, advances `tail`, clears `full`,
and ends the burst with the last; it answers no command. The clause that `c_cur` is unchanged is the
model's reading (log 18): outside `PEEK` its value is open (R32, U10). -/
def Obligations.ReadDataBeatDeliversOldest : Prop :=
  ∀ (s : State) (wdata v : Byte) (rest : List Event), s.script = .beat .c wdata :: rest →
    s.cMode = .read → s.cRem ≠ 0 → s.N ≠ 0 → available s ≠ 0 →
    s.base.toNat + s.tail.toNat < 2 ^ 32 → s.mem.read (s.base.toNat + s.tail.toNat) = some v →
    ∃ t, step s = .next t ∧ t.rdata = s.rdata ++ [v] ∧
      t.tail.toNat = (s.tail.toNat + 1) % s.N.toNat ∧ t.full = false ∧ t.base = s.base ∧ t.N = s.N ∧
      t.head = s.head ∧ t.cRem.toNat = s.cRem.toNat - 1 ∧ t.cCur = s.cCur ∧
      t.cMode = (if s.cRem = 1 then .idle else .read) ∧ (∀ a, t.mem.read a = s.mem.read a) ∧
      t.bus = s.bus ++ [.read (s.base.toNat + s.tail.toNat)] ∧ SameProducer s t ∧ SameCrc s t ∧
      Unanswered { s with script := rest, turn := .c } t

/-- R124, R126: the accept beat of `PEEK` announces `min(len, available())` and starts the burst with its
cursor at `tail`; a `PEEK` of nothing only answers (for `c_cur` then, log 18). -/
def Obligations.PeekAcceptAnnouncesCount : Prop :=
  ∀ (s : State) (len : Word), ReadyAt .c s → s.N ≠ 0 →
    ∃ (t : State) (n : Word), exec (.peek len) s = .next t ∧
      n.toNat = min len.toNat (available s) ∧ Answered s t .ok n ∧
      (n = 0 → SameConsumer s t) ∧ (n ≠ 0 → t.cMode = .peek ∧ t.cRem = n ∧ t.cCur = s.tail) ∧
      SameRing s t ∧ SameProducer s t ∧ SameCrc s t ∧ SameStorage s t ∧ t.rdata = s.rdata

/-- R124: the data beat of `PEEK` delivers the byte at `base + c_cur` and advances the cursor; no ring
register is written, `tail` and `full` among them. -/
def Obligations.PeekDataBeatKeepsRing : Prop :=
  ∀ (s : State) (wdata v : Byte) (rest : List Event), s.script = .beat .c wdata :: rest →
    s.cMode = .peek → s.cRem ≠ 0 → s.N ≠ 0 → s.base.toNat + s.cCur.toNat < 2 ^ 32 →
    s.mem.read (s.base.toNat + s.cCur.toNat) = some v →
    ∃ t, step s = .next t ∧ t.rdata = s.rdata ++ [v] ∧ SameRing s t ∧
      t.cCur.toNat = (s.cCur.toNat + 1) % s.N.toNat ∧ t.cRem.toNat = s.cRem.toNat - 1 ∧
      t.cMode = (if s.cRem = 1 then .idle else .peek) ∧ (∀ a, t.mem.read a = s.mem.read a) ∧
      t.bus = s.bus ++ [.read (s.base.toNat + s.cCur.toNat)] ∧ SameProducer s t ∧ SameCrc s t ∧
      Unanswered { s with script := rest, turn := .c } t

/-- R122, R60: whatever beats of the other ports fall inside a `READ` burst, it delivers exactly the bytes
it announced, one for each beat of port C, and ends. -/
def Obligations.ReadBurstDeliversWhatItAnnounced : Prop :=
  ∀ (s t : State) (evs rest : List Event), BlockInv s → s.cMode = .read → s.script = evs ++ rest →
    evs.all (fun e => !isHardwareReset e) = true → evs.countP (isBeatOf .c) = s.cRem.toNat →
    run evs.length s = .next t →
    t.rdata.length = s.rdata.length + s.cRem.toNat ∧ t.cMode = .idle

/-- R125: a `PEEK` burst delivers the oldest bytes held at its accept beat, in order, if at most `free()`
producer beats fall inside it. -/
def Obligations.PeekBurstDeliversOldestHeld : Prop :=
  ∀ (s t : State) (evs rest : List Event), BlockInv s → s.cMode = .peek → s.cCur = s.tail →
    s.cRem.toNat ≤ available s → s.script = evs ++ rest →
    evs.all (fun e => !isHardwareReset e) = true → evs.countP (isBeatOf .c) = s.cRem.toNat →
    evs.countP (isBeatOf .p) ≤ free s → run evs.length s = .next t →
    t.rdata = s.rdata ++ (held s).take s.cRem.toNat ∧ t.cMode = .idle

/-! Status operations. -/

/-- R141, R140: `AVAILABLE` answers `N` if `full`, else `(head - tail) mod N` over the integers, and writes nothing. -/
def Obligations.AvailableAnswersCountHeld : Prop :=
  ∀ s : State, s.turn ∈ [Port.h, Port.p, Port.c] → portBusy s s.turn = false → s.N ≠ 0 →
    ∃ (t : State) (v : Word), exec .available s = .next t ∧ Answered s t .ok v ∧
      (s.full = true → v = s.N) ∧
      (s.full = false → (v.toNat : Int) = ((s.head.toNat : Int) - s.tail.toNat) % s.N.toNat) ∧
      SameRing s t ∧ SameProducer s t ∧ SameConsumer s t ∧ SameCrc s t ∧ SameStorage s t ∧
      t.rdata = s.rdata

/-- R142: `FREE` answers `N - available()` and writes nothing. -/
def Obligations.FreeAnswersRoomLeft : Prop :=
  ∀ s : State, s.turn ∈ [Port.h, Port.p, Port.c] → portBusy s s.turn = false → s.N ≠ 0 →
    ∃ (t : State) (v : Word), exec .free s = .next t ∧ Answered s t .ok v ∧
      (s.full = true → v = 0) ∧
      (s.full = false →
        (v.toNat : Int) = s.N.toNat - ((s.head.toNat : Int) - s.tail.toNat) % s.N.toNat) ∧
      SameRing s t ∧ SameProducer s t ∧ SameConsumer s t ∧ SameCrc s t ∧ SameStorage s t ∧
      t.rdata = s.rdata

/-- R143: `IS_EMPTY` answers 1 exactly when `full = 0` and `head = tail`, else 0, and writes nothing. -/
def Obligations.IsEmptyAnswersTruth : Prop :=
  ∀ s : State, s.turn ∈ [Port.h, Port.p, Port.c] → portBusy s s.turn = false → s.N ≠ 0 →
    ∃ t : State, exec .isEmpty s = .next t ∧
      Answered s t .ok (if s.full = false ∧ s.head = s.tail then 1 else 0) ∧
      SameRing s t ∧ SameProducer s t ∧ SameConsumer s t ∧ SameCrc s t ∧ SameStorage s t ∧
      t.rdata = s.rdata

/-- R144: `IS_FULL` answers `full` and writes nothing. -/
def Obligations.IsFullAnswersFlag : Prop :=
  ∀ s : State, s.turn ∈ [Port.h, Port.p, Port.c] → portBusy s s.turn = false → s.N ≠ 0 →
    ∃ t : State, exec .isFull s = .next t ∧ Answered s t .ok (if s.full = true then 1 else 0) ∧
      SameRing s t ∧ SameProducer s t ∧ SameConsumer s t ∧ SameCrc s t ∧ SameStorage s t ∧
      t.rdata = s.rdata

/-- R145: what the four status operations answer in one state of a bound block is consistent. -/
def Obligations.StatusValuesAreConsistent : Prop :=
  ∀ (s ta tf te tu : State) (va vf ve vu : Word), BlockInv s → s.N ≠ 0 →
    exec .available s = .next ta → Answered s ta .ok va →
    exec .free s = .next tf → Answered s tf .ok vf →
    exec .isEmpty s = .next te → Answered s te .ok ve →
    exec .isFull s = .next tu → Answered s tu .ok vu →
    va.toNat + vf.toNat = s.N.toNat ∧ (ve = 1 ↔ va = 0) ∧ (vu = 1 ↔ va = s.N) ∧ ¬(ve = 1 ∧ vu = 1)

/-! The CRC unit. -/

/-- R150: `CRC_CLEAR` loads `CRC_SEED`. -/
def Obligations.CrcClearLoadsSeed : Prop :=
  ∀ s : State, s.turn = .k →
    ∃ t, exec .crcClear s = .next t ∧ t.crc = s.params.crcSeed ∧ t.params = s.params ∧
      t.draws = s.draws ∧ SameRing s t ∧ SameProducer s t ∧ SameConsumer s t ∧ SameStorage s t ∧
      t.rdata = s.rdata ∧ Answered s t .ok 0

/-- R151: `CRC_BYTE` xors the byte into the low end and takes eight steps: right by one, and xor of 0xA001
when the bit that left was 1. -/
def Obligations.CrcByteTakesEightSteps : Prop :=
  ∀ (s : State) (b : Byte), s.turn = .k →
    ∃ t, exec (.crcByte b) s = .next t ∧
      t.crc = Nat.repeat
        (fun c : BitVec 16 => if c &&& 1 = 1 then (c >>> 1) ^^^ 0xA001 else c >>> 1) 8
        (s.crc ^^^ b.setWidth 16) ∧
      t.params = s.params ∧ t.draws = s.draws ∧ SameRing s t ∧ SameProducer s t ∧ SameConsumer s t ∧
      SameStorage s t ∧ t.rdata = s.rdata ∧ Answered s t .ok 0

/-- R152: `CRC_GET` answers `zext_AW(crc xor CRC_XOROUT)` and leaves `crc`. -/
def Obligations.CrcGetAnswersChecksum : Prop :=
  ∀ s : State, s.turn = .k →
    ∃ (t : State) (v : Word), exec .crcGet s = .next t ∧ Answered s t .ok v ∧
      v.extractLsb' 0 16 = s.crc ^^^ s.params.crcXorOut ∧ v.extractLsb' 16 16 = 0 ∧
      SameRing s t ∧ SameProducer s t ∧ SameConsumer s t ∧ SameCrc s t ∧ SameStorage s t ∧
      t.rdata = s.rdata

/-- R151: the accumulator may be computed by a table of 256 entries, indexed by `(crc xor b)[7:0]`. -/
def Obligations.CrcByteAgreesWithTable : Prop :=
  ∀ (c : Crc) (b : Byte),
    crcUpdate c b = (c >>> 8) ^^^ crcUpdate 0 ((c ^^^ b.setWidth 16).extractLsb' 0 8)

/-- R155: with `CRC_XOROUT = 0`, once the bytes of a frame and its last two bytes are fed in, `crc` is 0
exactly when those two are the checksum of the others, for every seed, so a client may check a frame by
testing `CRC_GET = 0`. -/
def Obligations.ResidueIsZeroForCorrectFramesOnly : Prop :=
  ∀ (s : State) (bs : List Byte) (lo hi : Byte), s.params.crcXorOut = 0 →
    s.crc = (bs ++ [lo, hi]).foldl crcUpdate s.params.crcSeed →
    (s.crc = 0 ↔ bs ++ [lo, hi] = appendCrc s.params bs) ∧ (crcValue s = 0 ↔ s.crc = 0)

/-- R153, R154: a frame sealed with its checksum passes the check when it is long enough, and the same
frame with another pair of trailing bytes does not. -/
def Obligations.FrameCheckAcceptsOnlySealedFrames : Prop :=
  ∀ (ps : Config.Params) (bs : List Byte) (lo hi : Byte),
    framePasses ps (bs ++ [lo, hi]) = true ↔
      2 ≤ bs.length ∧ lo = (checksum ps bs).extractLsb' 0 8 ∧ hi = (checksum ps bs).extractLsb' 8 8

/-- The opening of 44_crc_ops.md: a beat of port K commutes with a beat of any other port; only the order
of the two responses, and whose turn was last, can differ. -/
def Obligations.CrcBeatsCommuteWithOtherPorts : Prop :=
  ∀ (s t u : State) (x : Port) (a b : Byte) (rest : List Event), x ≠ .k →
    run 2 { s with script := .beat .k a :: .beat x b :: rest } = .next t →
    run 2 { s with script := .beat x b :: .beat .k a :: rest } = .next u →
    t = { u with replies := t.replies, turn := t.turn } ∧ t.replies.Perm u.replies

/-! Reset. -/

/-- R190: the state after hardware reset is unbound, empty and idle. `crc`, which R190 leaves open, is not
spoken of. -/
def Obligations.ResetStateIsUnboundAndIdle : Prop :=
  State.reset.base = 0 ∧ State.reset.N = 0 ∧ State.reset.head = 0 ∧ State.reset.tail = 0 ∧
  State.reset.full = false ∧ State.reset.pBusy = false ∧ State.reset.pRem = 0 ∧
  State.reset.cMode = .idle ∧ State.reset.cRem = 0 ∧ State.reset.cCur = 0

/-- R190, R191: the hardware reset event, in any state, unbinds the block, ends the bursts, drops the
commands whose first beat was not taken with no response, and leaves storage. That R191's sentence drops
the commands on P, C and K as well as on H is the model's reading (log 12). `crc` is not spoken of (log 2). -/
def Obligations.HardwareResetAbortsAndUnbinds : Prop :=
  ∀ (s : State) (rest : List Event), s.script = .hardwareReset :: rest →
    ∃ t, step s = .next t ∧ t.base = 0 ∧ t.N = 0 ∧ t.head = 0 ∧ t.tail = 0 ∧ t.full = false ∧
      t.pBusy = false ∧ t.pRem = 0 ∧ t.cMode = .idle ∧ t.cRem = 0 ∧ t.cCur = 0 ∧
      (∀ x, t.slot x = none) ∧ t.replies = s.replies ∧ t.rdata = s.rdata ∧ SameStorage s t ∧
      t.params = s.params ∧ t.script = rest

/-! Invariants of the whole machine. -/

/-- The invariant holds right after reset. -/
def Obligations.InvHoldsAtReset : Prop := BlockInv State.reset

/-- Every step keeps the invariant: I1, I2, I7, I8 of R28, the sequencers of R31 and R32, the region of
R52 (c), the canonical form of storage, and that every byte held or to be peeked has been written. -/
def Obligations.StepKeepsInv : Prop :=
  ∀ s t : State, BlockInv s → step s = .next t → BlockInv t

/-- R58, R122, R160: in a state that meets the invariant no step faults: no rule reads a byte that was
never written, a `READ` burst never underflows, nothing is reduced modulo 0 and no address runs past the top. -/
def Obligations.NoStepFaults : Prop :=
  ∀ (s : State) (f : Fault), BlockInv s → step s ≠ .fault f

/-- R28: I1 to I8 hold after every step that leaves the block bound. -/
def Obligations.RingInvariantsHold : Prop :=
  ∀ s t : State, BlockInv s → step s = .next t → t.N ≠ 0 →
    (t.head.toNat < t.N.toNat ∧ t.tail.toNat < t.N.toNat) ∧
    (t.full = true → t.head = t.tail) ∧
    available t + free t = t.N.toNat ∧
    available t ≤ t.N.toNat ∧
    (t.full = true ↔ available t = t.N.toNat) ∧
    ((t.full = false ∧ t.head = t.tail) ↔ available t = 0) ∧
    ((held t).length = available t ∧ ∀ i < available t,
      (held t)[i]? = t.mem.read (t.base.toNat + (t.tail.toNat + i) % t.N.toNat)) ∧
    (t.cMode = .read → t.cRem.toNat ≤ available t)

/-- R51: the block touches only the bound region `[base, base + N)`. -/
def Obligations.AccessesStayInBoundRegion : Prop :=
  ∀ s t : State, BlockInv s → step s = .next t → ∀ acc ∈ accesses s t,
    s.base.toNat ≤ accessAddr acc ∧ accessAddr acc < s.base.toNat + s.N.toNat

/-- R54, R164: a step makes at most one access, of one byte. A store is what changes storage; a load is
what delivers a byte, unchanged. -/
def Obligations.OneByteAccessPerStep : Prop :=
  ∀ s t : State, step s = .next t → t.bus = s.bus ++ accesses s t ∧
    ((accesses s t = [] ∧ t.mem = s.mem ∧ t.rdata = s.rdata) ∨
     (∃ a v, accesses s t = [.write a v] ∧ t.mem = s.mem.write a v ∧ t.rdata = s.rdata) ∨
     (∃ a v, accesses s t = [.read a] ∧ s.mem.read a = some v ∧ t.mem = s.mem ∧
       t.rdata = s.rdata ++ [v]))

/-- R110, R120, R124: the ring is a bounded queue that overwrites. A step empties it (hardware reset or a
control operation), or leaves it, or appends the byte it stores, discarding the oldest when full, or
removes the oldest and delivers it. -/
def Obligations.RingRefinesOverwritingQueue : Prop :=
  ∀ s t : State, BlockInv s → step s = .next t →
    (held t = [] ∧ produced s t = [] ∧ removed s t = [] ∧
      (s.script.head? = some .hardwareReset ∨
        ∃ wdata w i, s.script.head? = some (.beat .h wdata) ∧ s.hCmd = some w ∧ decode w = .ok i ∧
          i.control = true)) ∨
    (held t = held s ∧ produced s t = [] ∧ removed s t = []) ∨
    (∃ b, held t = overwriteAppend s.N.toNat (held s) b ∧ produced s t = [b] ∧ removed s t = []) ∨
    (∃ v, held s = v :: held t ∧ produced s t = [] ∧ removed s t = [v])

/-- R57 (a), (b): along every run, under every interleaving, what is read out of the ring and what it still
holds is, in order and without repetition, part of what it held and was given: no byte is delivered
twice, out of order, or after it was overwritten. -/
def Obligations.DeliveredInProductionOrderAtMostOnce : Prop :=
  ∀ (k : Nat) (s t : State) (p r : List Byte), BlockInv s → history k s = some (p, r, t) →
    (r ++ held t).Sublist (held s ++ p)

/-- R114: bytes written to an empty ring with no pop between are all held, in order, up to the capacity;
beyond it exactly the last `N` of them are. -/
def Obligations.OverrunKeepsLastBytes : Prop :=
  ∀ (s : State) (bs : List Byte) (rest : List Event), BlockInv s → s.N ≠ 0 → available s = 0 →
    s.pBusy = true → bs.length ≤ s.pRem.toNat →
    s.script = bs.map (fun b => .beat .p b) ++ rest →
    ∃ t : State, run bs.length s = .next t ∧ available t = min bs.length s.N.toNat ∧
      held t = bs.drop (bs.length - s.N.toNat)

/-- R127 (a), (b): bytes written to an empty ring, no more than its capacity, are returned by the next
`READ` unchanged and in write order. -/
def Obligations.WriteThenReadRoundTrip : Prop :=
  ∀ (s : State) (bs : List Byte) (w : CommandWord) (len : Word) (wdata : Byte) (rest : List Event),
    BlockInv s → s.N ≠ 0 → available s = 0 → s.pBusy = true → s.pRem.toNat = bs.length →
    bs.length ≤ s.N.toNat → s.cMode = .idle → s.cCmd = some w → decode w = .ok (.read len) →
    bs.length ≤ len.toNat →
    s.script = bs.map (fun b => .beat .p b) ++ (List.replicate (bs.length + 1) (.beat .c wdata) ++ rest) →
    ∃ t : State, run (bs.length + (bs.length + 1)) s = .next t ∧
      t.rdata = s.rdata ++ bs ∧ available t = 0 ∧ t.pBusy = false ∧ t.cMode = .idle

/-- R163, R211: where a burst is in flight or a command stands on a port some port has a beat enabled now,
and in every state that has not ended some port has one that is enabled or waits only for its agent to
present the command, so the block has no deadlock. Where the run has ended no beat is enabled. With finite
command lists a run ends: after `work s` fair rounds with nothing more presented it has. An enabled beat
answers a command or counts a byte of a burst, or is the `INIT` the model refuses (log 5). That a beat may
be given where none is enabled, and then changes nothing but the turn, is the model's choice (log 9):
R163 has no such beat. -/
def Obligations.NoDeadlockAndDisabledBeatsWait : Prop :=
  ∀ s : State, BlockInv s →
    ((burstInFlight s = true ∨ ∃ x w, s.slot x = some w) → ∃ x, enabled x s = true) ∧
    (¬Ended s → ∃ x, live x s = true) ∧
    (Ended s → ∀ x, enabled x s = false) ∧
    (∀ (evs : List Event) (rounds : List (List Event)) (t : State), s.script = evs ++ rounds.flatten →
      (∀ r ∈ rounds, FairRound r) → work s ≤ rounds.length → run s.script.length s = .next t → Ended t) ∧
    (∀ x wdata rest, s.script = .beat x wdata :: rest → enabled x s = true →
      step s = .refused .regionPastTop ∨
      ∃ t, step s = .next t ∧
        (t.replies.length = s.replies.length + 1 ∨ t.pRem.toNat + 1 = s.pRem.toNat ∨
          t.cRem.toNat + 1 = s.cRem.toNat)) ∧
    (∀ x wdata rest, s.script = .beat x wdata :: rest → enabled x s = false →
      step s = .next { s with script := rest, turn := x })
end

