-- ==== Sys2Proof/Laws/Memory.lean ====
section
/-! SUPPORT. The laws of storage: a read gives the byte last written there, a write leaves every other byte alone and keeps the canonical form. -/

namespace Sys2Proof.Machine

theorem Memory.read_write_same (m : Memory) (a : Nat) (v : Byte) :
    Memory.read (m.write a v) a = some v := by
  induction m with
  | nil => simp [Memory.write, Memory.read]
  | cons c m ih =>
    obtain ⟨k, u⟩ := c
    simp only [Memory.write]
    split
    · simp [Memory.read]
    · split
      · simp [Memory.read]
      · next h1 h2 => simp [Memory.read, Ne.symm h2, ih]

theorem Memory.read_write_other (m : Memory) (a b : Nat) (v : Byte) (h : b ≠ a) :
    Memory.read (m.write a v) b = m.read b := by
  induction m with
  | nil => simp [Memory.write, Memory.read, Ne.symm h]
  | cons c m ih =>
    obtain ⟨k, u⟩ := c
    simp only [Memory.write]
    split
    · simp [Memory.read, Ne.symm h]
    · split
      · next h1 h2 => subst h2; simp [Memory.read, Ne.symm h]
      · simp [Memory.read, ih]

theorem Memory.read_write (m : Memory) (a b : Nat) (v : Byte) :
    Memory.read (m.write a v) b = if b = a then some v else m.read b := by
  split
  · next h => subst h; exact m.read_write_same _ v
  · next h => exact m.read_write_other a b v h

/-- A write never unlists a byte. -/
theorem Memory.isSome_read_write (m : Memory) (a b : Nat) (v : Byte)
    (h : (m.read b).isSome) : (Memory.read (m.write a v) b).isSome := by
  rw [Memory.read_write]; split
  · rfl
  · exact h

theorem Memory.mem_write {m : Memory} {a : Nat} {v : Byte} {c : Host.Cell} (h : c ∈ m.write a v) :
    c = (a, v) ∨ c ∈ m := by
  induction m with
  | nil => simpa [Memory.write] using h
  | cons d m ih =>
    obtain ⟨k, u⟩ := d
    simp only [Memory.write] at h
    split at h
    · simpa using h
    · split at h
      · simp only [List.mem_cons] at h ⊢; tauto
      · simp only [List.mem_cons] at h ⊢
        rcases h with h | h
        · tauto
        · rcases ih h with h | h <;> tauto

/-- Every write keeps the canonical form; it is the one operation that changes storage. -/
theorem Memory.wf_write {m : Memory} (h : m.wf) (a : Nat) (ha : a < Config.addressCount) (v : Byte) :
    Memory.wf (m.write a v) := by
  refine ⟨?_, fun c hc => ?_⟩
  · induction m with
    | nil => simp [Memory.write]
    | cons d m ih =>
      obtain ⟨k, u⟩ := d
      obtain ⟨hp, hb⟩ := h
      have hp' := List.pairwise_cons.mp hp
      simp only [Memory.write]
      split
      · next hk =>
        refine List.pairwise_cons.mpr ⟨fun c hc => ?_, hp⟩
        rcases List.mem_cons.mp hc with rfl | hc
        · exact hk
        · exact lt_trans hk (hp'.1 c hc)
      · split
        · next h1 h2 => subst h2; exact List.pairwise_cons.mpr ⟨fun c hc => hp'.1 c hc, hp'.2⟩
        · next h1 h2 =>
          refine List.pairwise_cons.mpr
            ⟨fun c hc => ?_, ih ⟨hp'.2, fun c hc => hb c (List.mem_cons_of_mem _ hc)⟩⟩
          rcases Memory.mem_write hc with rfl | hc
          · simp only; omega
          · exact hp'.1 c hc
  · rcases Memory.mem_write hc with rfl | hc
    · exact ha
    · exact h.2 c hc

theorem reset_memory_wf : State.reset.mem.wf := by decide

end Sys2Proof.Machine
end

