-- ==== Sys2Proof/Laws/State.lean ====
section
/-! SUPPORT. One lemma per field per update of the state, so that no later proof unfolds a record update. -/

namespace Sys2Proof.Machine

/-! A command word put on a port or taken off it. -/

@[simp] theorem State.setSlot_base (s : State) (x : Port) (w : Option CommandWord) : (s.setSlot x w).base = s.base := by cases x <;> rfl
@[simp] theorem State.setSlot_N (s : State) (x : Port) (w : Option CommandWord) : (s.setSlot x w).N = s.N := by cases x <;> rfl
@[simp] theorem State.setSlot_head (s : State) (x : Port) (w : Option CommandWord) : (s.setSlot x w).head = s.head := by cases x <;> rfl
@[simp] theorem State.setSlot_tail (s : State) (x : Port) (w : Option CommandWord) : (s.setSlot x w).tail = s.tail := by cases x <;> rfl
@[simp] theorem State.setSlot_full (s : State) (x : Port) (w : Option CommandWord) : (s.setSlot x w).full = s.full := by cases x <;> rfl
@[simp] theorem State.setSlot_pBusy (s : State) (x : Port) (w : Option CommandWord) : (s.setSlot x w).pBusy = s.pBusy := by cases x <;> rfl
@[simp] theorem State.setSlot_pRem (s : State) (x : Port) (w : Option CommandWord) : (s.setSlot x w).pRem = s.pRem := by cases x <;> rfl
@[simp] theorem State.setSlot_cMode (s : State) (x : Port) (w : Option CommandWord) : (s.setSlot x w).cMode = s.cMode := by cases x <;> rfl
@[simp] theorem State.setSlot_cRem (s : State) (x : Port) (w : Option CommandWord) : (s.setSlot x w).cRem = s.cRem := by cases x <;> rfl
@[simp] theorem State.setSlot_cCur (s : State) (x : Port) (w : Option CommandWord) : (s.setSlot x w).cCur = s.cCur := by cases x <;> rfl
@[simp] theorem State.setSlot_crc (s : State) (x : Port) (w : Option CommandWord) : (s.setSlot x w).crc = s.crc := by cases x <;> rfl
@[simp] theorem State.setSlot_mem (s : State) (x : Port) (w : Option CommandWord) : (s.setSlot x w).mem = s.mem := by cases x <;> rfl
@[simp] theorem State.setSlot_replies (s : State) (x : Port) (w : Option CommandWord) : (s.setSlot x w).replies = s.replies := by cases x <;> rfl
@[simp] theorem State.setSlot_rdata (s : State) (x : Port) (w : Option CommandWord) : (s.setSlot x w).rdata = s.rdata := by cases x <;> rfl
@[simp] theorem State.setSlot_bus (s : State) (x : Port) (w : Option CommandWord) : (s.setSlot x w).bus = s.bus := by cases x <;> rfl
@[simp] theorem State.setSlot_script (s : State) (x : Port) (w : Option CommandWord) : (s.setSlot x w).script = s.script := by cases x <;> rfl
@[simp] theorem State.setSlot_turn (s : State) (x : Port) (w : Option CommandWord) : (s.setSlot x w).turn = s.turn := by cases x <;> rfl
@[simp] theorem State.setSlot_params (s : State) (x : Port) (w : Option CommandWord) : (s.setSlot x w).params = s.params := by cases x <;> rfl
@[simp] theorem State.setSlot_draws (s : State) (x : Port) (w : Option CommandWord) : (s.setSlot x w).draws = s.draws := by cases x <;> rfl

theorem State.slot_setSlot (s : State) (x y : Port) (w : Option CommandWord) :
    (s.setSlot x w).slot y = if y = x then w else s.slot y := by
  cases x <;> cases y <;> rfl

@[simp] theorem State.slot_setSlot_same (s : State) (x : Port) (w : Option CommandWord) :
    (s.setSlot x w).slot x = w := by cases x <;> rfl

theorem State.slot_setSlot_other (s : State) (x y : Port) (w : Option CommandWord) (h : y ≠ x) :
    (s.setSlot x w).slot y = s.slot y := by rw [State.slot_setSlot, if_neg h]

/-! A response. -/

@[simp] theorem respond_base (x : Port) (r : Rsp) (v : Word) (s : State) : (respond x r v s).base = s.base := by cases x <;> rfl
@[simp] theorem respond_N (x : Port) (r : Rsp) (v : Word) (s : State) : (respond x r v s).N = s.N := by cases x <;> rfl
@[simp] theorem respond_head (x : Port) (r : Rsp) (v : Word) (s : State) : (respond x r v s).head = s.head := by cases x <;> rfl
@[simp] theorem respond_tail (x : Port) (r : Rsp) (v : Word) (s : State) : (respond x r v s).tail = s.tail := by cases x <;> rfl
@[simp] theorem respond_full (x : Port) (r : Rsp) (v : Word) (s : State) : (respond x r v s).full = s.full := by cases x <;> rfl
@[simp] theorem respond_pBusy (x : Port) (r : Rsp) (v : Word) (s : State) : (respond x r v s).pBusy = s.pBusy := by cases x <;> rfl
@[simp] theorem respond_pRem (x : Port) (r : Rsp) (v : Word) (s : State) : (respond x r v s).pRem = s.pRem := by cases x <;> rfl
@[simp] theorem respond_cMode (x : Port) (r : Rsp) (v : Word) (s : State) : (respond x r v s).cMode = s.cMode := by cases x <;> rfl
@[simp] theorem respond_cRem (x : Port) (r : Rsp) (v : Word) (s : State) : (respond x r v s).cRem = s.cRem := by cases x <;> rfl
@[simp] theorem respond_cCur (x : Port) (r : Rsp) (v : Word) (s : State) : (respond x r v s).cCur = s.cCur := by cases x <;> rfl
@[simp] theorem respond_crc (x : Port) (r : Rsp) (v : Word) (s : State) : (respond x r v s).crc = s.crc := by cases x <;> rfl
@[simp] theorem respond_mem (x : Port) (r : Rsp) (v : Word) (s : State) : (respond x r v s).mem = s.mem := by cases x <;> rfl
@[simp] theorem respond_rdata (x : Port) (r : Rsp) (v : Word) (s : State) : (respond x r v s).rdata = s.rdata := by cases x <;> rfl
@[simp] theorem respond_bus (x : Port) (r : Rsp) (v : Word) (s : State) : (respond x r v s).bus = s.bus := by cases x <;> rfl
@[simp] theorem respond_script (x : Port) (r : Rsp) (v : Word) (s : State) : (respond x r v s).script = s.script := by cases x <;> rfl
@[simp] theorem respond_turn (x : Port) (r : Rsp) (v : Word) (s : State) : (respond x r v s).turn = s.turn := by cases x <;> rfl
@[simp] theorem respond_params (x : Port) (r : Rsp) (v : Word) (s : State) : (respond x r v s).params = s.params := by cases x <;> rfl
@[simp] theorem respond_draws (x : Port) (r : Rsp) (v : Word) (s : State) : (respond x r v s).draws = s.draws := by cases x <;> rfl

@[simp] theorem respond_replies (x : Port) (r : Rsp) (v : Word) (s : State) :
    (respond x r v s).replies = s.replies ++ [{ port := x, rsp := r, val := v }] := by cases x <;> rfl

@[simp] theorem respond_slot_same (x : Port) (r : Rsp) (v : Word) (s : State) :
    (respond x r v s).slot x = none := by cases x <;> rfl

theorem respond_slot (x y : Port) (r : Rsp) (v : Word) (s : State) :
    (respond x r v s).slot y = if y = x then none else s.slot y := State.slot_setSlot s x y none

theorem respond_slot_other (x y : Port) (r : Rsp) (v : Word) (s : State) (h : y ≠ x) :
    (respond x r v s).slot y = s.slot y := State.slot_setSlot_other s x y none h

@[simp] theorem raise_eq_respond (x : Port) (e : Rsp) (s : State) : raise x e s = respond x e 0 s := rfl

/-! A delivered byte. -/

@[simp] theorem emit_base (b : Byte) (s : State) : (emit b s).base = s.base := rfl
@[simp] theorem emit_N (b : Byte) (s : State) : (emit b s).N = s.N := rfl
@[simp] theorem emit_head (b : Byte) (s : State) : (emit b s).head = s.head := rfl
@[simp] theorem emit_tail (b : Byte) (s : State) : (emit b s).tail = s.tail := rfl
@[simp] theorem emit_full (b : Byte) (s : State) : (emit b s).full = s.full := rfl
@[simp] theorem emit_pBusy (b : Byte) (s : State) : (emit b s).pBusy = s.pBusy := rfl
@[simp] theorem emit_pRem (b : Byte) (s : State) : (emit b s).pRem = s.pRem := rfl
@[simp] theorem emit_cMode (b : Byte) (s : State) : (emit b s).cMode = s.cMode := rfl
@[simp] theorem emit_cRem (b : Byte) (s : State) : (emit b s).cRem = s.cRem := rfl
@[simp] theorem emit_cCur (b : Byte) (s : State) : (emit b s).cCur = s.cCur := rfl
@[simp] theorem emit_crc (b : Byte) (s : State) : (emit b s).crc = s.crc := rfl
@[simp] theorem emit_mem (b : Byte) (s : State) : (emit b s).mem = s.mem := rfl
@[simp] theorem emit_hCmd (b : Byte) (s : State) : (emit b s).hCmd = s.hCmd := rfl
@[simp] theorem emit_pCmd (b : Byte) (s : State) : (emit b s).pCmd = s.pCmd := rfl
@[simp] theorem emit_cCmd (b : Byte) (s : State) : (emit b s).cCmd = s.cCmd := rfl
@[simp] theorem emit_kCmd (b : Byte) (s : State) : (emit b s).kCmd = s.kCmd := rfl
@[simp] theorem emit_replies (b : Byte) (s : State) : (emit b s).replies = s.replies := rfl
@[simp] theorem emit_rdata (b : Byte) (s : State) : (emit b s).rdata = s.rdata ++ [b] := rfl
@[simp] theorem emit_bus (b : Byte) (s : State) : (emit b s).bus = s.bus := rfl
@[simp] theorem emit_script (b : Byte) (s : State) : (emit b s).script = s.script := rfl
@[simp] theorem emit_turn (b : Byte) (s : State) : (emit b s).turn = s.turn := rfl
@[simp] theorem emit_params (b : Byte) (s : State) : (emit b s).params = s.params := rfl
@[simp] theorem emit_draws (b : Byte) (s : State) : (emit b s).draws = s.draws := rfl

/-! The ring emptied, and bound. -/

@[simp] theorem emptied_base (s : State) : (emptied s).base = s.base := rfl
@[simp] theorem emptied_N (s : State) : (emptied s).N = s.N := rfl
@[simp] theorem emptied_head (s : State) : (emptied s).head = 0 := rfl
@[simp] theorem emptied_tail (s : State) : (emptied s).tail = 0 := rfl
@[simp] theorem emptied_full (s : State) : (emptied s).full = false := rfl
@[simp] theorem emptied_pBusy (s : State) : (emptied s).pBusy = s.pBusy := rfl
@[simp] theorem emptied_pRem (s : State) : (emptied s).pRem = s.pRem := rfl
@[simp] theorem emptied_cMode (s : State) : (emptied s).cMode = s.cMode := rfl
@[simp] theorem emptied_cRem (s : State) : (emptied s).cRem = s.cRem := rfl
@[simp] theorem emptied_cCur (s : State) : (emptied s).cCur = s.cCur := rfl
@[simp] theorem emptied_crc (s : State) : (emptied s).crc = s.crc := rfl
@[simp] theorem emptied_mem (s : State) : (emptied s).mem = s.mem := rfl
@[simp] theorem emptied_hCmd (s : State) : (emptied s).hCmd = s.hCmd := rfl
@[simp] theorem emptied_pCmd (s : State) : (emptied s).pCmd = s.pCmd := rfl
@[simp] theorem emptied_cCmd (s : State) : (emptied s).cCmd = s.cCmd := rfl
@[simp] theorem emptied_kCmd (s : State) : (emptied s).kCmd = s.kCmd := rfl
@[simp] theorem emptied_replies (s : State) : (emptied s).replies = s.replies := rfl
@[simp] theorem emptied_rdata (s : State) : (emptied s).rdata = s.rdata := rfl
@[simp] theorem emptied_bus (s : State) : (emptied s).bus = s.bus := rfl
@[simp] theorem emptied_script (s : State) : (emptied s).script = s.script := rfl
@[simp] theorem emptied_turn (s : State) : (emptied s).turn = s.turn := rfl
@[simp] theorem emptied_params (s : State) : (emptied s).params = s.params := rfl
@[simp] theorem emptied_draws (s : State) : (emptied s).draws = s.draws := rfl

@[simp] theorem bindRegion_base (st sz : Word) (s : State) : (bindRegion st sz s).base = st := rfl
@[simp] theorem bindRegion_N (st sz : Word) (s : State) : (bindRegion st sz s).N = sz := rfl
@[simp] theorem bindRegion_head (st sz : Word) (s : State) : (bindRegion st sz s).head = 0 := rfl
@[simp] theorem bindRegion_tail (st sz : Word) (s : State) : (bindRegion st sz s).tail = 0 := rfl
@[simp] theorem bindRegion_full (st sz : Word) (s : State) : (bindRegion st sz s).full = false := rfl
@[simp] theorem bindRegion_pBusy (st sz : Word) (s : State) : (bindRegion st sz s).pBusy = s.pBusy := rfl
@[simp] theorem bindRegion_pRem (st sz : Word) (s : State) : (bindRegion st sz s).pRem = s.pRem := rfl
@[simp] theorem bindRegion_cMode (st sz : Word) (s : State) : (bindRegion st sz s).cMode = s.cMode := rfl
@[simp] theorem bindRegion_cRem (st sz : Word) (s : State) : (bindRegion st sz s).cRem = s.cRem := rfl
@[simp] theorem bindRegion_cCur (st sz : Word) (s : State) : (bindRegion st sz s).cCur = s.cCur := rfl
@[simp] theorem bindRegion_crc (st sz : Word) (s : State) : (bindRegion st sz s).crc = s.crc := rfl
@[simp] theorem bindRegion_mem (st sz : Word) (s : State) : (bindRegion st sz s).mem = s.mem := rfl
@[simp] theorem bindRegion_hCmd (st sz : Word) (s : State) : (bindRegion st sz s).hCmd = s.hCmd := rfl
@[simp] theorem bindRegion_pCmd (st sz : Word) (s : State) : (bindRegion st sz s).pCmd = s.pCmd := rfl
@[simp] theorem bindRegion_cCmd (st sz : Word) (s : State) : (bindRegion st sz s).cCmd = s.cCmd := rfl
@[simp] theorem bindRegion_kCmd (st sz : Word) (s : State) : (bindRegion st sz s).kCmd = s.kCmd := rfl
@[simp] theorem bindRegion_replies (st sz : Word) (s : State) : (bindRegion st sz s).replies = s.replies := rfl
@[simp] theorem bindRegion_rdata (st sz : Word) (s : State) : (bindRegion st sz s).rdata = s.rdata := rfl
@[simp] theorem bindRegion_bus (st sz : Word) (s : State) : (bindRegion st sz s).bus = s.bus := rfl
@[simp] theorem bindRegion_script (st sz : Word) (s : State) : (bindRegion st sz s).script = s.script := rfl
@[simp] theorem bindRegion_turn (st sz : Word) (s : State) : (bindRegion st sz s).turn = s.turn := rfl
@[simp] theorem bindRegion_params (st sz : Word) (s : State) : (bindRegion st sz s).params = s.params := rfl
@[simp] theorem bindRegion_draws (st sz : Word) (s : State) : (bindRegion st sz s).draws = s.draws := rfl

/-! The steps of `push`. -/

@[simp] theorem discardOldest_base (s : State) : (discardOldest s).base = s.base := by unfold discardOldest; split <;> rfl
@[simp] theorem discardOldest_N (s : State) : (discardOldest s).N = s.N := by unfold discardOldest; split <;> rfl
@[simp] theorem discardOldest_head (s : State) : (discardOldest s).head = s.head := by unfold discardOldest; split <;> rfl
@[simp] theorem discardOldest_full (s : State) : (discardOldest s).full = s.full := by unfold discardOldest; split <;> rfl
@[simp] theorem discardOldest_pBusy (s : State) : (discardOldest s).pBusy = s.pBusy := by unfold discardOldest; split <;> rfl
@[simp] theorem discardOldest_pRem (s : State) : (discardOldest s).pRem = s.pRem := by unfold discardOldest; split <;> rfl
@[simp] theorem discardOldest_cMode (s : State) : (discardOldest s).cMode = s.cMode := by unfold discardOldest; split <;> rfl
@[simp] theorem discardOldest_cRem (s : State) : (discardOldest s).cRem = s.cRem := by unfold discardOldest; split <;> rfl
@[simp] theorem discardOldest_cCur (s : State) : (discardOldest s).cCur = s.cCur := by unfold discardOldest; split <;> rfl
@[simp] theorem discardOldest_crc (s : State) : (discardOldest s).crc = s.crc := by unfold discardOldest; split <;> rfl
@[simp] theorem discardOldest_mem (s : State) : (discardOldest s).mem = s.mem := by unfold discardOldest; split <;> rfl
@[simp] theorem discardOldest_hCmd (s : State) : (discardOldest s).hCmd = s.hCmd := by unfold discardOldest; split <;> rfl
@[simp] theorem discardOldest_pCmd (s : State) : (discardOldest s).pCmd = s.pCmd := by unfold discardOldest; split <;> rfl
@[simp] theorem discardOldest_cCmd (s : State) : (discardOldest s).cCmd = s.cCmd := by unfold discardOldest; split <;> rfl
@[simp] theorem discardOldest_kCmd (s : State) : (discardOldest s).kCmd = s.kCmd := by unfold discardOldest; split <;> rfl
@[simp] theorem discardOldest_replies (s : State) : (discardOldest s).replies = s.replies := by unfold discardOldest; split <;> rfl
@[simp] theorem discardOldest_rdata (s : State) : (discardOldest s).rdata = s.rdata := by unfold discardOldest; split <;> rfl
@[simp] theorem discardOldest_bus (s : State) : (discardOldest s).bus = s.bus := by unfold discardOldest; split <;> rfl
@[simp] theorem discardOldest_script (s : State) : (discardOldest s).script = s.script := by unfold discardOldest; split <;> rfl
@[simp] theorem discardOldest_turn (s : State) : (discardOldest s).turn = s.turn := by unfold discardOldest; split <;> rfl
@[simp] theorem discardOldest_params (s : State) : (discardOldest s).params = s.params := by unfold discardOldest; split <;> rfl
@[simp] theorem discardOldest_draws (s : State) : (discardOldest s).draws = s.draws := by unfold discardOldest; split <;> rfl

theorem discardOldest_tail (s : State) :
    (discardOldest s).tail = if s.full then nextIndex s.tail s.N else s.tail := by
  unfold discardOldest; split <;> rfl

@[simp] theorem advanceHead_base (s : State) : (advanceHead s).base = s.base := rfl
@[simp] theorem advanceHead_N (s : State) : (advanceHead s).N = s.N := rfl
@[simp] theorem advanceHead_head (s : State) : (advanceHead s).head = nextIndex s.head s.N := rfl
@[simp] theorem advanceHead_tail (s : State) : (advanceHead s).tail = s.tail := rfl
@[simp] theorem advanceHead_full (s : State) : (advanceHead s).full = fullAfterPush (nextIndex s.head s.N) s.tail := rfl
@[simp] theorem advanceHead_pBusy (s : State) : (advanceHead s).pBusy = s.pBusy := rfl
@[simp] theorem advanceHead_pRem (s : State) : (advanceHead s).pRem = s.pRem := rfl
@[simp] theorem advanceHead_cMode (s : State) : (advanceHead s).cMode = s.cMode := rfl
@[simp] theorem advanceHead_cRem (s : State) : (advanceHead s).cRem = s.cRem := rfl
@[simp] theorem advanceHead_cCur (s : State) : (advanceHead s).cCur = s.cCur := rfl
@[simp] theorem advanceHead_crc (s : State) : (advanceHead s).crc = s.crc := rfl
@[simp] theorem advanceHead_mem (s : State) : (advanceHead s).mem = s.mem := rfl
@[simp] theorem advanceHead_hCmd (s : State) : (advanceHead s).hCmd = s.hCmd := rfl
@[simp] theorem advanceHead_pCmd (s : State) : (advanceHead s).pCmd = s.pCmd := rfl
@[simp] theorem advanceHead_cCmd (s : State) : (advanceHead s).cCmd = s.cCmd := rfl
@[simp] theorem advanceHead_kCmd (s : State) : (advanceHead s).kCmd = s.kCmd := rfl
@[simp] theorem advanceHead_replies (s : State) : (advanceHead s).replies = s.replies := rfl
@[simp] theorem advanceHead_rdata (s : State) : (advanceHead s).rdata = s.rdata := rfl
@[simp] theorem advanceHead_bus (s : State) : (advanceHead s).bus = s.bus := rfl
@[simp] theorem advanceHead_script (s : State) : (advanceHead s).script = s.script := rfl
@[simp] theorem advanceHead_turn (s : State) : (advanceHead s).turn = s.turn := rfl
@[simp] theorem advanceHead_params (s : State) : (advanceHead s).params = s.params := rfl
@[simp] theorem advanceHead_draws (s : State) : (advanceHead s).draws = s.draws := rfl

/-! The sequencers. -/

@[simp] theorem startWrite_base (n : Word) (s : State) : (startWrite n s).base = s.base := by unfold startWrite; split <;> rfl
@[simp] theorem startWrite_N (n : Word) (s : State) : (startWrite n s).N = s.N := by unfold startWrite; split <;> rfl
@[simp] theorem startWrite_head (n : Word) (s : State) : (startWrite n s).head = s.head := by unfold startWrite; split <;> rfl
@[simp] theorem startWrite_tail (n : Word) (s : State) : (startWrite n s).tail = s.tail := by unfold startWrite; split <;> rfl
@[simp] theorem startWrite_full (n : Word) (s : State) : (startWrite n s).full = s.full := by unfold startWrite; split <;> rfl
@[simp] theorem startWrite_cMode (n : Word) (s : State) : (startWrite n s).cMode = s.cMode := by unfold startWrite; split <;> rfl
@[simp] theorem startWrite_cRem (n : Word) (s : State) : (startWrite n s).cRem = s.cRem := by unfold startWrite; split <;> rfl
@[simp] theorem startWrite_cCur (n : Word) (s : State) : (startWrite n s).cCur = s.cCur := by unfold startWrite; split <;> rfl
@[simp] theorem startWrite_crc (n : Word) (s : State) : (startWrite n s).crc = s.crc := by unfold startWrite; split <;> rfl
@[simp] theorem startWrite_mem (n : Word) (s : State) : (startWrite n s).mem = s.mem := by unfold startWrite; split <;> rfl
@[simp] theorem startWrite_hCmd (n : Word) (s : State) : (startWrite n s).hCmd = s.hCmd := by unfold startWrite; split <;> rfl
@[simp] theorem startWrite_pCmd (n : Word) (s : State) : (startWrite n s).pCmd = s.pCmd := by unfold startWrite; split <;> rfl
@[simp] theorem startWrite_cCmd (n : Word) (s : State) : (startWrite n s).cCmd = s.cCmd := by unfold startWrite; split <;> rfl
@[simp] theorem startWrite_kCmd (n : Word) (s : State) : (startWrite n s).kCmd = s.kCmd := by unfold startWrite; split <;> rfl
@[simp] theorem startWrite_replies (n : Word) (s : State) : (startWrite n s).replies = s.replies := by unfold startWrite; split <;> rfl
@[simp] theorem startWrite_rdata (n : Word) (s : State) : (startWrite n s).rdata = s.rdata := by unfold startWrite; split <;> rfl
@[simp] theorem startWrite_bus (n : Word) (s : State) : (startWrite n s).bus = s.bus := by unfold startWrite; split <;> rfl
@[simp] theorem startWrite_script (n : Word) (s : State) : (startWrite n s).script = s.script := by unfold startWrite; split <;> rfl
@[simp] theorem startWrite_turn (n : Word) (s : State) : (startWrite n s).turn = s.turn := by unfold startWrite; split <;> rfl
@[simp] theorem startWrite_params (n : Word) (s : State) : (startWrite n s).params = s.params := by unfold startWrite; split <;> rfl
@[simp] theorem startWrite_draws (n : Word) (s : State) : (startWrite n s).draws = s.draws := by unfold startWrite; split <;> rfl

@[simp] theorem startRead_base (n : Word) (s : State) : (startRead n s).base = s.base := by unfold startRead; split <;> rfl
@[simp] theorem startRead_N (n : Word) (s : State) : (startRead n s).N = s.N := by unfold startRead; split <;> rfl
@[simp] theorem startRead_head (n : Word) (s : State) : (startRead n s).head = s.head := by unfold startRead; split <;> rfl
@[simp] theorem startRead_tail (n : Word) (s : State) : (startRead n s).tail = s.tail := by unfold startRead; split <;> rfl
@[simp] theorem startRead_full (n : Word) (s : State) : (startRead n s).full = s.full := by unfold startRead; split <;> rfl
@[simp] theorem startRead_pBusy (n : Word) (s : State) : (startRead n s).pBusy = s.pBusy := by unfold startRead; split <;> rfl
@[simp] theorem startRead_pRem (n : Word) (s : State) : (startRead n s).pRem = s.pRem := by unfold startRead; split <;> rfl
@[simp] theorem startRead_cCur (n : Word) (s : State) : (startRead n s).cCur = s.cCur := by unfold startRead; split <;> rfl
@[simp] theorem startRead_crc (n : Word) (s : State) : (startRead n s).crc = s.crc := by unfold startRead; split <;> rfl
@[simp] theorem startRead_mem (n : Word) (s : State) : (startRead n s).mem = s.mem := by unfold startRead; split <;> rfl
@[simp] theorem startRead_hCmd (n : Word) (s : State) : (startRead n s).hCmd = s.hCmd := by unfold startRead; split <;> rfl
@[simp] theorem startRead_pCmd (n : Word) (s : State) : (startRead n s).pCmd = s.pCmd := by unfold startRead; split <;> rfl
@[simp] theorem startRead_cCmd (n : Word) (s : State) : (startRead n s).cCmd = s.cCmd := by unfold startRead; split <;> rfl
@[simp] theorem startRead_kCmd (n : Word) (s : State) : (startRead n s).kCmd = s.kCmd := by unfold startRead; split <;> rfl
@[simp] theorem startRead_replies (n : Word) (s : State) : (startRead n s).replies = s.replies := by unfold startRead; split <;> rfl
@[simp] theorem startRead_rdata (n : Word) (s : State) : (startRead n s).rdata = s.rdata := by unfold startRead; split <;> rfl
@[simp] theorem startRead_bus (n : Word) (s : State) : (startRead n s).bus = s.bus := by unfold startRead; split <;> rfl
@[simp] theorem startRead_script (n : Word) (s : State) : (startRead n s).script = s.script := by unfold startRead; split <;> rfl
@[simp] theorem startRead_turn (n : Word) (s : State) : (startRead n s).turn = s.turn := by unfold startRead; split <;> rfl
@[simp] theorem startRead_params (n : Word) (s : State) : (startRead n s).params = s.params := by unfold startRead; split <;> rfl
@[simp] theorem startRead_draws (n : Word) (s : State) : (startRead n s).draws = s.draws := by unfold startRead; split <;> rfl

@[simp] theorem startPeek_base (n : Word) (s : State) : (startPeek n s).base = s.base := by unfold startPeek; split <;> rfl
@[simp] theorem startPeek_N (n : Word) (s : State) : (startPeek n s).N = s.N := by unfold startPeek; split <;> rfl
@[simp] theorem startPeek_head (n : Word) (s : State) : (startPeek n s).head = s.head := by unfold startPeek; split <;> rfl
@[simp] theorem startPeek_tail (n : Word) (s : State) : (startPeek n s).tail = s.tail := by unfold startPeek; split <;> rfl
@[simp] theorem startPeek_full (n : Word) (s : State) : (startPeek n s).full = s.full := by unfold startPeek; split <;> rfl
@[simp] theorem startPeek_pBusy (n : Word) (s : State) : (startPeek n s).pBusy = s.pBusy := by unfold startPeek; split <;> rfl
@[simp] theorem startPeek_pRem (n : Word) (s : State) : (startPeek n s).pRem = s.pRem := by unfold startPeek; split <;> rfl
@[simp] theorem startPeek_crc (n : Word) (s : State) : (startPeek n s).crc = s.crc := by unfold startPeek; split <;> rfl
@[simp] theorem startPeek_mem (n : Word) (s : State) : (startPeek n s).mem = s.mem := by unfold startPeek; split <;> rfl
@[simp] theorem startPeek_hCmd (n : Word) (s : State) : (startPeek n s).hCmd = s.hCmd := by unfold startPeek; split <;> rfl
@[simp] theorem startPeek_pCmd (n : Word) (s : State) : (startPeek n s).pCmd = s.pCmd := by unfold startPeek; split <;> rfl
@[simp] theorem startPeek_cCmd (n : Word) (s : State) : (startPeek n s).cCmd = s.cCmd := by unfold startPeek; split <;> rfl
@[simp] theorem startPeek_kCmd (n : Word) (s : State) : (startPeek n s).kCmd = s.kCmd := by unfold startPeek; split <;> rfl
@[simp] theorem startPeek_replies (n : Word) (s : State) : (startPeek n s).replies = s.replies := by unfold startPeek; split <;> rfl
@[simp] theorem startPeek_rdata (n : Word) (s : State) : (startPeek n s).rdata = s.rdata := by unfold startPeek; split <;> rfl
@[simp] theorem startPeek_bus (n : Word) (s : State) : (startPeek n s).bus = s.bus := by unfold startPeek; split <;> rfl
@[simp] theorem startPeek_script (n : Word) (s : State) : (startPeek n s).script = s.script := by unfold startPeek; split <;> rfl
@[simp] theorem startPeek_turn (n : Word) (s : State) : (startPeek n s).turn = s.turn := by unfold startPeek; split <;> rfl
@[simp] theorem startPeek_params (n : Word) (s : State) : (startPeek n s).params = s.params := by unfold startPeek; split <;> rfl
@[simp] theorem startPeek_draws (n : Word) (s : State) : (startPeek n s).draws = s.draws := by unfold startPeek; split <;> rfl

@[simp] theorem countPayload_base (s : State) : (countPayload s).base = s.base := rfl
@[simp] theorem countPayload_N (s : State) : (countPayload s).N = s.N := rfl
@[simp] theorem countPayload_head (s : State) : (countPayload s).head = s.head := rfl
@[simp] theorem countPayload_tail (s : State) : (countPayload s).tail = s.tail := rfl
@[simp] theorem countPayload_full (s : State) : (countPayload s).full = s.full := rfl
@[simp] theorem countPayload_pBusy (s : State) : (countPayload s).pBusy = (s.pRem - 1 != 0) := rfl
@[simp] theorem countPayload_pRem (s : State) : (countPayload s).pRem = s.pRem - 1 := rfl
@[simp] theorem countPayload_cMode (s : State) : (countPayload s).cMode = s.cMode := rfl
@[simp] theorem countPayload_cRem (s : State) : (countPayload s).cRem = s.cRem := rfl
@[simp] theorem countPayload_cCur (s : State) : (countPayload s).cCur = s.cCur := rfl
@[simp] theorem countPayload_crc (s : State) : (countPayload s).crc = s.crc := rfl
@[simp] theorem countPayload_mem (s : State) : (countPayload s).mem = s.mem := rfl
@[simp] theorem countPayload_hCmd (s : State) : (countPayload s).hCmd = s.hCmd := rfl
@[simp] theorem countPayload_pCmd (s : State) : (countPayload s).pCmd = s.pCmd := rfl
@[simp] theorem countPayload_cCmd (s : State) : (countPayload s).cCmd = s.cCmd := rfl
@[simp] theorem countPayload_kCmd (s : State) : (countPayload s).kCmd = s.kCmd := rfl
@[simp] theorem countPayload_replies (s : State) : (countPayload s).replies = s.replies := rfl
@[simp] theorem countPayload_rdata (s : State) : (countPayload s).rdata = s.rdata := rfl
@[simp] theorem countPayload_bus (s : State) : (countPayload s).bus = s.bus := rfl
@[simp] theorem countPayload_script (s : State) : (countPayload s).script = s.script := rfl
@[simp] theorem countPayload_turn (s : State) : (countPayload s).turn = s.turn := rfl
@[simp] theorem countPayload_params (s : State) : (countPayload s).params = s.params := rfl
@[simp] theorem countPayload_draws (s : State) : (countPayload s).draws = s.draws := rfl

@[simp] theorem countDelivered_base (s : State) : (countDelivered s).base = s.base := rfl
@[simp] theorem countDelivered_N (s : State) : (countDelivered s).N = s.N := rfl
@[simp] theorem countDelivered_head (s : State) : (countDelivered s).head = s.head := rfl
@[simp] theorem countDelivered_tail (s : State) : (countDelivered s).tail = s.tail := rfl
@[simp] theorem countDelivered_full (s : State) : (countDelivered s).full = s.full := rfl
@[simp] theorem countDelivered_pBusy (s : State) : (countDelivered s).pBusy = s.pBusy := rfl
@[simp] theorem countDelivered_pRem (s : State) : (countDelivered s).pRem = s.pRem := rfl
@[simp] theorem countDelivered_cMode (s : State) : (countDelivered s).cMode = if s.cRem - 1 = 0 then .idle else s.cMode := rfl
@[simp] theorem countDelivered_cRem (s : State) : (countDelivered s).cRem = s.cRem - 1 := rfl
@[simp] theorem countDelivered_cCur (s : State) : (countDelivered s).cCur = s.cCur := rfl
@[simp] theorem countDelivered_crc (s : State) : (countDelivered s).crc = s.crc := rfl
@[simp] theorem countDelivered_mem (s : State) : (countDelivered s).mem = s.mem := rfl
@[simp] theorem countDelivered_hCmd (s : State) : (countDelivered s).hCmd = s.hCmd := rfl
@[simp] theorem countDelivered_pCmd (s : State) : (countDelivered s).pCmd = s.pCmd := rfl
@[simp] theorem countDelivered_cCmd (s : State) : (countDelivered s).cCmd = s.cCmd := rfl
@[simp] theorem countDelivered_kCmd (s : State) : (countDelivered s).kCmd = s.kCmd := rfl
@[simp] theorem countDelivered_replies (s : State) : (countDelivered s).replies = s.replies := rfl
@[simp] theorem countDelivered_rdata (s : State) : (countDelivered s).rdata = s.rdata := rfl
@[simp] theorem countDelivered_bus (s : State) : (countDelivered s).bus = s.bus := rfl
@[simp] theorem countDelivered_script (s : State) : (countDelivered s).script = s.script := rfl
@[simp] theorem countDelivered_turn (s : State) : (countDelivered s).turn = s.turn := rfl
@[simp] theorem countDelivered_params (s : State) : (countDelivered s).params = s.params := rfl
@[simp] theorem countDelivered_draws (s : State) : (countDelivered s).draws = s.draws := rfl

/-! Hardware reset. -/

@[simp] theorem hardwareReset_base (s : State) : (hardwareReset s).base = 0 := rfl
@[simp] theorem hardwareReset_N (s : State) : (hardwareReset s).N = 0 := rfl
@[simp] theorem hardwareReset_head (s : State) : (hardwareReset s).head = 0 := rfl
@[simp] theorem hardwareReset_tail (s : State) : (hardwareReset s).tail = 0 := rfl
@[simp] theorem hardwareReset_full (s : State) : (hardwareReset s).full = false := rfl
@[simp] theorem hardwareReset_pBusy (s : State) : (hardwareReset s).pBusy = false := rfl
@[simp] theorem hardwareReset_pRem (s : State) : (hardwareReset s).pRem = 0 := rfl
@[simp] theorem hardwareReset_cMode (s : State) : (hardwareReset s).cMode = .idle := rfl
@[simp] theorem hardwareReset_cRem (s : State) : (hardwareReset s).cRem = 0 := rfl
@[simp] theorem hardwareReset_cCur (s : State) : (hardwareReset s).cCur = 0 := rfl
@[simp] theorem hardwareReset_crc (s : State) : (hardwareReset s).crc = Config.freeCrc s.draws := rfl
@[simp] theorem hardwareReset_mem (s : State) : (hardwareReset s).mem = s.mem := rfl
@[simp] theorem hardwareReset_hCmd (s : State) : (hardwareReset s).hCmd = none := rfl
@[simp] theorem hardwareReset_pCmd (s : State) : (hardwareReset s).pCmd = none := rfl
@[simp] theorem hardwareReset_cCmd (s : State) : (hardwareReset s).cCmd = none := rfl
@[simp] theorem hardwareReset_kCmd (s : State) : (hardwareReset s).kCmd = none := rfl
@[simp] theorem hardwareReset_replies (s : State) : (hardwareReset s).replies = s.replies := rfl
@[simp] theorem hardwareReset_rdata (s : State) : (hardwareReset s).rdata = s.rdata := rfl
@[simp] theorem hardwareReset_bus (s : State) : (hardwareReset s).bus = s.bus := rfl
@[simp] theorem hardwareReset_script (s : State) : (hardwareReset s).script = s.script := rfl
@[simp] theorem hardwareReset_turn (s : State) : (hardwareReset s).turn = s.turn := rfl
@[simp] theorem hardwareReset_params (s : State) : (hardwareReset s).params = s.params := rfl
@[simp] theorem hardwareReset_draws (s : State) : (hardwareReset s).draws = s.draws + 1 := rfl

end Sys2Proof.Machine
end

