-- ==== Sys2Proof/Laws/Ring.lean ====
section
/-! SUPPORT. The arithmetic of the ring: indices modulo `N`, `available()` in closed form (spec/00_scope.md R9, spec/43_status_ops.md R140). -/

namespace Sys2Proof.Machine

theorem Word.toNat_ne_zero {n : Word} (h : n ≠ 0) : n.toNat ≠ 0 := by
  intro h0; exact h (BitVec.eq_of_toNat_eq (by simpa using h0))

theorem Word.toNat_pos {n : Word} (h : n ≠ 0) : 0 < n.toNat :=
  Nat.pos_of_ne_zero (Word.toNat_ne_zero h)

theorem Word.toNat_ofNat_of_le {x : Nat} {n : Word} (h : x ≤ n.toNat) :
    (BitVec.ofNat 32 x).toNat = x := by
  rw [BitVec.toNat_ofNat, Nat.mod_eq_of_lt (lt_of_le_of_lt h n.isLt)]

theorem Word.toNat_sub_one {n : Word} (h : n ≠ 0) : (n - 1).toNat = n.toNat - 1 := by
  have h1 := Word.toNat_pos h
  have h2 := n.isLt
  rw [BitVec.toNat_sub]
  simp only [show (1 : Word).toNat = 1 from rfl]
  omega

theorem nextIndex_toNat {x n : Word} (h : n ≠ 0) :
    (nextIndex x n).toNat = (x.toNat + 1) % n.toNat :=
  Word.toNat_ofNat_of_le (n := n) (Nat.mod_lt _ (Word.toNat_pos h)).le

theorem nextIndex_lt {x n : Word} (h : n ≠ 0) : (nextIndex x n).toNat < n.toNat := by
  rw [nextIndex_toNat h]; exact Nat.mod_lt _ (Word.toNat_pos h)

/-- For an index the reduction is "if `x + 1 = N` then 0 else `x + 1`" (R160). -/
theorem nextIndex_cases {x n : Word} (h : x.toNat < n.toNat) :
    (nextIndex x n).toNat = if x.toNat + 1 = n.toNat then 0 else x.toNat + 1 := by
  have hn : n ≠ 0 := by rintro rfl; simp at h
  rw [nextIndex_toNat hn]
  split
  · next e => rw [e, Nat.mod_self]
  · exact Nat.mod_eq_of_lt (by omega)

theorem available_full {s : State} (h : s.full = true) : available s = s.N.toNat := by
  simp [available, h]

theorem available_ordered {s : State} (hf : s.full = false) (ht : s.tail.toNat ≤ s.head.toNat)
    (hh : s.head.toNat < s.N.toNat) : available s = s.head.toNat - s.tail.toNat := by
  simp only [available, hf, Bool.false_eq_true, if_false]
  rw [Int.emod_eq_of_lt (by omega) (by omega)]; omega

theorem available_wrapped {s : State} (hf : s.full = false) (ht : s.head.toNat < s.tail.toNat)
    (hn : s.tail.toNat < s.N.toNat) : available s = s.head.toNat + s.N.toNat - s.tail.toNat := by
  simp only [available, hf, Bool.false_eq_true, if_false]
  rw [← Int.add_emod_right, Int.emod_eq_of_lt (by omega) (by omega)]; omega

/-- `available()` in closed form, for indices that are slots. -/
theorem available_closed {s : State} (hh : s.head.toNat < s.N.toNat) (ht : s.tail.toNat < s.N.toNat) :
    available s =
      if s.full then s.N.toNat
      else if s.tail.toNat ≤ s.head.toNat then s.head.toNat - s.tail.toNat
      else s.head.toNat + s.N.toNat - s.tail.toNat := by
  split
  · next h => exact available_full h
  · next h =>
    split
    · next h' => exact available_ordered (by simpa using h) h' hh
    · next h' => exact available_wrapped (by simpa using h) (by omega) ht

theorem available_le {s : State} (hh : s.head.toNat < s.N.toNat) (ht : s.tail.toNat < s.N.toNat) :
    available s ≤ s.N.toNat := by
  rw [available_closed hh ht]; split
  · exact le_rfl
  · split <;> omega

/-- `available()` reads the ring registers alone. -/
theorem available_congr {s t : State} (hN : t.N = s.N) (hh : t.head = s.head) (ht : t.tail = s.tail)
    (hf : t.full = s.full) : available t = available s := by
  simp only [available, hN, hh, ht, hf]

end Sys2Proof.Machine

namespace Sys2Proof.Safety

open Sys2Proof.Machine

theorem addrAfter_lt {s : State} (h : s.N ≠ 0) (x : Word) (i : Nat) :
    addrAfter s x i < s.base.toNat + s.N.toNat := by
  have := Nat.mod_lt (x.toNat + i) (Word.toNat_pos h)
  simp only [addrAfter]; omega

/-- The address `i` places after the next index is the one `i + 1` places after the index. -/
theorem addrAfter_next {s : State} (h : s.N ≠ 0) (x : Word) (i : Nat) :
    addrAfter s (nextIndex x s.N) i = addrAfter s x (i + 1) := by
  simp only [addrAfter, nextIndex_toNat h, Nat.mod_add_mod]
  rw [show x.toNat + 1 + i = x.toNat + (i + 1) by omega]

theorem addrAfter_zero {s : State} {x : Word} (h : x.toNat < s.N.toNat) :
    addrAfter s x 0 = slotAddr s.base x := by
  simp [addrAfter, slotAddr, Nat.mod_eq_of_lt h]

/-- The bytes held depend on the ring registers and on storage alone. -/
theorem held_congr {s t : State} (hb : t.base = s.base) (hN : t.N = s.N) (hh : t.head = s.head)
    (ht : t.tail = s.tail) (hf : t.full = s.full) (hm : t.mem = s.mem) : held t = held s := by
  simp only [held, addrAfter, available_congr hN hh ht hf, hb, hN, ht, hm]

end Sys2Proof.Safety
end

