-- ==== Sys2Proof/Laws/Ops.lean ====
section
/-! SUPPORT. What each shared operation can do, said once: storage accesses, the first beat of a command, `push`, `pop`. -/

namespace Sys2Proof.Machine

theorem memWrite_ok {a : Nat} {v : Byte} {s : State} (h : a < Config.addressCount) :
    memWrite a v s = .ok { s with mem := s.mem.write a v, bus := s.bus ++ [.write a v] } := by
  rw [memWrite, if_neg (by omega)]

theorem memWrite_inv {a : Nat} {v : Byte} {s t : State} (h : memWrite a v s = .ok t) :
    a < Config.addressCount ∧ t = { s with mem := s.mem.write a v, bus := s.bus ++ [.write a v] } := by
  unfold memWrite at h
  split at h
  · cases h
  · next hn => cases h; exact ⟨by omega, rfl⟩

theorem memRead_ok {a : Nat} {v : Byte} {s : State} (h : a < Config.addressCount)
    (hv : s.mem.read a = some v) : memRead a s = .ok (v, { s with bus := s.bus ++ [.read a] }) := by
  rw [memRead, if_neg (by omega)]; simp [hv]

theorem memRead_inv {a : Nat} {v : Byte} {s t : State} (h : memRead a s = .ok (v, t)) :
    a < Config.addressCount ∧ s.mem.read a = some v ∧ t = { s with bus := s.bus ++ [.read a] } := by
  unfold memRead at h
  split at h
  · cases h
  · next hn =>
    split at h
    · cases h
    · next u hu => cases h; exact ⟨by omega, hu, rfl⟩

/-- The state a `push` leaves, where it is allowed to store. -/
def pushed (b : Byte) (s : State) : State :=
  advanceHead { discardOldest s with
    mem := s.mem.write (slotAddr s.base s.head) b
    bus := s.bus ++ [.write (slotAddr s.base s.head) b] }

theorem push_ok {b : Byte} {s : State} (hN : s.N ≠ 0)
    (ha : slotAddr s.base s.head < Config.addressCount) : push b s = .ok (pushed b s) := by
  rw [push, if_neg hN, memWrite_ok ha]
  simp [pushed]

theorem push_inv {b : Byte} {s t : State} (h : push b s = .ok t) :
    s.N ≠ 0 ∧ slotAddr s.base s.head < Config.addressCount ∧ t = pushed b s := by
  unfold push at h
  split at h
  · cases h
  · next hN =>
    split at h
    · cases h
    · next u hu =>
      obtain ⟨ha, rfl⟩ := memWrite_inv hu
      cases h
      exact ⟨hN, ha, by simp [pushed]⟩

/-- The state a `pop` leaves, where it is allowed to read. -/
def popped (s : State) : State :=
  { s with
    bus := s.bus ++ [.read (slotAddr s.base s.tail)]
    tail := nextIndex s.tail s.N
    full := false }

theorem pop_ok {v : Byte} {s : State} (hN : s.N ≠ 0) (hn : available s ≠ 0)
    (ha : slotAddr s.base s.tail < Config.addressCount)
    (hv : s.mem.read (slotAddr s.base s.tail) = some v) : pop s = .ok (v, popped s) := by
  rw [pop, if_neg hN, if_neg hn, memRead_ok ha hv]; rfl

theorem pop_inv {v : Byte} {s t : State} (h : pop s = .ok (v, t)) :
    s.N ≠ 0 ∧ available s ≠ 0 ∧ slotAddr s.base s.tail < Config.addressCount ∧
      s.mem.read (slotAddr s.base s.tail) = some v ∧ t = popped s := by
  unfold pop at h
  split at h
  · cases h
  · next hN =>
    split at h
    · cases h
    · next hn =>
      split at h
      · cases h
      · next u w hu =>
        obtain ⟨ha, hv, rfl⟩ := memRead_inv hu
        cases h
        exact ⟨hN, hn, ha, hv, rfl⟩

/-- The first beat of a command does one of these: it waits, it raises an error, or it runs. -/
theorem command_cases (i : Instr) (body : State → Result) (s : State) :
    (command i body s = .next s ∧ (portBusy s s.turn = true ∨ (s.turn ∈ i.ports ∧ isHeld i s = true))) ∨
    (command i body s = .next (respond s.turn .errIllegal 0 s) ∧ s.turn ∉ i.ports) ∨
    (command i body s = .next (respond s.turn .errUnbound 0 s) ∧ i.needsBinding = true ∧ s.N = 0) ∨
    (command i body s = body s ∧ portBusy s s.turn = false ∧ s.turn ∈ i.ports ∧ isHeld i s = false ∧
      (i.needsBinding = true → s.N ≠ 0)) := by
  unfold command
  by_cases h1 : portBusy s s.turn = true
  · simp [h1]
  · by_cases h2 : s.turn ∈ i.ports
    · by_cases h3 : isHeld i s = true
      · simp [h1, h2, h3]
      · by_cases h4 : i.needsBinding = true ∧ s.N = 0
        · simp [h1, h2, h3, h4]
        · simp only [not_and] at h4
          right; right; right
          simp only [h1, h2, h3, Bool.false_eq_true, if_false, List.contains_eq_mem, decide_true,
            Bool.not_true]
          refine ⟨?_, by simp, trivial, trivial, h4⟩
          by_cases h5 : i.needsBinding = true
          · have h6 := h4 h5
            simp only [beq_eq_false_iff_ne.mpr h6, Bool.and_false, Bool.false_eq_true, if_false]
          · simp [h5]
    · simp [h1, h2]

/-- Where no test turns the command away, its own rule runs. -/
theorem command_runs {i : Instr} {body : State → Result} {s : State} (h1 : portBusy s s.turn = false)
    (h2 : s.turn ∈ i.ports) (h3 : isHeld i s = false) (h4 : i.needsBinding = true → s.N ≠ 0) :
    command i body s = body s := by
  unfold command
  by_cases h5 : i.needsBinding = true
  · have h6 := h4 h5
    simp only [h1, h2, h3, beq_eq_false_iff_ne.mpr h6, List.contains_eq_mem, decide_true, Bool.not_true,
      Bool.and_false, Bool.false_eq_true, if_false]
  · simp [h1, h2, h3, h5]

theorem command_wrong_port {i : Instr} {body : State → Result} {s : State}
    (h1 : portBusy s s.turn = false) (h2 : s.turn ∉ i.ports) :
    command i body s = .next (respond s.turn .errIllegal 0 s) := by
  simp [command, h1, h2]

theorem command_unbound {i : Instr} {body : State → Result} {s : State}
    (h1 : portBusy s s.turn = false) (h2 : s.turn ∈ i.ports) (h3 : isHeld i s = false)
    (h4 : i.needsBinding = true) (h5 : s.N = 0) :
    command i body s = .next (respond s.turn .errUnbound 0 s) := by
  simp [command, h1, h2, h3, h4, h5]

end Sys2Proof.Machine
end

