-- ==== Sys2Proof/Laws/Exec.lean ====
section
/-! SUPPORT. Each operation is one `command`: the tests all first beats share, around the operation's own rule. -/

namespace Sys2Proof.Machine

theorem exec_init (storage size : Word) (s : State) :
    exec (.init storage size) s = command (.init storage size)
      (fun s =>
        if nullRegion storage size then .next (respond s.turn .ok 0 s)
        else if !regionFits storage size then .refused .regionPastTop
        else .next (respond s.turn .ok 0 (bindRegion storage size s))) s := rfl

theorem exec_reset (s : State) :
    exec .reset s = command .reset (fun s => .next (respond s.turn .ok 0 (emptied s))) s := rfl

theorem exec_writeByte (b : Byte) (s : State) :
    exec (.writeByte b) s = command (.writeByte b)
      (fun s =>
        match push b s with
        | .error f => .fault f
        | .ok s' => .next (respond s'.turn .ok 0 s')) s := rfl

theorem exec_write (len : Word) (s : State) :
    exec (.write len) s =
      command (.write len) (fun s => .next (startWrite len (respond s.turn .ok 0 s))) s := rfl

theorem exec_readByte (s : State) :
    exec .readByte s = command .readByte
      (fun s =>
        if available s = 0 then .next (respond s.turn .ok 0 s)
        else
          match pop s with
          | .error f => .fault f
          | .ok (v, s') => .next (emit v (respond s'.turn .ok 1 s'))) s := rfl

theorem exec_read (len : Word) (s : State) :
    exec (.read len) s = command (.read len)
      (fun s => .next (startRead (burstCount len (available s))
        (respond s.turn .ok (burstCount len (available s)) s))) s := rfl

theorem exec_peek (len : Word) (s : State) :
    exec (.peek len) s = command (.peek len)
      (fun s => .next (startPeek (burstCount len (available s))
        (respond s.turn .ok (burstCount len (available s)) s))) s := rfl

theorem exec_available (s : State) :
    exec .available s = command .available
      (fun s => .next (respond s.turn .ok (BitVec.ofNat 32 (available s)) s)) s := rfl

theorem exec_free (s : State) :
    exec .free s = command .free
      (fun s => .next (respond s.turn .ok (BitVec.ofNat 32 (free s)) s)) s := rfl

theorem exec_isEmpty (s : State) :
    exec .isEmpty s = command .isEmpty (fun s => .next (respond s.turn .ok (truth (isEmpty s)) s)) s := rfl

theorem exec_isFull (s : State) :
    exec .isFull s = command .isFull (fun s => .next (respond s.turn .ok (truth (isFull s)) s)) s := rfl

theorem exec_crcClear (s : State) :
    exec .crcClear s = command .crcClear
      (fun s => .next (respond s.turn .ok 0 { s with crc := s.params.crcSeed })) s := rfl

theorem exec_crcByte (b : Byte) (s : State) :
    exec (.crcByte b) s = command (.crcByte b)
      (fun s => .next (respond s.turn .ok 0 { s with crc := crcUpdate s.crc b })) s := rfl

theorem exec_crcGet (s : State) :
    exec .crcGet s = command .crcGet (fun s => .next (respond s.turn .ok (crcValue s) s)) s := rfl

/-- Whatever the operation, its first beat goes through the tests of `command`. -/
theorem exec_eq_command (i : Instr) : ∃ body, ∀ s, exec i s = command i body s := by
  cases i <;> exact ⟨_, fun s => rfl⟩

end Sys2Proof.Machine
end

