-- ==== Sys2Proof/Laws/Effects.lean ====
section
/-! SUPPORT. Everything a first beat and a step can do, said once: the fields a `push` leaves, the inversion of `exec` and of `step`, and runs of several steps. -/

namespace Sys2Proof.Machine

/-! What a `push` leaves, field by field. -/

@[simp] theorem pushed_base (b : Byte) (s : State) : (pushed b s).base = s.base := by simp [pushed]
@[simp] theorem pushed_N (b : Byte) (s : State) : (pushed b s).N = s.N := by simp [pushed]
@[simp] theorem pushed_head (b : Byte) (s : State) : (pushed b s).head = nextIndex s.head s.N := by simp [pushed]
@[simp] theorem pushed_pBusy (b : Byte) (s : State) : (pushed b s).pBusy = s.pBusy := by simp [pushed]
@[simp] theorem pushed_pRem (b : Byte) (s : State) : (pushed b s).pRem = s.pRem := by simp [pushed]
@[simp] theorem pushed_cMode (b : Byte) (s : State) : (pushed b s).cMode = s.cMode := by simp [pushed]
@[simp] theorem pushed_cRem (b : Byte) (s : State) : (pushed b s).cRem = s.cRem := by simp [pushed]
@[simp] theorem pushed_cCur (b : Byte) (s : State) : (pushed b s).cCur = s.cCur := by simp [pushed]
@[simp] theorem pushed_crc (b : Byte) (s : State) : (pushed b s).crc = s.crc := by simp [pushed]
@[simp] theorem pushed_params (b : Byte) (s : State) : (pushed b s).params = s.params := by simp [pushed]
@[simp] theorem pushed_draws (b : Byte) (s : State) : (pushed b s).draws = s.draws := by simp [pushed]
@[simp] theorem pushed_replies (b : Byte) (s : State) : (pushed b s).replies = s.replies := by simp [pushed]
@[simp] theorem pushed_rdata (b : Byte) (s : State) : (pushed b s).rdata = s.rdata := by simp [pushed]
@[simp] theorem pushed_script (b : Byte) (s : State) : (pushed b s).script = s.script := by simp [pushed]
@[simp] theorem pushed_turn (b : Byte) (s : State) : (pushed b s).turn = s.turn := by simp [pushed]
@[simp] theorem pushed_hCmd (b : Byte) (s : State) : (pushed b s).hCmd = s.hCmd := by simp [pushed]
@[simp] theorem pushed_pCmd (b : Byte) (s : State) : (pushed b s).pCmd = s.pCmd := by simp [pushed]
@[simp] theorem pushed_cCmd (b : Byte) (s : State) : (pushed b s).cCmd = s.cCmd := by simp [pushed]
@[simp] theorem pushed_kCmd (b : Byte) (s : State) : (pushed b s).kCmd = s.kCmd := by simp [pushed]
@[simp] theorem pushed_slot (b : Byte) (s : State) (x : Port) : (pushed b s).slot x = s.slot x := by
  cases x <;> simp [State.slot]
@[simp] theorem pushed_mem (b : Byte) (s : State) :
    (pushed b s).mem = s.mem.write (slotAddr s.base s.head) b := by simp [pushed]
@[simp] theorem pushed_bus (b : Byte) (s : State) :
    (pushed b s).bus = s.bus ++ [.write (slotAddr s.base s.head) b] := by simp [pushed]

theorem pushed_tail (b : Byte) (s : State) :
    (pushed b s).tail = if s.full then nextIndex s.tail s.N else s.tail := by
  simp [pushed, discardOldest_tail]

theorem pushed_full (b : Byte) (s : State) :
    (pushed b s).full = ((pushed b s).head == (pushed b s).tail) := by
  simp [pushed, fullAfterPush]

/-- Reading one byte of storage after a `push`. -/
theorem read_pushed (b : Byte) (s : State) (a : Nat) :
    (pushed b s).mem.read a = if a = slotAddr s.base s.head then some b else s.mem.read a := by
  rw [pushed_mem, Memory.read_write]

/-! What the bookkeeping of a beat does to the command slots. -/

theorem slot_startWrite (n : Word) (s : State) (x : Port) : (startWrite n s).slot x = s.slot x := by
  cases x <;> simp [State.slot]

theorem slot_startRead (n : Word) (s : State) (x : Port) : (startRead n s).slot x = s.slot x := by
  cases x <;> simp [State.slot]

theorem slot_startPeek (n : Word) (s : State) (x : Port) : (startPeek n s).slot x = s.slot x := by
  cases x <;> simp [State.slot]

theorem slot_popped (s : State) (x : Port) : (popped s).slot x = s.slot x := by cases x <;> rfl

theorem slot_given_turn (s : State) (rest : List Event) (x y : Port) :
    ({ s with script := rest, turn := x } : State).slot y = s.slot y := by cases y <;> rfl

/-- Everything the first beat of the command `i` can lead to, guards included. -/
inductive Effect (i : Instr) (s : State) : State → Prop
  | wait (h : portBusy s s.turn = true ∨ (s.turn ∈ i.ports ∧ isHeld i s = true)) : Effect i s s
  | illegal (h : s.turn ∉ i.ports) : Effect i s (respond s.turn .errIllegal 0 s)
  | unbound (h : s.turn ∈ i.ports) (hb : i.needsBinding = true) (hN : s.N = 0) :
      Effect i s (respond s.turn .errUnbound 0 s)
  /-- Answered `OK` with nothing else written: a status operation, `CRC_GET`, a null `INIT`, `READ_BYTE`
  of an empty buffer. -/
  | answer (v : Word) (h : s.turn ∈ i.ports) : Effect i s (respond s.turn .ok v s)
  | init (storage size : Word) (hi : i = .init storage size) (ht : s.turn = .h)
      (hb : burstInFlight s = false) (h1 : storage ≠ 0) (h2 : size ≠ 0)
      (h3 : storage.toNat + size.toNat ≤ 2 ^ 32) :
      Effect i s (respond s.turn .ok 0 (bindRegion storage size s))
  | reset (hi : i = .reset) (ht : s.turn = .h) (hb : burstInFlight s = false) (hN : s.N ≠ 0) :
      Effect i s (respond s.turn .ok 0 (emptied s))
  | writeByte (b : Byte) (hi : i = .writeByte b) (ht : s.turn = .p) (hb : s.pBusy = false) (hN : s.N ≠ 0) :
      Effect i s (respond s.turn .ok 0 (pushed b s))
  | write (len : Word) (hi : i = .write len) (ht : s.turn = .p) (hb : s.pBusy = false) (hN : s.N ≠ 0) :
      Effect i s (startWrite len (respond s.turn .ok 0 s))
  | readByte (v : Byte) (hi : i = .readByte) (ht : s.turn = .c) (hb : s.cMode = .idle) (hN : s.N ≠ 0)
      (ha : available s ≠ 0) (hv : s.mem.read (slotAddr s.base s.tail) = some v) :
      Effect i s (emit v (respond s.turn .ok 1 (popped s)))
  | read (len : Word) (hi : i = .read len) (ht : s.turn = .c) (hb : s.cMode = .idle) (hN : s.N ≠ 0) :
      Effect i s (startRead (burstCount len (available s))
        (respond s.turn .ok (burstCount len (available s)) s))
  | peek (len : Word) (hi : i = .peek len) (ht : s.turn = .c) (hb : s.cMode = .idle) (hN : s.N ≠ 0) :
      Effect i s (startPeek (burstCount len (available s))
        (respond s.turn .ok (burstCount len (available s)) s))
  | crc (c : Crc) (hi : i = .crcClear ∨ ∃ b, i = .crcByte b) (ht : s.turn = .k) :
      Effect i s (respond s.turn .ok 0 { s with crc := c })

/-- To know what a first beat did, look at what its own rule does where no test turns it away. -/
theorem command_effect {i : Instr} {body : State → Result} {s t : State} (h : command i body s = .next t)
    (hrun : portBusy s s.turn = false → s.turn ∈ i.ports → isHeld i s = false →
      (i.needsBinding = true → s.N ≠ 0) → body s = .next t → Effect i s t) : Effect i s t := by
  rcases command_cases i body s with ⟨e, h1⟩ | ⟨e, h1⟩ | ⟨e, h1, h2⟩ | ⟨e, h1, h2, h3, h4⟩
  · rw [e] at h; cases h; exact .wait h1
  · rw [e] at h; cases h; exact .illegal h1
  · rw [e] at h; cases h
    by_cases hp : s.turn ∈ i.ports
    · exact .unbound hp h1 h2
    · exfalso
      have nj : ∀ {a b : State}, (Host.Outcome.next a : Result) = .next b → a = b := fun h => by
        cases h; rfl
      by_cases hb : portBusy s s.turn = true
      · simp only [command, hb, if_true] at e
        have := congrArg (fun s => s.replies.length) (nj e); simp at this
      · rw [command_wrong_port (by simpa using hb) hp] at e
        have := congrArg State.replies (nj e); simp at this
  · rw [e] at h; exact hrun h1 h2 h3 h4 h

/-- The inversion of `exec`: whatever it answers as next is one of the effects. -/
theorem exec_effect {i : Instr} {s t : State} (h : exec i s = .next t) : Effect i s t := by
  cases i
  case init storage size =>
    refine command_effect ((exec_init _ _ s).symm.trans h) fun _ h2 h3 _ hb => ?_
    simp only [Instr.ports, List.mem_singleton] at h2
    simp only [isHeld, Instr.control, Bool.true_and] at h3
    split at hb
    · cases hb; exact .answer 0 (by simp [Instr.ports, h2])
    · next hn =>
      split at hb
      · cases hb
      · next hf =>
        cases hb
        simp [nullRegion, Config.nullRef] at hn
        simp [regionFits, Config.addressCount] at hf
        exact .init storage size rfl h2 h3 hn.1 hn.2 hf
  case reset =>
    refine command_effect ((exec_reset s).symm.trans h) fun _ h2 h3 h4 hb => ?_
    simp only [Instr.ports, List.mem_singleton] at h2
    simp only [isHeld, Instr.control, Bool.true_and] at h3
    cases hb; exact .reset rfl h2 h3 (h4 rfl)
  case writeByte b =>
    refine command_effect ((exec_writeByte b s).symm.trans h) fun h1 h2 _ _ hb => ?_
    simp only [Instr.ports, List.mem_singleton] at h2
    split at hb
    · cases hb
    · next s' hs =>
      obtain ⟨hN, -, rfl⟩ := push_inv hs
      cases hb
      rw [pushed_turn]; exact .writeByte b rfl h2 (by simpa [portBusy, h2] using h1) hN
  case write len =>
    refine command_effect ((exec_write len s).symm.trans h) fun h1 h2 _ h4 hb => ?_
    simp only [Instr.ports, List.mem_singleton] at h2
    cases hb; exact .write len rfl h2 (by simpa [portBusy, h2] using h1) (h4 rfl)
  case readByte =>
    refine command_effect ((exec_readByte s).symm.trans h) fun h1 h2 _ _ hb => ?_
    simp only [Instr.ports, List.mem_singleton] at h2
    split at hb
    · cases hb; exact .answer 0 (by simp [Instr.ports, h2])
    · split at hb
      · cases hb
      · next v s' hs =>
        obtain ⟨hN, ha, -, hv, rfl⟩ := pop_inv hs
        cases hb
        exact .readByte v rfl h2 (by simpa [portBusy, h2] using h1) hN ha hv
  case read len =>
    refine command_effect ((exec_read len s).symm.trans h) fun h1 h2 _ h4 hb => ?_
    simp only [Instr.ports, List.mem_singleton] at h2
    cases hb; exact .read len rfl h2 (by simpa [portBusy, h2] using h1) (h4 rfl)
  case peek len =>
    refine command_effect ((exec_peek len s).symm.trans h) fun h1 h2 _ h4 hb => ?_
    simp only [Instr.ports, List.mem_singleton] at h2
    cases hb; exact .peek len rfl h2 (by simpa [portBusy, h2] using h1) (h4 rfl)
  case available =>
    refine command_effect ((exec_available s).symm.trans h) fun _ h2 _ _ hb => ?_
    cases hb; exact .answer _ h2
  case free =>
    refine command_effect ((exec_free s).symm.trans h) fun _ h2 _ _ hb => ?_
    cases hb; exact .answer _ h2
  case isEmpty =>
    refine command_effect ((exec_isEmpty s).symm.trans h) fun _ h2 _ _ hb => ?_
    cases hb; exact .answer _ h2
  case isFull =>
    refine command_effect ((exec_isFull s).symm.trans h) fun _ h2 _ _ hb => ?_
    cases hb; exact .answer _ h2
  case crcGet =>
    refine command_effect ((exec_crcGet s).symm.trans h) fun _ h2 _ _ hb => ?_
    cases hb; exact .answer _ h2
  case crcClear =>
    refine command_effect ((exec_crcClear s).symm.trans h) fun _ h2 _ _ hb => ?_
    simp only [Instr.ports, List.mem_singleton] at h2
    cases hb; exact .crc _ (.inl rfl) h2
  case crcByte b =>
    refine command_effect ((exec_crcByte b s).symm.trans h) fun _ h2 _ _ hb => ?_
    simp only [Instr.ports, List.mem_singleton] at h2
    cases hb; exact .crc _ (.inr ⟨b, rfl⟩) h2

/-- Everything a step can lead to, guards included. -/
inductive StepEffect (s : State) : State → Prop
  | noEvent (hs : s.script = []) : StepEffect s s
  | nothingThere (x : Port) (wdata : Byte) (rest : List Event) (hs : s.script = .beat x wdata :: rest)
      (hw : s.slot x = none) (hb : portBusy s x = false) :
      StepEffect s { s with script := rest, turn := x }
  | present (x : Port) (w : CommandWord) (rest : List Event) (hs : s.script = .present x w :: rest)
      (hw : s.slot x = none) : StepEffect s ({ s with script := rest }.setSlot x (some w))
  | hardwareReset (rest : List Event) (hs : s.script = .hardwareReset :: rest) :
      StepEffect s (hardwareReset { s with script := rest })
  | reserved (x : Port) (wdata : Byte) (rest : List Event) (w : CommandWord) (e : DecodeError)
      (hs : s.script = .beat x wdata :: rest) (hw : s.slot x = some w) (hd : decode w = .error e)
      (hb : portBusy s x = false) :
      StepEffect s (respond x .errIllegal 0 { s with script := rest, turn := x })
  | command (x : Port) (wdata : Byte) (rest : List Event) (w : CommandWord) (i : Instr) (t : State)
      (hs : s.script = .beat x wdata :: rest) (hw : s.slot x = some w) (hd : decode w = .ok i)
      (hb : portBusy s x = false) (he : Effect i { s with script := rest, turn := x } t) : StepEffect s t
  | producerData (b : Byte) (rest : List Event) (hs : s.script = .beat .p b :: rest)
      (hb : s.pBusy = true) (hr : s.pRem ≠ 0) (hN : s.N ≠ 0) :
      StepEffect s (countPayload (pushed b { s with script := rest, turn := .p }))
  | readData (wdata v : Byte) (rest : List Event) (hs : s.script = .beat .c wdata :: rest)
      (hb : s.cMode = .read) (hr : s.cRem ≠ 0) (hN : s.N ≠ 0) (ha : available s ≠ 0)
      (hv : s.mem.read (slotAddr s.base s.tail) = some v) :
      StepEffect s (countDelivered (emit v (popped { s with script := rest, turn := .c })))
  | peekData (wdata v : Byte) (rest : List Event) (hs : s.script = .beat .c wdata :: rest)
      (hb : s.cMode = .peek) (hr : s.cRem ≠ 0) (hN : s.N ≠ 0)
      (hv : s.mem.read (slotAddr s.base s.cCur) = some v) :
      StepEffect s (countDelivered
        { emit v { s with script := rest, turn := .c, bus := s.bus ++ [.read (slotAddr s.base s.cCur)] } with
          cCur := nextIndex s.cCur s.N })

theorem firstBeat_effect {s t : State} {x : Port} {wdata : Byte} {rest : List Event}
    (hs : s.script = .beat x wdata :: rest) (hb : portBusy s x = false)
    (h : firstBeat { s with script := rest, turn := x } = .next t) : StepEffect s t := by
  unfold firstBeat at h
  rw [slot_given_turn] at h
  split at h
  · next hn => cases h; exact .nothingThere x wdata rest hs hn hb
  · next w hw =>
    unfold commandBeat at h
    split at h
    · next e hd => cases h; exact .reserved x wdata rest w _ hs hw hd hb
    · next i hd => exact .command x wdata rest w i t hs hw hd hb (exec_effect h)

/-- The inversion of `step`: whatever it answers as next is one of the effects. -/
theorem step_effect {s t : State} (h : step s = .next t) : StepEffect s t := by
  unfold step at h
  split at h
  · next hs => cases h; exact .noEvent hs
  · next e rest hs =>
    cases e with
    | present x w =>
      simp only [onEvent, present] at h
      split at h
      · next hn =>
        cases h
        have : ({ s with script := rest } : State).slot x = s.slot x := by cases x <;> rfl
        exact .present x w rest hs (by rw [← this]; exact hn)
      · cases h
    | hardwareReset => simp only [onEvent] at h; cases h; exact .hardwareReset rest hs
    | beat x wdata =>
      simp only [onEvent, portBeat] at h
      cases x with
      | h => exact firstBeat_effect hs rfl h
      | k => exact firstBeat_effect hs rfl h
      | p =>
        simp only at h
        split at h
        · next hb =>
          unfold producerDataBeat at h
          split at h
          · cases h
          · next hr =>
            split at h
            · cases h
            · next s' hp =>
              obtain ⟨hN, -, rfl⟩ := push_inv hp
              cases h; exact .producerData wdata rest hs hb hr hN
        · next hb => exact firstBeat_effect hs (by simpa [portBusy] using hb) h
      | c =>
        simp only at h
        split at h
        · next hb => exact firstBeat_effect hs (by simpa [portBusy] using hb) h
        · next hb =>
          unfold consumerDataBeat at h
          split at h
          · next hc => exact absurd hc hb
          · next hc =>
            unfold readDataBeat at h
            split at h
            · cases h
            · next hr =>
              split at h
              · cases h
              · next v s' hp =>
                obtain ⟨hN, ha, -, hv, rfl⟩ := pop_inv hp
                cases h
                exact .readData wdata v rest hs hc hr hN ha hv
          · next hc =>
            unfold peekDataBeat at h
            split at h
            · cases h
            · next hr =>
              split at h
              · cases h
              · next hN =>
                split at h
                · cases h
                · next v s' hp =>
                  obtain ⟨-, hv, rfl⟩ := memRead_inv hp
                  cases h
                  exact .peekData wdata v rest hs hc hr hN hv

end Sys2Proof.Machine

namespace Sys2Proof.Safety

open Sys2Proof.Machine

theorem run_zero_inv {s t : State} (h : run 0 s = .next t) : s = t := by
  cases h; rfl

theorem run_succ_of {k : Nat} {s u : State} (h : step s = .next u) : run (k + 1) s = run k u := by
  simp only [run, h]

theorem run_succ_inv {k : Nat} {s t : State} (h : run (k + 1) s = .next t) :
    ∃ u, step s = .next u ∧ run k u = .next t := by
  simp only [run] at h
  split at h
  · next u hu => exact ⟨u, hu, h⟩
  · cases h
  · cases h

/-- A run is a run followed by a run. -/
theorem run_add_of {a b : Nat} {s u : State} (h : run a s = .next u) : run (a + b) s = run b u := by
  induction a generalizing s with
  | zero => rw [run_zero_inv h, Nat.zero_add]
  | succ a ih =>
    obtain ⟨v, hv, h⟩ := run_succ_inv h
    rw [show a + 1 + b = (a + b) + 1 by omega, run_succ_of hv]; exact ih h

/-- A run of `a + b` steps is a run of `a` and then one of `b`. -/
theorem run_add_inv {a b : Nat} {s t : State} (h : run (a + b) s = .next t) :
    ∃ u, run a s = .next u ∧ run b u = .next t := by
  induction a generalizing s with
  | zero => exact ⟨s, rfl, by rwa [Nat.zero_add] at h⟩
  | succ a ih =>
    rw [show a + 1 + b = (a + b) + 1 by omega] at h
    obtain ⟨v, hv, h⟩ := run_succ_inv h
    obtain ⟨u, hu, h⟩ := ih h
    exact ⟨u, by rw [run_succ_of hv]; exact hu, h⟩

/-- A step takes exactly one event off the script. -/
theorem script_of_step {s t : State} {e : Event} {rest : List Event} (hs : s.script = e :: rest)
    (h : step s = .next t) : t.script = rest := by
  cases step_effect h with
  | noEvent h0 => rw [hs] at h0; cases h0
  | nothingThere _ _ _ h0 => rw [hs] at h0; cases h0; rfl
  | present _ _ _ h0 => rw [hs] at h0; cases h0; simp
  | hardwareReset _ h0 => rw [hs] at h0; cases h0; simp
  | reserved _ _ _ _ _ h0 => rw [hs] at h0; cases h0; simp
  | command _ _ _ _ _ _ h0 _ _ _ he => rw [hs] at h0; cases h0; cases he <;> simp [popped]
  | producerData _ _ h0 => rw [hs] at h0; cases h0; simp
  | readData _ _ _ h0 => rw [hs] at h0; cases h0; simp [popped]
  | peekData _ _ _ h0 => rw [hs] at h0; cases h0; simp

end Sys2Proof.Safety
end

