-- ==== Sys2Proof/Laws/PerInstr.lean ====
section
/-! SUPPORT. What holds of every operation as syntax, one lemma a constructor: its command word carries its opcode, and the opcode says which ports may issue it (spec/30_encoding.md R72, R76, R80). -/

namespace Sys2Proof.Laws

/-- The high byte of an encoded operation is its opcode, whatever its operands. -/
theorem opField_encode (i : Instr) : opField (encode i) = i.opcode := by
  apply BitVec.eq_of_getLsbD_eq
  intro k hk
  have h1 : ¬64 + k < 32 := by omega
  have h2 : ¬64 + k - 32 < 32 := by omega
  have h3 : 64 + k - 32 - 32 = k := by omega
  simp only [opField, encode, BitVec.getLsbD_extractLsb', BitVec.getLsbD_append, hk, h1, h2, h3,
    decide_true, Bool.true_and, if_false]

namespace OpField

/-- The command word carries the operation's opcode; some port may issue it; and the opcode alone says which. -/
def Statement (i : Instr) : Prop :=
  opField (encode i) = i.opcode ∧ i.ports ≠ [] ∧ ∀ j : Instr, j.opcode = i.opcode → j.ports = i.ports

theorem init (storage size : Word) : Statement (.init storage size) :=
  ⟨opField_encode _, List.cons_ne_nil _ _, fun j h => by cases j <;> simp_all [Instr.opcode, Instr.ports]⟩

theorem reset : Statement (.reset) :=
  ⟨opField_encode _, List.cons_ne_nil _ _, fun j h => by cases j <;> simp_all [Instr.opcode, Instr.ports]⟩

theorem writeByte (b : Byte) : Statement (.writeByte b) :=
  ⟨opField_encode _, List.cons_ne_nil _ _, fun j h => by cases j <;> simp_all [Instr.opcode, Instr.ports]⟩

theorem write (len : Word) : Statement (.write len) :=
  ⟨opField_encode _, List.cons_ne_nil _ _, fun j h => by cases j <;> simp_all [Instr.opcode, Instr.ports]⟩

theorem readByte : Statement (.readByte) :=
  ⟨opField_encode _, List.cons_ne_nil _ _, fun j h => by cases j <;> simp_all [Instr.opcode, Instr.ports]⟩

theorem read (len : Word) : Statement (.read len) :=
  ⟨opField_encode _, List.cons_ne_nil _ _, fun j h => by cases j <;> simp_all [Instr.opcode, Instr.ports]⟩

theorem peek (len : Word) : Statement (.peek len) :=
  ⟨opField_encode _, List.cons_ne_nil _ _, fun j h => by cases j <;> simp_all [Instr.opcode, Instr.ports]⟩

theorem available : Statement (.available) :=
  ⟨opField_encode _, List.cons_ne_nil _ _, fun j h => by cases j <;> simp_all [Instr.opcode, Instr.ports]⟩

theorem free : Statement (.free) :=
  ⟨opField_encode _, List.cons_ne_nil _ _, fun j h => by cases j <;> simp_all [Instr.opcode, Instr.ports]⟩

theorem isEmpty : Statement (.isEmpty) :=
  ⟨opField_encode _, List.cons_ne_nil _ _, fun j h => by cases j <;> simp_all [Instr.opcode, Instr.ports]⟩

theorem isFull : Statement (.isFull) :=
  ⟨opField_encode _, List.cons_ne_nil _ _, fun j h => by cases j <;> simp_all [Instr.opcode, Instr.ports]⟩

theorem crcClear : Statement (.crcClear) :=
  ⟨opField_encode _, List.cons_ne_nil _ _, fun j h => by cases j <;> simp_all [Instr.opcode, Instr.ports]⟩

theorem crcByte (b : Byte) : Statement (.crcByte b) :=
  ⟨opField_encode _, List.cons_ne_nil _ _, fun j h => by cases j <;> simp_all [Instr.opcode, Instr.ports]⟩

theorem crcGet : Statement (.crcGet) :=
  ⟨opField_encode _, List.cons_ne_nil _ _, fun j h => by cases j <;> simp_all [Instr.opcode, Instr.ports]⟩

end OpField

end Sys2Proof.Laws
end

