-- ==== Sys2Proof/Laws/Premises.lean ====
section
/-! SUPPORT. What holds of the premises and of the end of a run that Safety names: `RegionPrivate` is a theorem here, `Bound` stays, `CrcSeeded` means a seeded accumulator (spec/70_reset_and_hazards.md R194), and `work` bounds what is left of a run (R211). -/

namespace Sys2Proof.Safety

open Sys2Proof.Machine

/-! What a step does to storage, and `RegionPrivate`. -/

/-- Everything a step can do to storage: nothing, one store, or one load of a byte that it delivers. -/
theorem step_storage {s t : State} (h : step s = .next t) :
    (t.mem = s.mem ∧ t.bus = s.bus) ∨
    (∃ a v, t.mem = s.mem.write a v ∧ t.bus = s.bus ++ [.write a v]) ∨
    (∃ a v, t.mem = s.mem ∧ t.bus = s.bus ++ [.read a] ∧ s.mem.read a = some v ∧ t.rdata = s.rdata ++ [v]) := by
  cases step_effect h with
  | noEvent => exact .inl ⟨rfl, rfl⟩
  | nothingThere => exact .inl ⟨rfl, rfl⟩
  | present => exact .inl (by simp)
  | hardwareReset => exact .inl (by simp)
  | reserved => exact .inl (by simp)
  | command x _ _ _ _ _ _ _ _ _ he =>
    cases he with
    | wait => exact .inl ⟨rfl, rfl⟩
    | writeByte b => exact .inr (.inl ⟨_, b, by simp; rfl, by simp⟩)
    | readByte v _ _ _ _ _ hv => exact .inr (.inr ⟨_, v, by simp [popped], by simp [popped], hv, by simp [popped]⟩)
    | _ => exact .inl (by simp)
  | producerData b => exact .inr (.inl ⟨_, b, by simp; rfl, by simp⟩)
  | readData _ v _ _ _ _ _ _ hv => exact .inr (.inr ⟨_, v, by simp [popped], by simp [popped], hv, by simp [popped]⟩)
  | peekData _ v _ _ _ _ _ hv => exact .inr (.inr ⟨_, v, by simp, by simp, hv, by simp⟩)

/-- `RegionPrivate` (R194) holds of every state the block can be in: the model's storage is plain and the
block's own (log 15). -/
theorem regionPrivate_of_inv {s : State} (hI : BlockInv s) : RegionPrivate s where
  ordinary t a h ha := by
    rcases step_storage h with ⟨-, hb⟩ | ⟨b, v, -, hb⟩ | ⟨b, v, -, hb, hv, hr⟩
    · simp [accesses, hb] at ha
    · simp [accesses, hb] at ha
    · simp only [accesses, hb, List.drop_left, List.mem_singleton, Access.read.injEq] at ha
      simp [delivered, hr, ha, hv]
  untouched t a h := by
    rcases step_storage h with ⟨hm, hb⟩ | ⟨b, v, hm, hb⟩ | ⟨b, v, hm, hb, -, -⟩
    · simp [accesses, hb, hm, afterAccesses]
    · simp [accesses, hb, hm, afterAccesses, Memory.read_write, eq_comm]
    · simp [accesses, hb, hm, afterAccesses]
  fits := by
    by_cases hN : s.N = 0
    · have := hI.unbound hN; simp [hN, this.1]
    · exact (hI.region hN).2

/-! `Bound` (R194): nothing but an `INIT` or hardware reset writes the binding. -/

/-- A first beat that does anything takes its command off its port, and no other port's. -/
theorem effect_slot {i : Instr} {s t : State} (he : Effect i s t) :
    t = s ∨ ∀ y, t.slot y = if y = s.turn then none else s.slot y := by
  cases he with
  | wait => exact .inl rfl
  | write => exact .inr fun y => by rw [slot_startWrite, respond_slot]
  | read => exact .inr fun y => by rw [slot_startRead, respond_slot]
  | peek => exact .inr fun y => by rw [slot_startPeek, respond_slot]
  | writeByte b => exact .inr fun y => by rw [respond_slot, pushed_slot]
  | readByte v => exact .inr fun y => (respond_slot s.turn y .ok 1 (popped s)).trans (by rw [slot_popped])
  | _ => exact .inr fun y => (respond_slot _ y _ _ _).trans (by cases y <;> rfl)

theorem isInit_of_decode {w : CommandWord} {storage size : Word} (h : decode w = .ok (.init storage size)) :
    isInit w = true := by
  have skip : ∀ (c : Prop) [Decidable c] (x y : Except DecodeError Instr),
      (if c then x else y) = .ok (.init storage size) → x ≠ .ok (.init storage size) →
        y = .ok (.init storage size) := fun c _ x y h hx => by
    by_cases hc : c
    · rw [if_pos hc] at h; exact absurd h hx
    · rwa [if_neg hc] at h
  by_cases h1 : opField w = 0x01
  · simp [isInit, h1]
  · unfold decode at h
    rw [if_neg h1] at h
    iterate 13 replace h := skip _ _ _ h (by intro h'; cases h')
    cases h

/-- Nothing but hardware reset, or an `INIT` that stands on port H, writes the binding. -/
theorem step_binding {s t : State} (h : step s = .next t) (hr : s.script.head? ≠ some .hardwareReset)
    (hi : s.hCmd.all (fun w => !isInit w) = true) : t.base = s.base ∧ t.N = s.N := by
  cases step_effect h with
  | hardwareReset rest hs => exact absurd (by rw [hs]; rfl) hr
  | command x wdata rest w i t hs hw hd hb he =>
    cases he with
    | init storage size hd' ht =>
      have ht' : x = .h := ht
      subst hd' ht'
      have hw' : s.hCmd = some w := hw
      simp [hw', isInit_of_decode hd] at hi
    | _ => simp [popped]
  | _ => simp [popped]

/-- What stands on port H after a step stood there before it, or was presented by it. -/
theorem step_hCmd {s t : State} (h : step s = .next t) :
    t.hCmd = none ∨ t.hCmd = s.hCmd ∨ ∃ w rest, s.script = .present .h w :: rest ∧ t.hCmd = some w := by
  cases step_effect h with
  | present x w rest hs =>
    cases x with
    | h => exact .inr (.inr ⟨w, rest, hs, rfl⟩)
    | _ => exact .inr (.inl rfl)
  | reserved x => cases x <;> simp [respond, State.setSlot]
  | hardwareReset => exact .inl (by simp)
  | command x wdata rest w i t hs hw hd hb he =>
    rcases effect_slot he with rfl | h
    · exact .inr (.inl rfl)
    · have h : t.hCmd = if Port.h = x then none else s.hCmd := h .h
      rw [h]; split
      · exact .inl rfl
      · exact .inr (.inl rfl)
  | _ => exact .inr (.inl (by simp [popped]))

/-- `Bound` (R194) stays until a hardware reset, and with it the binding. -/
theorem bound_step {s t : State} (hB : Bound s) (h : step s = .next t)
    (hr : s.script.head? ≠ some .hardwareReset) : Bound t ∧ t.base = s.base ∧ t.N = s.N := by
  obtain ⟨hN, hH, hS⟩ := hB
  obtain ⟨h1, h2⟩ := step_binding h hr hH
  refine ⟨⟨h2 ▸ hN, ?_, ?_⟩, h1, h2⟩
  · rcases step_hCmd h with h3 | h3 | ⟨w, rest, hs, h3⟩
    · simp [h3]
    · rw [h3]; exact hH
    · simp only [hs, List.all_cons, Bool.and_eq_true, beq_self_eq_true, Bool.true_and] at hS
      simp only [h3, Option.all_some]; exact hS.1
  · cases hs : s.script with
    | nil =>
      cases step_effect h with
      | noEvent => exact hS
      | _ => simp_all
    | cons e rest =>
      rw [script_of_step hs h]
      rw [hs, List.all_cons, Bool.and_eq_true] at hS
      exact hS.2

/-! `CrcSeeded` (R194). -/

theorem decode_crcClear {w : CommandWord} (h : opField w = 0x40) : decode w = .ok .crcClear := by
  simp [decode, h]

/-- The beat of a `CRC_CLEAR` seeds the accumulator. -/
theorem seed_of_takesCrcClear {s t : State} (hc : takesCrcClear s = true) (h : step s = .next t) :
    t.crc = t.params.crcSeed := by
  unfold takesCrcClear at hc
  split at hc
  · next wdata rest hs =>
    obtain ⟨w, hw, ho⟩ : ∃ w, s.kCmd = some w ∧ opField w = 0x40 := by
      cases hk : s.kCmd with
      | none => simp [hk] at hc
      | some w => exact ⟨w, rfl, by simpa [hk] using hc⟩
    have hd : decode w = .ok .crcClear := decode_crcClear ho
    have hx : step s = exec .crcClear { s with script := rest, turn := .k } := by
      simp only [step, hs, onEvent, portBeat, firstBeat, State.slot, hw, commandBeat, hd]
    rw [hx, exec_crcClear, command_runs rfl (by simp [Instr.ports]) rfl (by simp [Instr.needsBinding])] at h
    cases h; simp
  · cases hc

/-- Where the CRC unit is seeded, one of the steps seeded the accumulator: it held `CRC_SEED` then, and what
it holds now comes of that value and of the steps since. -/
theorem crcSeeded_inv {k : Nat} {s t : State} (hc : CrcSeeded k s) (h : run k s = .next t) :
    ∃ j u, j ≤ k ∧ run (k - j) s = .next u ∧ u.crc = u.params.crcSeed ∧ run j u = .next t := by
  suffices H : ∀ (k : Nat) (s : State) (b : Bool), seededAfter k s b = true → run k s = .next t →
      b = true ∨ ∃ j u, j ≤ k ∧ run (k - j) s = .next u ∧ u.crc = u.params.crcSeed ∧ run j u = .next t by
    exact (H k s false hc h).resolve_left (by simp)
  intro k
  induction k with
  | zero => intro s b hb _; exact .inl hb
  | succ k ih =>
    intro s b hb h
    obtain ⟨v, hv, h⟩ := run_succ_inv h
    simp only [seededAfter, hv] at hb
    rcases ih v _ hb h with h1 | ⟨j, u, h1, h2, h3, h4⟩
    · rcases Bool.or_eq_true _ _ |>.mp h1 with h1 | h1
      · exact .inr ⟨k, v, by omega, by rw [show k + 1 - k = 0 + 1 by omega, run_succ_of hv]; rfl,
          seed_of_takesCrcClear h1 hv, h⟩
      · exact .inl (by simp only [Bool.and_eq_true] at h1; exact h1.1)
    · exact .inr ⟨j, u, by omega, by rw [show k + 1 - j = (k - j) + 1 by omega, run_succ_of hv]; exact h2, h3, h4⟩

/-! The bound `work` (R211): every presentation and every enabled beat lowers it, nothing raises it. -/

theorem commandWork_pos (w : CommandWord) : 0 < commandWork w := by
  unfold commandWork; split <;> omega

theorem commandWork_ok {w : CommandWord} {i : Instr} (h : decode w = .ok i) :
    commandWork w = 1 + burstBound i := by simp [commandWork, h]

/-- A slot of the ports, filled or emptied. -/
theorem work_setSlot (s : State) (x : Port) (o : Option CommandWord) :
    work (s.setSlot x o) + slotWork (s.slot x) = work s + slotWork o := by
  cases x <;> simp [work, State.slot, State.setSlot] <;> omega

/-- A response takes the work of its command off. -/
theorem work_respond (x : Port) (r : Rsp) (v : Word) (s : State) :
    work (respond x r v s) + slotWork (s.slot x) = work s := work_setSlot s x none

/-- Work reads the script, the ports and the two counts alone. -/
theorem work_congr {s t : State} (hs : t.script = s.script) (hx : ∀ x, t.slot x = s.slot x)
    (hp : t.pRem = s.pRem) (hc : t.cRem = s.cRem) : work t = work s := by
  have h1 : t.hCmd = s.hCmd := hx .h
  have h2 : t.pCmd = s.pCmd := hx .p
  have h3 : t.cCmd = s.cCmd := hx .c
  have h4 : t.kCmd = s.kCmd := hx .k
  simp only [work, hs, h1, h2, h3, h4, hp, hc]

/-- Taking an event off the script takes its work off. -/
theorem work_event {s : State} {e : Event} {rest : List Event} (h : s.script = e :: rest) (x : Port) :
    work s = eventWork e + work { s with script := rest, turn := x } := by
  simp only [work, h, List.map_cons, List.sum_cons]; omega

theorem burstCount_le (len : Word) (n : Nat) : (burstCount len n).toNat ≤ len.toNat := by
  rw [burstCount, Word.toNat_ofNat_of_le (Nat.min_le_left _ _)]; exact Nat.min_le_left _ _

theorem work_startWrite (n : Word) (s : State) : work (startWrite n s) ≤ work s + n.toNat := by
  unfold startWrite; split <;> simp only [work] <;> omega

theorem work_startRead (n : Word) (s : State) : work (startRead n s) ≤ work s + n.toNat := by
  unfold startRead; split <;> simp only [work] <;> omega

theorem work_startPeek (n : Word) (s : State) : work (startPeek n s) ≤ work s + n.toNat := by
  unfold startPeek; split <;> simp only [work] <;> omega

/-- A first beat that does anything answers its command, and a burst it starts is no longer than the work
its command counted. -/
theorem work_effect {i : Instr} {w : CommandWord} {s t : State} (hw : s.slot s.turn = some w)
    (hd : decode w = .ok i) (he : Effect i s t) :
    (t = s ∧ (portBusy s s.turn = true ∨ s.turn ∈ i.ports ∧ isHeld i s = true)) ∨ work t < work s := by
  have hk : slotWork (s.slot s.turn) = 1 + burstBound i := by rw [hw]; exact commandWork_ok hd
  have answered : ∀ r v, work (respond s.turn r v s) + (1 + burstBound i) = work s := fun r v => by
    rw [← hk]; exact work_respond _ _ _ _
  cases he with
  | wait h => exact .inl ⟨rfl, h⟩
  | illegal => right; have := answered .errIllegal 0; omega
  | unbound => right; have := answered .errUnbound 0; omega
  | answer v => right; have := answered .ok v; omega
  | init storage size =>
    right; have := answered .ok 0
    have : work (respond s.turn .ok 0 (bindRegion storage size s)) = work (respond s.turn .ok 0 s) := by
      cases s.turn <;> rfl
    omega
  | reset =>
    right; have := answered .ok 0
    have : work (respond s.turn .ok 0 (emptied s)) = work (respond s.turn .ok 0 s) := by
      cases s.turn <;> rfl
    omega
  | writeByte b =>
    right; have := answered .ok 0
    have : work (respond s.turn .ok 0 (pushed b s)) = work (respond s.turn .ok 0 s) :=
      work_congr (by simp) (fun x => by cases x <;> cases s.turn <;> simp [State.slot, respond, State.setSlot])
        (by simp) (by simp)
    omega
  | write len hi =>
    right; have := answered .ok 0
    subst hi; simp only [burstBound] at this
    have := work_startWrite len (respond s.turn .ok 0 s)
    omega
  | readByte v =>
    right; have := answered .ok 1
    have : work (emit v (respond s.turn .ok 1 (popped s))) = work (respond s.turn .ok 1 s) := by
      cases s.turn <;> rfl
    omega
  | read len hi =>
    right; have := answered .ok (burstCount len (available s))
    have := burstCount_le len (available s)
    subst hi; simp only [burstBound] at *
    have := work_startRead (burstCount len (available s)) (respond s.turn .ok (burstCount len (available s)) s)
    omega
  | peek len hi =>
    right; have := answered .ok (burstCount len (available s))
    have := burstCount_le len (available s)
    subst hi; simp only [burstBound] at *
    have := work_startPeek (burstCount len (available s)) (respond s.turn .ok (burstCount len (available s)) s)
    omega
  | crc c =>
    right; have := answered .ok 0
    have : work (respond s.turn .ok 0 { s with crc := c }) = work (respond s.turn .ok 0 s) := by
      cases s.turn <;> rfl
    omega

/-- A data beat counts one byte of its burst off. -/
theorem work_countPayload {s : State} (h : s.pRem ≠ 0) : work (countPayload s) + 1 = work s := by
  have h1 := Word.toNat_sub_one h
  have h2 := Word.toNat_pos h
  simp only [work, countPayload_pRem, countPayload_script, countPayload_hCmd, countPayload_pCmd,
    countPayload_cCmd, countPayload_kCmd, countPayload_cRem]
  omega

theorem work_countDelivered {s : State} (h : s.cRem ≠ 0) : work (countDelivered s) + 1 = work s := by
  have h1 := Word.toNat_sub_one h
  have h2 := Word.toNat_pos h
  have h3 : work (countDelivered s) = work { s with cRem := s.cRem - 1 } := rfl
  rw [h3]; simp only [work]; omega

/-- Hardware reset drops all the work but what is still to be presented. -/
theorem work_hardwareReset (s : State) : work (hardwareReset s) = (s.script.map eventWork).sum := by
  simp [work, slotWork]

/-- What is enabled depends on the ports and on the bursts in flight alone. -/
theorem enabled_congr {s t : State} (hx : ∀ x, t.slot x = s.slot x) (hp : t.pBusy = s.pBusy)
    (hc : t.cMode = s.cMode) (x : Port) : enabled x t = enabled x s := by
  have hb : portBusy t x = portBusy s x := by cases x <;> simp [portBusy, hp, hc]
  simp only [enabled, commandEnabled, mayTake, isHeld, burstInFlight, hx, hb, hp, hc]

theorem portBusy_work {s : State} {x : Port} (hI : BlockInv s) (h : portBusy s x = true) :
    0 < s.pRem.toNat + s.cRem.toNat := by
  cases x with
  | h => cases h
  | k => cases h
  | p =>
    have : s.pRem ≠ 0 := fun h0 => by simp [portBusy, hI.producer.mpr h0] at h
    have := Word.toNat_pos this; omega
  | c =>
    have : s.cRem ≠ 0 := fun h0 => by simp [portBusy, hI.consumer.mpr h0] at h
    have := Word.toNat_pos this; omega

/-- Where a port has a beat enabled there is work, beside what is still to be presented. -/
theorem enabled_work {s : State} {x : Port} (hI : BlockInv s) (h : enabled x s = true) :
    (s.script.map eventWork).sum < work s := by
  rcases Bool.or_eq_true _ _ |>.mp h with h | h
  · have := portBusy_work hI h; simp only [work]; omega
  · unfold commandEnabled at h
    split at h
    · cases h
    · next w hw =>
      have h1 := commandWork_pos w
      have h2 : slotWork (s.slot x) = commandWork w := by rw [hw]; rfl
      cases x <;> simp only [State.slot] at h2 <;> simp only [work] <;> omega

/-- A step never raises the work. Where it does not lower it, every enabled beat stays enabled and the step
was no enabled beat. -/
theorem work_step {s t : State} (hI : BlockInv s) (h : step s = .next t) :
    work t < work s ∨
      work t = work s ∧ (∀ x, enabled x s = true → enabled x t = true) ∧
        ∀ x wdata rest, s.script = .beat x wdata :: rest → enabled x s = false := by
  cases step_effect h with
  | noEvent hs => exact .inr ⟨rfl, fun _ h => h, fun _ _ _ h => by rw [hs] at h; cases h⟩
  | nothingThere x wdata rest hs hw hb =>
    have := work_event hs x
    refine .inr ⟨by simp only [eventWork] at this; omega,
      fun y hy => by rw [← hy]; exact enabled_congr (slot_given_turn s rest x) rfl rfl y, ?_⟩
    intro y wd r hy
    rw [hs] at hy; cases hy
    simp [enabled, commandEnabled, hw, hb]
  | present x w rest hs hw =>
    left
    have h1 := work_event hs s.turn
    have h2 := work_setSlot { s with script := rest } x (some w)
    have h3 : work { s with script := rest, turn := s.turn } = work { s with script := rest } := rfl
    simp only [eventWork, slotWork] at h1 h2; omega
  | hardwareReset rest hs =>
    have h1 := work_hardwareReset { s with script := rest }
    have h2 : (s.script.map eventWork).sum = (rest.map eventWork).sum := by rw [hs]; simp [eventWork]
    have h3 : (s.script.map eventWork).sum ≤ work s := by simp only [work]; omega
    rcases Nat.lt_or_ge (work (hardwareReset { s with script := rest })) (work s) with h4 | h4
    · exact .inl h4
    · exact .inr ⟨by simp only at h1; omega, fun y hy => by
        have := enabled_work hI hy; simp only at h1; omega,
        fun _ _ _ h => by rw [hs] at h; cases h⟩
  | reserved x wdata rest w e hs hw =>
    left
    have h1 := work_event hs x
    have h2 := work_respond x .errIllegal 0 { s with script := rest, turn := x }
    rw [slot_given_turn, hw] at h2
    have h3 := commandWork_pos w
    simp only [slotWork, eventWork] at h1 h2; omega
  | command x wdata rest w i t hs hw hd hb he =>
    have h1 := work_event hs x
    simp only [eventWork] at h1
    rcases work_effect (by rw [slot_given_turn]; exact hw) hd he with ⟨rfl, h2⟩ | h2
    · refine .inr ⟨by omega, fun y hy => by
        rw [← hy]; exact enabled_congr (slot_given_turn s rest x) rfl rfl y, ?_⟩
      intro y wd r hy
      rw [hs] at hy; cases hy
      rcases h2 with h2 | ⟨h2, h3⟩
      · exact absurd (hb.symm.trans (by cases x <;> exact h2)) (by simp)
      · have h3' : isHeld i s = true := h3
        have h2' : x ∈ i.ports := h2
        simp [enabled, commandEnabled, mayTake, hw, hb, hd, h2', h3']
    · left; omega
  | producerData b rest hs hb hr hN =>
    left
    have h1 := work_event hs .p
    have h2 := work_countPayload (s := pushed b { s with script := rest, turn := .p }) (by simpa using hr)
    have h3 : work (pushed b { s with script := rest, turn := .p }) = work { s with script := rest, turn := .p } :=
      work_congr (by simp) (by simp) (by simp) (by simp)
    omega
  | readData wdata v rest hs hb hr =>
    left
    have h1 := work_event hs .c
    have h2 := work_countDelivered (s := emit v (popped { s with script := rest, turn := .c })) hr
    have h3 : work (emit v (popped { s with script := rest, turn := .c })) =
      work { s with script := rest, turn := .c } := rfl
    omega
  | peekData wdata v rest hs hb hr =>
    left
    have h1 := work_event hs .c
    have h2 := work_countDelivered (s := { emit v { s with script := rest, turn := .c, bus := s.bus ++ [.read (slotAddr s.base s.cCur)] } with cCur := nextIndex s.cCur s.N }) hr
    have h3 : work { emit v { s with script := rest, turn := .c, bus := s.bus ++ [.read (slotAddr s.base s.cCur)] } with cCur := nextIndex s.cCur s.N } = work { s with script := rest, turn := .c } := rfl
    omega

/-- A run never raises the work, and takes its events off the script. -/
theorem work_run (hkeep : ∀ s t : State, BlockInv s → step s = .next t → BlockInv t) {es rest : List Event}
    {s t : State} (hI : BlockInv s) (hs : s.script = es ++ rest) (h : run es.length s = .next t) :
    BlockInv t ∧ t.script = rest ∧ work t ≤ work s := by
  induction es generalizing s with
  | nil => cases run_zero_inv h; exact ⟨hI, hs, le_rfl⟩
  | cons e es ih =>
    obtain ⟨u, hu, h⟩ := run_succ_inv h
    obtain ⟨h1, h2, h3⟩ := ih (hkeep s u hI hu) (script_of_step hs hu) h
    refine ⟨h1, h2, ?_⟩
    rcases work_step hI hu with h | h <;> omega

/-- A stretch of the script that gives an enabled port a beat lowers the work. -/
theorem work_round (hkeep : ∀ s t : State, BlockInv s → step s = .next t → BlockInv t) {es rest : List Event}
    {s t : State} {x : Port} (hI : BlockInv s) (hx : enabled x s = true) (hs : s.script = es ++ rest)
    (hb : es.any (isBeatOf x) = true) (h : run es.length s = .next t) : work t < work s := by
  induction es generalizing s with
  | nil => cases hb
  | cons e es ih =>
    obtain ⟨u, hu, h⟩ := run_succ_inv h
    have hIu := hkeep s u hI hu
    have hsu := script_of_step hs hu
    rcases work_step hI hu with h1 | ⟨h1, h2, h3⟩
    · have := (work_run hkeep hIu hsu h).2.2; omega
    · have hb' : es.any (isBeatOf x) = true := by
        rcases Bool.or_eq_true _ _ |>.mp hb with he | he
        · cases e with
          | beat y wdata =>
            have : y = x := by simpa [isBeatOf] using he
            subst this
            rw [h3 y wdata _ hs] at hx; cases hx
          | present => cases he
          | hardwareReset => cases he
        · exact he
      have := ih hIu (h2 x hx) hsu hb' h; omega

/-- What is presented some time is presented first on its port. -/
theorem toPresent_of_any {es : List Event} (h : es.any presents = true) :
    ∃ x w, toPresent x es = some w := by
  induction es with
  | nil => cases h
  | cons e es ih =>
    cases e with
    | present x w => exact ⟨x, w, by simp [toPresent]⟩
    | beat y wdata => obtain ⟨x, w, hw⟩ := ih (by simpa [presents] using h); exact ⟨x, w, hw⟩
    | hardwareReset => obtain ⟨x, w, hw⟩ := ih (by simpa [presents] using h); exact ⟨x, w, hw⟩

theorem slotWork_eq_zero {o : Option CommandWord} (h : slotWork o = 0) : o = none := by
  cases o with
  | none => rfl
  | some w => have := commandWork_pos w; simp only [slotWork] at h; omega

/-- No work means that the run has ended (R211). -/
theorem ended_of_no_work {s : State} (hI : BlockInv s) (h : work s = 0) : Ended s := by
  refine ⟨?_, ?_, slotWork_eq_zero ?_, slotWork_eq_zero ?_, slotWork_eq_zero ?_, slotWork_eq_zero ?_⟩
  · refine List.all_eq_true.mpr fun e he => ?_
    have h1 : eventWork e ≤ (s.script.map eventWork).sum := List.le_sum_of_mem (List.mem_map_of_mem he)
    cases e with
    | present x w => simp only [eventWork] at h1; simp only [work] at h; omega
    | beat => rfl
    | hardwareReset => rfl
  · by_contra hb
    have hb : burstInFlight s = true := by simpa using hb
    rcases Bool.or_eq_true _ _ |>.mp hb with hp | hp
    · have := portBusy_work (x := .p) hI hp; simp only [work] at h; omega
    · have := portBusy_work (x := .c) hI hp; simp only [work] at h; omega
  all_goals simp only [work] at h; omega

end Sys2Proof.Safety
end

