-- ==== Sys2Proof/Tests/Slice0.lean ====
section
/-! SUPPORT. Small tests whose expected values stand in spec/95_test_vectors.md (V, S) or follow from the rule named, and a witness for the hypotheses of every obligation that has some. -/

namespace Sys2Proof.Tests

open Sys2Proof Sys2Proof.Machine Sys2Proof.Safety

/-! Small states. -/

/-- A ring at `base` of `n` slots, nothing else in flight. -/
def ring (base n head tail : Word) (full : Bool) (mem : Memory) : State :=
  { State.reset with base := base, N := n, head := head, tail := tail, full := full, mem := mem }

/-- A four-byte ring at 0x20000000 that holds nothing. -/
def empty4 : State := ring 0x20000000 4 0 0 false []

/-- `3 0 0 [41 42 43 ??]`. -/
def three4 : State :=
  ring 0x20000000 4 3 0 false [(0x20000000, 0x41), (0x20000001, 0x42), (0x20000002, 0x43)]

/-- `0 0 1 [41 42 43 44]`. -/
def full4 : State :=
  ring 0x20000000 4 0 0 true
    [(0x20000000, 0x41), (0x20000001, 0x42), (0x20000002, 0x43), (0x20000003, 0x44)]

/-- `2 2 1 [45 46 43 44]`. -/
def turned4 : State :=
  ring 0x20000000 4 2 2 true
    [(0x20000000, 0x45), (0x20000001, 0x46), (0x20000002, 0x43), (0x20000003, 0x44)]

/-- `1 3 0 [45 ?? ?? 44]`. -/
def wrapped4 : State := ring 0x20000000 4 1 3 false [(0x20000000, 0x45), (0x20000003, 0x44)]

/-- A one-byte ring at 0x300 that holds 0x66. -/
def one1 : State := ring 0x300 1 0 0 true [(0x300, 0x66)]

/-- The last byte below 2^32, bound as a ring of one. -/
def last1 : State := ring 0xFFFFFFFF 1 0 0 false []

/-- The port `x` has the beat. -/
def at_ (x : Port) (s : State) : State := { s with turn := x }

/-- A `WRITE` burst of `n` bytes in flight. -/
def writing (n : Word) (s : State) : State := { s with pBusy := true, pRem := n }

/-- A `READ` burst of `n` bytes in flight. -/
def reading (n : Word) (s : State) : State := { s with cMode := .read, cRem := n }

/-- A `PEEK` burst of `n` bytes in flight, its cursor at `tail`. -/
def peeking (n : Word) (s : State) : State := { s with cMode := .peek, cRem := n, cCur := s.tail }

/-- These events come next. -/
def given (es : List Event) (s : State) : State := { s with script := es }

/-- The word `w` stands on port `x`, which has the next beat. -/
def standing (x : Port) (w : CommandWord) (s : State) : State :=
  given [.beat x 0x5A] (s.setSlot x (some w))

def isNext : Result → Bool
  | .next _ => true
  | .fault _ => false
  | .refused _ => false

theorem next_of_isNext {r : Result} (h : isNext r = true) : ∃ t, r = .next t := by
  cases r <;> first | exact ⟨_, rfl⟩ | cases h

/-- Whether the outcome is a next state with the property. -/
def leads (r : Result) (p : State → Bool) : Bool :=
  match r with
  | .next t => p t
  | .fault _ => false
  | .refused _ => false

/-- The ring registers of a state are these and its last response is this one, on the port of the turn. -/
def shows (base n head tail : Word) (full : Bool) (rsp : Rsp) (val : Word) (t : State) : Bool :=
  t.base == base && t.N == n && t.head == head && t.tail == tail && t.full == full
    && t.replies == [{ port := t.turn, rsp := rsp, val := val }]

/-! The well-formedness checks refuse what they should, and let the edge of the range pass. -/

theorem test_init_past_top_is_ill_formed : (Instr.init 0x20000000 0xF0000000).wellFormed = false := by decide
theorem test_init_to_the_top_is_well_formed : (Instr.init 1 0xFFFFFFFF).wellFormed = true := by decide
theorem test_null_init_is_well_formed : (Instr.init 0 0xFFFFFFFF).wellFormed = true := by decide
theorem test_written_on_wrong_port_is_ill_formed : (Written.mk .c (.writeByte 0x55) []).wellFormed = false := by decide
theorem test_written_past_top_is_ill_formed : (Written.mk .h (.init 0x80000000 0x80000001) []).wellFormed = false := by decide
theorem test_written_short_payload_is_ill_formed : (Written.mk .p (.write 3) [0x41, 0x42]).wellFormed = false := by decide
theorem test_written_stray_payload_is_ill_formed : (Written.mk .c .readByte [0x41]).wellFormed = false := by decide
theorem test_written_is_well_formed : (Written.mk .p (.write 3) [0x41, 0x42, 0x43]).wellFormed = true := by decide

/-! One word of each operation, written out from R72 and R76 (spec/95_test_vectors.md parts V and P). -/

theorem test_decode_init : decodeTableWord 72 0x012000000000000004 = some (.init 0x20000000 4) := by decide
theorem test_decode_reset : decodeTableWord 72 0x020000000000000000 = some .reset := by decide
theorem test_decode_writeByte : decodeTableWord 72 0x10FFFFFFFFABCDEF41 = some (.writeByte 0x41) := by decide
theorem test_decode_write : decodeTableWord 72 0x110000000600000000 = some (.write 6) := by decide
theorem test_decode_readByte : decodeTableWord 72 0x200000123400005678 = some .readByte := by decide
theorem test_decode_read : decodeTableWord 72 0x210000000400000000 = some (.read 4) := by decide
theorem test_decode_peek : decodeTableWord 72 0x220000000200000000 = some (.peek 2) := by decide
theorem test_decode_available : decodeTableWord 72 0x300000000000000000 = some .available := by decide
theorem test_decode_free : decodeTableWord 72 0x310000000000000000 = some .free := by decide
theorem test_decode_isEmpty : decodeTableWord 72 0x320000000000000000 = some .isEmpty := by decide
theorem test_decode_isFull : decodeTableWord 72 0x330000000000000000 = some .isFull := by decide
theorem test_decode_crcClear : decodeTableWord 72 0x400000000000000000 = some .crcClear := by decide
theorem test_decode_crcByte : decodeTableWord 72 0x4112345678FFFFFF01 = some (.crcByte 0x01) := by decide
theorem test_decode_crcGet : decodeTableWord 72 0x420000000000000000 = some .crcGet := by decide
/-- V6.1 to V6.4: the edges of the reserved ranges. -/
theorem test_decode_reserved : ∀ op ∈ [0x00, 0x03, 0x0F, 0x12, 0x1F, 0x23, 0x2F, 0x34, 0x3F, 0x43, 0x7F, 0xFF],
    decodeTableWord 72 (op * 2 ^ 64) = none := by decide
theorem test_decode_long_word : decodeTableWord 80 0x020000000000000000 = none := by decide
/-- The word V1.1 gives. -/
theorem test_encode_init : encode (.init 0x20000000 4) = 0x012000000000000004 := by decide
/-- `ERR_UNBOUND` as V6 writes it. -/
theorem test_response_word : ({ port := .p, rsp := .errUnbound, val := 0 } : Reply).word = 0x200000000 := by decide

/-! Single beats. -/

/-- V1.1. -/
theorem test_init_binds : leads (exec (.init 0x20000000 4) State.reset) (shows 0x20000000 4 0 0 false .ok 0) := by decide
/-- V1.4. -/
theorem test_init_null : leads (exec (.init 0 0) three4) (shows 0x20000000 4 3 0 false .ok 0) := by decide
/-- V1.6. -/
theorem test_reset_empties : leads (exec .reset turned4) (shows 0x20000000 4 0 0 false .ok 0) := by decide
/-- V1.8. -/
theorem test_reset_unbound : leads (exec .reset State.reset) (shows 0 0 0 0 false .errUnbound 0) := by decide
/-- V2.3. -/
theorem test_writeByte_overwrites : leads (exec (.writeByte 0x45) (at_ .p full4))
    (fun t => shows 0x20000000 4 1 1 true .ok 0 t && t.mem.read 0x20000000 == some 0x45 && held t == [0x42, 0x43, 0x44, 0x45]) := by decide
/-- V2.2: `head` wraps and the ring becomes full. -/
theorem test_writeByte_fills : leads (exec (.writeByte 0x44) (at_ .p three4))
    (fun t => shows 0x20000000 4 0 0 true .ok 0 t && held t == [0x41, 0x42, 0x43, 0x44]) := by decide
/-- V2.8, its accept beat. -/
theorem test_write_starts : leads (exec (.write 6) (at_ .p empty4))
    (fun t => shows 0x20000000 4 0 0 false .ok 0 t && t.pBusy && t.pRem == 6) := by decide
/-- V2.7. -/
theorem test_write_nothing : leads (exec (.write 0) (at_ .p turned4))
    (fun t => shows 0x20000000 4 2 2 true .ok 0 t && !t.pBusy) := by decide
/-- V2.8, the fifth of its six data beats. -/
theorem test_write_data_beat : leads (step (given [.beat .p 0x45] (writing 2 full4)))
    (fun t => t.head == 1 && t.tail == 1 && t.full && t.pBusy && t.pRem == 1 && held t == [0x42, 0x43, 0x44, 0x45]) := by decide
/-- V3.1. -/
theorem test_readByte_takes_oldest : leads (exec .readByte (at_ .c turned4))
    (fun t => shows 0x20000000 4 2 3 false .ok 1 t && t.rdata == [0x43]) := by decide
/-- V3.2. -/
theorem test_readByte_empty : leads (exec .readByte (at_ .c (ring 0x20000000 4 2 2 false [])))
    (fun t => shows 0x20000000 4 2 2 false .ok 0 t && t.rdata == []) := by decide
/-- V3.6, its accept beat. -/
theorem test_read_announces : leads (exec (.read 0xFFFFFFFF) (at_ .c turned4))
    (fun t => shows 0x20000000 4 2 2 true .ok 4 t && t.cMode == .read && t.cRem == 4) := by decide
/-- V3.5. -/
theorem test_read_nothing : leads (exec (.read 0) (at_ .c turned4))
    (fun t => shows 0x20000000 4 2 2 true .ok 0 t && t.cMode == .idle) := by decide
/-- V3.3, as the last beat of a `READ`: `tail` wraps. -/
theorem test_read_data_beat : leads (step (given [.beat .c 0] (reading 1 wrapped4)))
    (fun t => t.head == 1 && t.tail == 0 && !t.full && t.rdata == [0x44] && t.cMode == .idle && t.cRem == 0) := by decide
/-- V3.10, its accept beat. -/
theorem test_peek_announces : leads (exec (.peek 9) (at_ .c turned4))
    (fun t => shows 0x20000000 4 2 2 true .ok 4 t && t.cMode == .peek && t.cRem == 4 && t.cCur == 2) := by decide
/-- V3.11. -/
theorem test_peek_nothing : leads (exec (.peek 1) (at_ .c (ring 0x20000000 4 2 2 false [])))
    (fun t => shows 0x20000000 4 2 2 false .ok 0 t && t.cMode == .idle) := by decide
/-- V3.10, its first data beat. -/
theorem test_peek_data_beat : leads (step (given [.beat .c 0] (peeking 4 turned4)))
    (fun t => t.tail == 2 && t.full && t.rdata == [0x43] && t.cMode == .peek && t.cRem == 3 && t.cCur == 3) := by decide
/-- V4.1. -/
theorem test_available_wrapped : leads (exec .available (at_ .c (ring 0x300 8 3 4 false []))) (shows 0x300 8 3 4 false .ok 7) := by decide
/-- V4.8. -/
theorem test_available_full : leads (exec .available (ring 1 0xFFFFFFFF 0 0 true [])) (shows 1 0xFFFFFFFF 0 0 true .ok 0xFFFFFFFF) := by decide
/-- V4.2. -/
theorem test_free_wrapped : leads (exec .free (at_ .p (ring 0x300 8 3 4 false []))) (shows 0x300 8 3 4 false .ok 1) := by decide
/-- S3. -/
theorem test_free_full : leads (exec .free turned4) (shows 0x20000000 4 2 2 true .ok 0) := by decide
/-- S3: the indices meet and the ring is full. -/
theorem test_isEmpty_full : leads (exec .isEmpty turned4) (shows 0x20000000 4 2 2 true .ok 0) := by decide
/-- V4.4. -/
theorem test_isEmpty_empty : leads (exec .isEmpty (ring 0x300 1 0 0 false [])) (shows 0x300 1 0 0 false .ok 1) := by decide
/-- V4.3. -/
theorem test_isFull_full : leads (exec .isFull one1) (shows 0x300 1 0 0 true .ok 1) := by decide
/-- S3: the indices meet and the ring is empty. -/
theorem test_isFull_empty : leads (exec .isFull (ring 0x20000000 4 2 2 false [])) (shows 0x20000000 4 2 2 false .ok 0) := by decide
/-- V5.1. -/
theorem test_crcClear : leads (exec .crcClear (at_ .k { State.reset with crc := 0x1234 })) (fun t => t.crc == 0xFFFF) := by decide
/-- V5.6. -/
theorem test_crcByte_91 : leads (exec (.crcByte 0x91) (at_ .k { State.reset with crc := 0xFFFF })) (fun t => t.crc == 0xEC7E) := by decide
/-- V5.12: the one bit reaches the low end at the eighth step. -/
theorem test_crcByte_80 : leads (exec (.crcByte 0x80) (at_ .k { State.reset with crc := 0 })) (fun t => t.crc == 0xA001) := by decide
/-- V5.19. -/
theorem test_crcGet : leads (exec .crcGet (at_ .k { State.reset with crc := 0x212C })) (fun t => shows 0 0 0 0 false .ok 0x0000212C t && t.crc == 0x212C) := by decide
/-- S7. -/
theorem test_checksum_of_digits : checksum Config.defaults [0x31, 0x32, 0x33, 0x34, 0x35, 0x36, 0x37, 0x38, 0x39] = 0x4B37 := by decide +kernel
/-- S6: the checksum follows the frame low byte first. -/
theorem test_append_crc : appendCrc Config.defaults [0x91, 0x83, 0x02] = [0x91, 0x83, 0x02, 0xC0, 0xDC] := by decide +kernel
/-- S9: a corrupted checksum. -/
theorem test_corrupt_frame : framePasses Config.defaults [0x91, 0x03, 0x00, 0x64, 0x00, 0x02, 0x98, 0x85] = false := by decide +kernel
/-- V6.5: `ERR_ILLEGAL` is tested before `ERR_UNBOUND`. -/
theorem test_illegal_first : leads (exec .reset (at_ .k State.reset)) (shows 0 0 0 0 false .errIllegal 0) := by decide
/-- V1.10: held while a `WRITE` burst is in flight. -/
theorem test_reset_is_held : leads (step (standing .h 0x020000000000000000 (writing 2 three4)))
    (fun t => t.replies == [] && t.hCmd == some 0x020000000000000000 && t.head == 3) := by decide
/-- U5: past the top of the address space. -/
theorem test_init_past_top_is_refused : ∀ t, exec (.init 0x80000000 0x80000001) State.reset ≠ .next t := by
  intro t h; cases h
/-- The first instruction after reset, as the host places it. -/
theorem test_withFetchWord : leads (step (State.reset.withFetchWord 72 0x012000000000000004)) (shows 0x20000000 4 0 0 false .ok 0) := by decide
theorem test_withFetchWord_reserved : leads (step (State.reset.withFetchWord 72 0x7FDEADBEEF12345678)) (shows 0 0 0 0 false .errIllegal 0) := by decide

/-! Witnesses: for each obligation with hypotheses, concrete values that meet all of them together, each
clause of its own and at the edges of its range. -/

/-- A long `WRITE` into an empty ring. -/
def filling : State := given [.beat .p 0x41, .beat .p 0x42, .beat .p 0x43, .beat .p 0x44, .beat .p 0x45] (writing 5 empty4)

/-- Program P2: a `READ` of three from a full ring, two producer beats after its first. -/
def overtakenRead : State := given [.beat .c 0, .beat .p 0x14, .beat .p 0x15, .beat .c 0, .beat .c 0] (writing 2 (reading 3 full4))

/-- A `PEEK` of two, with as many producer beats inside it as there is room for. -/
def undisturbedPeek : State := given [.beat .c 0, .beat .p 0x44, .beat .c 0] (writing 2 (peeking 2 three4))

/-- Three bytes to come on `WDATA`, and a `READ` of three waiting on port C. -/
def roundTrip : State :=
  given ([0x41, 0x42, 0x43].map (fun b => .beat .p b) ++ (List.replicate 4 (.beat .c 0) ++ []))
    ((writing 3 empty4).setSlot .c (some 0x210000000300000000))

theorem empty4_meets_inv : BlockInv empty4 := by constructor <;> decide
theorem three4_meets_inv : BlockInv three4 := by constructor <;> decide
theorem full4_meets_inv : BlockInv full4 := by constructor <;> decide
theorem turned4_meets_inv : BlockInv turned4 := by constructor <;> decide
theorem wrapped4_meets_inv : BlockInv wrapped4 := by constructor <;> decide
theorem one1_meets_inv : BlockInv one1 := by constructor <;> decide
theorem last1_meets_inv : BlockInv last1 := by constructor <;> decide
theorem filling_meets_inv : BlockInv filling := by constructor <;> decide
theorem overtakenRead_meets_inv : BlockInv overtakenRead := by constructor <;> decide
theorem undisturbedPeek_meets_inv : BlockInv undisturbedPeek := by constructor <;> decide
theorem roundTrip_meets_inv : BlockInv roundTrip := by constructor <;> decide

/-- One step from a state is a next state; `decide` sees the constructor, not the state. -/
theorem steps_on (s : State) (h : isNext (step s) = true) : ∃ t, step s = .next t := next_of_isNext h

theorem witness_IgnoredFieldsDoNotMatter :
    ([(0x10FFFFFFFFABCDEF41, 0x100000000000000041), (0x4112345678FFFFFF01, 0x410000000000000001),
        (0x1100000004FFFFFFFF, 0x110000000400000000), (0x21FFFFFFFF00000001, 0x21FFFFFFFF80000000),
        (0x200000123400005678, 0x200000000000000000), (0x01FFFFFFFFFFFFFFFF, 0x01FFFFFFFFFFFFFFFF),
        (0xFFFFFFFFFFFFFFFFFF, 0xFF0000000000000000)] : List (CommandWord × CommandWord)).all (fun p => decide
      (opField p.1 = opField p.2 ∧
      (opField p.1 = 0x01 → aField p.1 = aField p.2 ∧ bField p.1 = bField p.2) ∧
      (opField p.1 = 0x11 ∨ opField p.1 = 0x21 ∨ opField p.1 = 0x22 → aField p.1 = aField p.2) ∧
      (opField p.1 = 0x10 ∨ opField p.1 = 0x41 → bByte p.1 = bByte p.2))) = true := by decide

theorem witness_OpcodeMapSelectsOperation :
    ([(0x012000000000000004, 0x01), (0x020000000000000000, 0x02), (0x100000000000000041, 0x10),
        (0x110000000600000000, 0x11), (0x200000000000000000, 0x20), (0x210000000400000000, 0x21),
        (0x220000000200000000, 0x22), (0x300000000000000000, 0x30), (0x310000000000000000, 0x31),
        (0x320000000000000000, 0x32), (0x330000000000000000, 0x33), (0x400000000000000000, 0x40),
        (0x410000000000000091, 0x41), (0x42FFFFFFFFFFFFFFFF, 0x42)] : List (CommandWord × BitVec 8)).all (fun p => opField p.1 == p.2) = true := by decide

theorem witness_ReservedOpcodeIsAnsweredIllegal :
    (∀ op ∈ [0x00, 0x03, 0x0F, 0x12, 0x1F, 0x23, 0x2F, 0x34, 0x3F, 0x43, 0xFF],
      reservedOpcode (opField (BitVec.ofNat 72 (op * 2 ^ 64))).toNat = true) ∧
    (∀ x ∈ [Port.h, .p, .c, .k],
      (standing x 0x7FDEADBEEF12345678 turned4).script = .beat x 0x5A :: [] ∧
      (standing x 0x7FDEADBEEF12345678 turned4).slot x = some 0x7FDEADBEEF12345678 ∧
      portBusy (standing x 0x7FDEADBEEF12345678 turned4) x = false) := by decide

theorem witness_StepRunsDecodedOperation :
    (standing .p 0x100000000000000045 turned4).script = .beat .p 0x5A :: [] ∧
    (standing .p 0x100000000000000045 turned4).slot .p = some 0x100000000000000045 ∧
    decodeTableWord 72 0x100000000000000045 = some (.writeByte 0x45) ∧
    decode 0x100000000000000045 = .ok (.writeByte 0x45) ∧
    portBusy (standing .p 0x100000000000000045 turned4) .p = false :=
  ⟨by decide, by decide, by decide, by rfl, by decide⟩

theorem witness_BusyPortTakesDataBeat :
    (filling.pBusy = true ∧ ∃ r, filling.script = .beat .p 0x41 :: r) ∧
    (overtakenRead.cMode = .read ∧ ∃ r, overtakenRead.script = .beat .c 0 :: r) ∧
    (undisturbedPeek.cMode = .peek ∧ ∃ r, undisturbedPeek.script = .beat .c 0 :: r) :=
  ⟨⟨rfl, _, rfl⟩, ⟨rfl, _, rfl⟩, ⟨rfl, _, rfl⟩⟩

theorem witness_PresentingAndIdleBeats :
    ((given [.present .h 0x02] turned4).script = [.present .h 0x02] ∧ turned4.slot .h = none) ∧
    ((given [.beat .c 0] turned4).script = [.beat .c 0] ∧ turned4.slot .c = none ∧ portBusy turned4 .c = false) ∧
    turned4.script = [] := by decide

theorem witness_EachPortWritesItsOwn :
    (∃ t, step (standing .k 0x410000000000000091 turned4) = .next t) ∧
    (∃ t, step (standing .c 0x200000000000000000 turned4) = .next t) ∧ (∃ t, step overtakenRead = .next t) ∧
    (∃ t, step (standing .p 0x100000000000000045 turned4) = .next t) ∧ (∃ t, step filling = .next t) ∧
    (∃ t, step (standing .h 0x012000010000000002 turned4) = .next t) :=
  ⟨steps_on _ (by decide), steps_on _ (by decide), steps_on _ (by decide), steps_on _ (by decide),
    steps_on _ (by decide), steps_on _ (by decide)⟩

theorem witness_OnlyInitAndHardwareResetRebind :
    (∃ t, step (standing .h 0x012000010000000002 turned4) = .next t ∧ t.base ≠ turned4.base ∧ t.N ≠ turned4.N) ∧
    (∃ t, step (given [.hardwareReset] turned4) = .next t ∧ t.base ≠ turned4.base ∧ t.N ≠ turned4.N) :=
  ⟨⟨_, rfl, by decide, by decide⟩, ⟨_, rfl, by decide, by decide⟩⟩

theorem witness_FirstBeatAnswersOnceOrWaits :
    (∃ t, exec .reset (at_ .h (writing 2 three4)) = .next t ∧ t.replies = []) ∧
    (∃ t, exec .isFull (at_ .k three4) = .next t ∧ t.replies = [⟨.k, .errIllegal, 0⟩]) ∧
    (∃ t, exec .readByte (at_ .c three4) = .next t ∧ t.replies = [⟨.c, .ok, 1⟩]) :=
  ⟨⟨_, rfl, by decide⟩, ⟨_, rfl, by decide⟩, ⟨_, rfl, by decide⟩⟩

theorem witness_WrongPortIsAnsweredIllegal :
    ∀ p ∈ [(Instr.reset, at_ .k State.reset), (Instr.init 0x20000000 4, at_ .p three4),
        (Instr.isFull, at_ .k full4), (Instr.crcGet, at_ .c one1), (Instr.peek 1, at_ .h (writing 2 three4))],
      p.2.turn ∉ p.1.ports ∧ portBusy p.2 p.2.turn = false := by decide

theorem witness_UnboundRingOperationIsAnsweredUnbound :
    ∀ p ∈ [(Instr.reset, Port.h), (.writeByte 0x55, .p), (.write 3, .p), (.readByte, .c), (.read 1, .c), (.peek 1, .c),
        (.available, .h), (.free, .p), (.isEmpty, .c), (.isFull, .c)],
      p.1.needsBinding = true ∧ (at_ p.2 State.reset).turn ∈ p.1.ports ∧
        portBusy (at_ p.2 State.reset) (at_ p.2 State.reset).turn = false ∧
        burstInFlight (at_ p.2 State.reset) = false ∧ (at_ p.2 State.reset).N = 0 := by decide

theorem witness_IllegalIsTestedBeforeUnbound :
    ∃ t, exec .readByte (at_ .c State.reset) = .next t ∧
      t.replies = (at_ .c State.reset).replies ++ [⟨(at_ .c State.reset).turn, .errUnbound, 0⟩] :=
  ⟨_, rfl, by decide⟩

theorem witness_InitBindsAndEmpties :
    ∀ s ∈ [State.reset, turned4], [((1 : Word), (0xFFFFFFFF : Word)), (0xFFFFFFFF, 1), (0x20000000, 4)].all (fun p => decide
      (s.turn = .h ∧ burstInFlight s = false ∧ p.1 ≠ 0 ∧ p.2 ≠ 0 ∧ p.1.toNat + p.2.toNat ≤ 2 ^ 32)) = true := by decide

theorem witness_NullInitIsSilentNoOp :
    ∀ s ∈ [State.reset, turned4], [((0 : Word), (0xFFFFFFFF : Word)), (0xFFFFFFFF, 0), (0, 0)].all (fun p => decide
      (s.turn = .h ∧ burstInFlight s = false ∧ (p.1 = 0 ∨ p.2 = 0))) = true := by decide

theorem witness_InitPastTopIsRefused :
    ∀ s ∈ [State.reset, turned4], [((2 : Word), (0xFFFFFFFF : Word)), (0xFFFFFFFF, 2)].all (fun p => decide
      (s.turn = .h ∧ burstInFlight s = false ∧ p.1 ≠ 0 ∧ p.2 ≠ 0 ∧ 2 ^ 32 < p.1.toNat + p.2.toNat)) = true := by decide

theorem witness_ResetEmptiesRing :
    ∀ s ∈ [three4, turned4, one1], s.turn = .h ∧ burstInFlight s = false ∧ s.N ≠ 0 := by decide

theorem witness_ControlWaitsForBursts :
    ∀ s ∈ [filling, overtakenRead, undisturbedPeek], s.turn = .h ∧ burstInFlight s = true := by decide

theorem witness_WriteByteStoresAndAdvances :
    ∀ s ∈ [at_ .p three4, at_ .p turned4, at_ .p last1],
      ReadyAt .p s ∧ s.N ≠ 0 ∧ s.base.toNat + s.head.toNat < 2 ^ 32 := by decide

theorem witness_WriteAcceptStartsBurst : ∀ s ∈ [at_ .p three4, at_ .p turned4, at_ .p last1], ReadyAt .p s ∧ s.N ≠ 0 := by decide

theorem witness_WriteDataBeatStoresPayload :
    ∀ s ∈ [writing 1 turned4, writing 0xFFFFFFFF three4, writing 2 last1],
      (given [.beat .p 0x45] s).script = .beat .p 0x45 :: [] ∧ s.pBusy = true ∧ s.pRem ≠ 0 ∧ s.N ≠ 0 ∧
        s.base.toNat + s.head.toNat < 2 ^ 32 := by decide

theorem witness_ProducerIsNeverDenied :
    BlockInv turned4 ∧ BlockInv filling ∧ turned4.N ≠ 0 ∧ filling.N ≠ 0 ∧
      (BlockInv (at_ .p turned4) ∧ ReadyAt .p (at_ .p turned4)) ∧
      (filling.pBusy = true ∧ ∃ r, filling.script = .beat .p 0x41 :: r) :=
  ⟨turned4_meets_inv, filling_meets_inv, by decide, by decide, ⟨by constructor <;> decide, by decide⟩, rfl, _, rfl⟩

theorem witness_PushCountsUpToCapacity :
    (BlockInv three4 ∧ ∃ t, push 0x44 three4 = .ok t) ∧ (BlockInv turned4 ∧ ∃ t, push 0x44 turned4 = .ok t) :=
  ⟨⟨three4_meets_inv, _, rfl⟩, turned4_meets_inv, _, rfl⟩

theorem witness_OneByteRingHoldsLastByte : (BlockInv one1 ∧ one1.N = 1) ∧ (BlockInv last1 ∧ last1.N = 1) :=
  ⟨⟨one1_meets_inv, by decide⟩, last1_meets_inv, by decide⟩

theorem witness_WriteEqualsWriteBytes :
    BlockInv turned4 ∧ turned4.N ≠ 0 ∧ turned4.pBusy = false ∧ turned4.pCmd = none ∧
      ([0x47, 0x48] : List Byte).length < 2 ^ 32 :=
  ⟨turned4_meets_inv, by decide, by decide, by decide, by decide⟩

theorem witness_ReadByteTakesOldest :
    ∀ p ∈ [(at_ .c turned4, (0x43 : Byte)), (at_ .c wrapped4, 0x44), (at_ .c one1, 0x66),
        (at_ .c (ring 0xFFFFFFFF 1 0 0 true [(0xFFFFFFFF, 0x77)]), 0x77)],
      ReadyAt .c p.1 ∧ p.1.N ≠ 0 ∧ available p.1 ≠ 0 ∧ p.1.base.toNat + p.1.tail.toNat < 2 ^ 32 ∧
        p.1.mem.read (p.1.base.toNat + p.1.tail.toNat) = some p.2 := by decide

theorem witness_ReadByteOnEmptyDeliversNothing :
    ∀ s ∈ [at_ .c empty4, at_ .c last1], ReadyAt .c s ∧ s.N ≠ 0 ∧ available s = 0 := by decide

theorem witness_ReadAcceptAnnouncesCount : ∀ s ∈ [at_ .c empty4, at_ .c turned4, at_ .c last1], ReadyAt .c s ∧ s.N ≠ 0 := by decide

theorem witness_ReadDataBeatDeliversOldest :
    ∀ p ∈ [(reading 1 turned4, (0x43 : Byte)), (reading 4 turned4, 0x43), (reading 2 wrapped4, 0x44)],
      (given [.beat .c 0] p.1).script = .beat .c 0 :: [] ∧ p.1.cMode = .read ∧ p.1.cRem ≠ 0 ∧ p.1.N ≠ 0 ∧
        available p.1 ≠ 0 ∧ p.1.base.toNat + p.1.tail.toNat < 2 ^ 32 ∧
        p.1.mem.read (p.1.base.toNat + p.1.tail.toNat) = some p.2 := by decide

theorem witness_PeekAcceptAnnouncesCount : ∀ s ∈ [at_ .c empty4, at_ .c turned4, at_ .c last1], ReadyAt .c s ∧ s.N ≠ 0 := by decide

theorem witness_PeekDataBeatKeepsRing :
    ∀ p ∈ [(peeking 1 turned4, (0x43 : Byte)), (peeking 4 turned4, 0x43), (peeking 2 wrapped4, 0x44)],
      (given [.beat .c 0] p.1).script = .beat .c 0 :: [] ∧ p.1.cMode = .peek ∧ p.1.cRem ≠ 0 ∧ p.1.N ≠ 0 ∧
        p.1.base.toNat + p.1.cCur.toNat < 2 ^ 32 ∧
        p.1.mem.read (p.1.base.toNat + p.1.cCur.toNat) = some p.2 := by decide

theorem witness_ReadBurstDeliversWhatItAnnounced :
    BlockInv overtakenRead ∧ overtakenRead.cMode = .read ∧ overtakenRead.script = overtakenRead.script ++ [] ∧
      overtakenRead.script.all (fun e => !isHardwareReset e) = true ∧
      overtakenRead.script.countP (isBeatOf .c) = overtakenRead.cRem.toNat ∧
      ∃ t, run overtakenRead.script.length overtakenRead = .next t :=
  ⟨overtakenRead_meets_inv, by decide, by decide, by decide, by decide, _, rfl⟩

theorem witness_PeekBurstDeliversOldestHeld :
    BlockInv undisturbedPeek ∧ undisturbedPeek.cMode = .peek ∧ undisturbedPeek.cCur = undisturbedPeek.tail ∧
      undisturbedPeek.cRem.toNat ≤ available undisturbedPeek ∧
      undisturbedPeek.script = undisturbedPeek.script ++ [] ∧
      undisturbedPeek.script.all (fun e => !isHardwareReset e) = true ∧
      undisturbedPeek.script.countP (isBeatOf .c) = undisturbedPeek.cRem.toNat ∧
      undisturbedPeek.script.countP (isBeatOf .p) ≤ free undisturbedPeek ∧
      ∃ t, run undisturbedPeek.script.length undisturbedPeek = .next t :=
  ⟨undisturbedPeek_meets_inv, by decide, by decide, by decide, by decide, by decide, by decide, by decide, _, rfl⟩

/-- The hypotheses of the four status statements, on each port and for a ring of one and the largest ring. -/
theorem witness_StatusAnswers :
    ∀ s ∈ [turned4, one1, last1, ring 1 0xFFFFFFFF 0 0 true []], ∀ x ∈ [Port.h, .p, .c],
      (at_ x s).turn ∈ [Port.h, Port.p, Port.c] ∧ portBusy (at_ x s) (at_ x s).turn = false ∧ (at_ x s).N ≠ 0 := by decide

theorem answered_here (s t : State) (rsp : Rsp) (val : Word) (h : t = respond s.turn rsp val s) :
    Answered s t rsp val := by
  subst h
  refine ⟨by simp, fun y hy => respond_slot_other _ _ _ _ _ hy, by simp, by simp, by simp⟩

theorem witness_StatusValuesAreConsistent :
    BlockInv turned4 ∧ turned4.N ≠ 0 ∧
      (∃ t, exec .available turned4 = .next t ∧ Answered turned4 t .ok 4) ∧
      (∃ t, exec .free turned4 = .next t ∧ Answered turned4 t .ok 0) ∧
      (∃ t, exec .isEmpty turned4 = .next t ∧ Answered turned4 t .ok 0) ∧
      (∃ t, exec .isFull turned4 = .next t ∧ Answered turned4 t .ok 1) :=
  ⟨turned4_meets_inv, by decide, ⟨_, rfl, answered_here _ _ _ _ (by decide)⟩,
    ⟨_, rfl, answered_here _ _ _ _ (by decide)⟩, ⟨_, rfl, answered_here _ _ _ _ (by decide)⟩,
    ⟨_, rfl, answered_here _ _ _ _ (by decide)⟩⟩

/-- The one hypothesis of `CrcClearLoadsSeed`, `CrcByteTakesEightSteps` and `CrcGetAnswersChecksum`. -/
theorem witness_CrcOperations : (at_ .k State.reset).turn = .k ∧ (at_ .k filling).turn = .k := by decide

/-- S6: a correct frame; and a state after any other. -/
theorem witness_ResidueIsZeroForCorrectFramesOnly :
    (State.reset.params.crcXorOut = 0 ∧
      State.reset.crc = ([0x91, 0x83, 0x02] ++ [0xC0, 0xDC]).foldl crcUpdate State.reset.params.crcSeed) ∧
    ({ State.reset with crc := 0xC0C1 }.params.crcXorOut = 0 ∧
      { State.reset with crc := 0xC0C1 }.crc =
        ([0x91, 0x03, 0x00, 0x64, 0x00, 0x02] ++ [0x98, 0x85]).foldl crcUpdate State.reset.params.crcSeed) := by
  decide +kernel

theorem witness_CrcBeatsCommuteWithOtherPorts :
    ∀ x ∈ [Port.h, .p, .c], x ≠ Port.k ∧
      (isNext (run 2 { (standing .k 0x410000000000000091 overtakenRead) with
        script := .beat .k 0 :: .beat x 0x14 :: [] }) = true) ∧
      (isNext (run 2 { (standing .k 0x410000000000000091 overtakenRead) with
        script := .beat x 0x14 :: .beat .k 0 :: [] }) = true) := by decide

theorem witness_HardwareResetAbortsAndUnbinds :
    (given [.hardwareReset] (standing .h 0x020000000000000000 overtakenRead)).script = .hardwareReset :: [] := by decide

theorem witness_StepKeepsInv :
    (BlockInv filling ∧ ∃ t, step filling = .next t) ∧ (BlockInv overtakenRead ∧ ∃ t, step overtakenRead = .next t) ∧
      (BlockInv undisturbedPeek ∧ ∃ t, step undisturbedPeek = .next t) :=
  ⟨⟨filling_meets_inv, steps_on _ (by decide)⟩, ⟨overtakenRead_meets_inv, steps_on _ (by decide)⟩,
    undisturbedPeek_meets_inv, steps_on _ (by decide)⟩

theorem witness_NoStepFaults : BlockInv overtakenRead ∧ BlockInv filling ∧ BlockInv State.reset :=
  ⟨overtakenRead_meets_inv, filling_meets_inv, by constructor <;> decide⟩

theorem witness_RingInvariantsHold :
    (BlockInv filling ∧ ∃ t, step filling = .next t ∧ t.N ≠ 0) ∧
    (BlockInv overtakenRead ∧ ∃ t, step overtakenRead = .next t ∧ t.N ≠ 0 ∧ t.cMode = .read) ∧
    (BlockInv turned4 ∧ ∃ t, step turned4 = .next t ∧ t.N ≠ 0 ∧ t.full = true) ∧
    (BlockInv last1 ∧ ∃ t, step last1 = .next t ∧ t.N ≠ 0 ∧ available t = 0) :=
  ⟨⟨filling_meets_inv, _, rfl, by decide⟩, ⟨overtakenRead_meets_inv, _, rfl, by decide, by decide⟩,
    ⟨turned4_meets_inv, _, rfl, by decide, by decide⟩, last1_meets_inv, _, rfl, by decide, by decide⟩

theorem witness_AccessesStayInBoundRegion :
    (BlockInv filling ∧ ∃ t, step filling = .next t ∧ accesses filling t = [.write 0x20000000 0x41]) ∧
    (BlockInv undisturbedPeek ∧ ∃ t, step undisturbedPeek = .next t ∧ accesses undisturbedPeek t = [.read 0x20000000]) :=
  ⟨⟨filling_meets_inv, _, rfl, by decide⟩, undisturbedPeek_meets_inv, _, rfl, by decide⟩

theorem witness_OneByteAccessPerStep :
    (∃ t, step filling = .next t ∧ accesses filling t = [.write 0x20000000 0x41]) ∧
    (∃ t, step overtakenRead = .next t ∧ accesses overtakenRead t = [.read 0x20000000]) ∧
    (∃ t, step State.reset = .next t ∧ accesses State.reset t = []) :=
  ⟨⟨_, rfl, by decide⟩, ⟨_, rfl, by decide⟩, _, rfl, by decide⟩

theorem witness_RingRefinesOverwritingQueue :
    (BlockInv three4 ∧ ∃ t, step (given [.hardwareReset] three4) = .next t ∧ held t = []) ∧
    (BlockInv undisturbedPeek ∧ ∃ t, step undisturbedPeek = .next t ∧ held t = held undisturbedPeek) ∧
    (BlockInv filling ∧ ∃ t, step filling = .next t ∧ produced filling t = [0x41]) ∧
    (BlockInv overtakenRead ∧ ∃ t, step overtakenRead = .next t ∧ removed overtakenRead t = [0x41]) :=
  ⟨⟨three4_meets_inv, _, rfl, by decide⟩, ⟨undisturbedPeek_meets_inv, _, rfl, by decide⟩,
    ⟨filling_meets_inv, _, rfl, by decide⟩, overtakenRead_meets_inv, _, rfl, by decide⟩

/-- Program P2 seen as a history: 41 goes out, 42 and 43 are overtaken by 14 and 15, 44 stays held. -/
theorem witness_DeliveredInProductionOrderAtMostOnce :
    BlockInv overtakenRead ∧ ∃ p r t, history 3 overtakenRead = some (p, r, t) ∧ p = [0x14, 0x15] ∧ r = [0x41] :=
  ⟨overtakenRead_meets_inv, _, _, _, rfl, by decide, by decide⟩

theorem witness_OverrunKeepsLastBytes :
    BlockInv filling ∧ filling.N ≠ 0 ∧ available filling = 0 ∧ filling.pBusy = true ∧
      ([0x41, 0x42, 0x43, 0x44, 0x45] : List Byte).length ≤ filling.pRem.toNat ∧
      filling.script = ([0x41, 0x42, 0x43, 0x44, 0x45] : List Byte).map (fun b => .beat .p b) ++ [] :=
  ⟨filling_meets_inv, by decide, by decide, by decide, by decide, by decide⟩

theorem witness_WriteThenReadRoundTrip :
    BlockInv roundTrip ∧ roundTrip.N ≠ 0 ∧ available roundTrip = 0 ∧ roundTrip.pBusy = true ∧
      roundTrip.pRem.toNat = ([0x41, 0x42, 0x43] : List Byte).length ∧
      ([0x41, 0x42, 0x43] : List Byte).length ≤ roundTrip.N.toNat ∧ roundTrip.cMode = .idle ∧
      roundTrip.cCmd = some 0x210000000300000000 ∧ decode 0x210000000300000000 = .ok (.read 3) ∧
      ([0x41, 0x42, 0x43] : List Byte).length ≤ (3 : Word).toNat ∧
      roundTrip.script = ([0x41, 0x42, 0x43] : List Byte).map (fun b => .beat .p b) ++
        (List.replicate (([0x41, 0x42, 0x43] : List Byte).length + 1) (.beat .c 0) ++ []) :=
  ⟨roundTrip_meets_inv, by decide, by decide, by decide, by decide, by decide, by decide, by decide, by rfl,
    by decide, by decide⟩

/-- A command list with one `RESET` to come and nothing on the ports: not ended, no beat enabled yet, one live. -/
def toCome : State := given [.present .h 0x020000000000000000] turned4

/-- One `RESET` on its port and two rounds of beats; its work is one beat. -/
def fairEnd : State :=
  given ([] ++ [[.beat .k 0, .beat .p 0, .beat .c 0, .beat .h 0], [.beat .h 0, .beat .p 0, .beat .c 0, .beat .k 0]].flatten)
    (turned4.setSlot .h (some 0x020000000000000000))

theorem witness_NoDeadlockAndDisabledBeatsWait :
    (BlockInv filling ∧ burstInFlight filling = true) ∧
    (BlockInv toCome ∧ ¬Ended toCome ∧ enabled .h toCome = false ∧ live .h toCome = true) ∧
    (BlockInv turned4 ∧ Ended turned4) ∧
    (BlockInv fairEnd ∧
      FairRound [.beat .k 0, .beat .p 0, .beat .c 0, .beat .h 0] ∧
      FairRound [.beat .h 0, .beat .p 0, .beat .c 0, .beat .k 0] ∧ ¬Ended fairEnd ∧ work fairEnd ≤ 2 ∧
      ∃ t, run fairEnd.script.length fairEnd = .next t) ∧
    (BlockInv overtakenRead ∧ enabled .c overtakenRead = true ∧ ∃ r, overtakenRead.script = .beat .c 0 :: r) ∧
    (BlockInv (standing .h 0x020000000000000000 (writing 2 three4)) ∧
      enabled .h (standing .h 0x020000000000000000 (writing 2 three4)) = false ∧
      (standing .h 0x020000000000000000 (writing 2 three4)).slot .h = some 0x020000000000000000 ∧
      ∃ r, (standing .h 0x020000000000000000 (writing 2 three4)).script = .beat .h 0x5A :: r) :=
  ⟨⟨filling_meets_inv, by decide⟩, ⟨by constructor <;> decide, by decide, by decide, by decide⟩,
    ⟨turned4_meets_inv, by decide⟩,
    ⟨by constructor <;> decide, ⟨fun x => by cases x <;> decide, by decide⟩,
      ⟨fun x => by cases x <;> decide, by decide⟩, by decide, by decide, next_of_isNext (by decide)⟩,
    ⟨overtakenRead_meets_inv, by decide, _, rfl⟩,
    by constructor <;> decide, by decide, by decide, _, rfl⟩

/-! The launch premises of R194 hold of some states and fail of others. -/

theorem witness_Bound : Bound turned4 ∧ ¬Bound State.reset ∧
    ¬Bound (given [.present .h 0x012000010000000002] turned4) ∧ ¬Bound (standing .h 0x012000010000000002 turned4) := by decide

theorem witness_RegionPrivate : RegionPrivate filling ∧ (∃ t, step filling = .next t) ∧
    RegionPrivate overtakenRead ∧ ∃ t, step overtakenRead = .next t :=
  ⟨regionPrivate_of_inv filling_meets_inv, steps_on _ (by decide),
    regionPrivate_of_inv overtakenRead_meets_inv, steps_on _ (by decide)⟩

/-- V5.1: `CRC_CLEAR` seeds the unit; a hardware reset after it undoes that. -/
theorem witness_CrcSeeded : CrcSeeded 1 (standing .k 0x400000000000000000 turned4) ∧
    ¬CrcSeeded 1 (standing .k 0x420000000000000000 turned4) ∧
    ¬CrcSeeded 2 { (standing .k 0x400000000000000000 turned4) with script := [.beat .k 0, .hardwareReset] } := by decide

end Sys2Proof.Tests
end

section
/-! SUPPORT. The ring of a bound block: I1 and I2 of R28 as one predicate, what `available()` is under it, and what a `push` and a `pop` do to the count (spec/10_state.md R28, spec/41_producer_ops.md R110, spec/42_consumer_ops.md R120). -/

namespace Sys2Proof.Machine

/-- I1 and I2 of R28: the indices are slots, and `full` is set only where they meet. -/
structure RingOk (s : State) : Prop where
  head_lt : s.head.toNat < s.N.toNat
  tail_lt : s.tail.toNat < s.N.toNat
  full_meets : s.full = true → s.head = s.tail

theorem RingOk.bound {s : State} (h : RingOk s) : s.N ≠ 0 := by
  intro h0; simpa [h0] using h.head_lt

/-- `head` stands `available()` places after `tail`, around the ring at most once. -/
theorem RingOk.head_eq {s : State} (h : RingOk s) :
    s.tail.toNat + available s = s.head.toNat ∨
      s.tail.toNat + available s = s.head.toNat + s.N.toNat := by
  have hh := h.head_lt
  have ht := h.tail_lt
  rw [available_closed hh ht]
  split
  · next hf => right; rw [h.full_meets hf]
  · split <;> omega

/-- I4 and I5 (R28). -/
theorem RingOk.available_le {s : State} (h : RingOk s) : available s ≤ s.N.toNat :=
  Machine.available_le h.head_lt h.tail_lt

theorem RingOk.full_iff {s : State} (h : RingOk s) : s.full = true ↔ available s = s.N.toNat := by
  have hh := h.head_lt
  have ht := h.tail_lt
  refine ⟨available_full, fun ha => ?_⟩
  by_contra hf
  rw [available_closed hh ht, if_neg hf] at ha
  split at ha <;> omega

/-- I6 (R28). -/
theorem RingOk.empty_iff {s : State} (h : RingOk s) :
    (s.full = false ∧ s.head = s.tail) ↔ available s = 0 := by
  have ht := h.tail_lt
  have hle := h.available_le
  have hfull := h.full_iff
  have hhead := h.head_eq
  rw [← Bool.not_eq_true, hfull, BitVec.toNat_eq]
  omega

theorem RingOk.after_pushed {s : State} (h : RingOk s) (b : Byte) : RingOk (pushed b s) where
  head_lt := by simpa using nextIndex_lt h.bound
  tail_lt := by
    rw [pushed_tail, pushed_N]; split
    · exact nextIndex_lt h.bound
    · exact h.tail_lt
  full_meets hf := by rw [pushed_full] at hf; exact eq_of_beq hf

theorem RingOk.after_popped {s : State} (h : RingOk s) : RingOk (popped s) where
  head_lt := h.head_lt
  tail_lt := nextIndex_lt h.bound
  full_meets hf := by cases hf

/-- A `push` adds one to the count; on a full ring the oldest byte makes room first (R110). -/
theorem available_pushed {s : State} (h : RingOk s) (b : Byte) :
    available (pushed b s) = if s.full then available s else available s + 1 := by
  have h' := h.after_pushed b
  have hfull := h.full_iff
  have hfull' := h'.full_iff
  have hmeet : (pushed b s).full = true ↔ (pushed b s).head.toNat = (pushed b s).tail.toNat := by
    rw [pushed_full, beq_iff_eq, BitVec.toNat_eq]
  split
  · next hf =>
    have : (pushed b s).full = true := by
      rw [hmeet, pushed_head, pushed_tail, if_pos hf, h.full_meets hf]
    rw [hfull'.mp this, hfull.mp hf, pushed_N]
  · next hf =>
    have ht : (pushed b s).tail = s.tail := by rw [pushed_tail, if_neg hf]
    have hhead := h.head_eq
    have hhead' := h'.head_eq
    have hnext := nextIndex_cases h.head_lt
    have hle := h.available_le
    have hle' := h'.available_le
    have htl := h.tail_lt
    rw [hfull] at hf
    rw [hfull', ht, pushed_head, pushed_N] at hmeet
    rw [ht, pushed_head, pushed_N] at hhead'
    rw [pushed_N] at hle'
    split at hnext <;> omega

theorem available_le_pushed {s : State} (h : RingOk s) (b : Byte) :
    available s ≤ available (pushed b s) := by
  rw [available_pushed h]; split <;> omega

/-- A `pop` takes one off the count (R120). -/
theorem available_popped {s : State} (h : RingOk s) (ha : available s ≠ 0) :
    available (popped s) = available s - 1 := by
  have h' := h.after_popped
  have hfull' : available (popped s) ≠ s.N.toNat := fun e => by
    have := h'.full_iff.mpr e; cases this
  have hhead := h.head_eq
  have hhead' : (nextIndex s.tail s.N).toNat + available (popped s) = s.head.toNat ∨
      (nextIndex s.tail s.N).toNat + available (popped s) = s.head.toNat + s.N.toNat := h'.head_eq
  have hle' : available (popped s) ≤ s.N.toNat := h'.available_le
  have hle := h.available_le
  have hnext := nextIndex_cases h.tail_lt
  have hhl := h.head_lt
  have htl := h.tail_lt
  split at hnext <;> omega

theorem emptied_eq_bindRegion (s : State) : emptied s = bindRegion s.base s.N s := rfl

@[simp] theorem available_bindRegion (storage size : Word) (s : State) :
    available (bindRegion storage size s) = 0 := by simp [available]

end Sys2Proof.Machine

namespace Sys2Proof.Safety

open Sys2Proof.Machine

/-- The slot after the last byte held is the slot of `head`. -/
theorem addrAfter_available {s : State} (h : RingOk s) :
    addrAfter s s.tail (available s) = slotAddr s.base s.head := by
  have hlt := h.head_lt
  rw [addrAfter, slotAddr]
  rcases h.head_eq with he | he
  · rw [he, Nat.mod_eq_of_lt hlt]
  · rw [he, Nat.add_mod_right, Nat.mod_eq_of_lt hlt]

end Sys2Proof.Safety
end

section
/-! SUPPORT. The invariant of the block is kept: one lemma per operation, then every first beat, then every step (spec/10_state.md R28, R31, R32, spec/20_memory.md R52, R58). -/

namespace Sys2Proof.Safety

open Sys2Proof.Machine

/-- A bound block meets I1 and I2. -/
theorem BlockInv.ringOk {s : State} (hI : BlockInv s) (hN : s.N ≠ 0) : RingOk s where
  head_lt := (hI.indices hN).1
  tail_lt := (hI.indices hN).2
  full_meets := hI.fullMeets

/-- The ring, the sequencers, storage and `RDATA` are as they were. -/
structure RingSideKept (s t : State) : Prop where
  ring : SameRing s t
  producer : SameProducer s t
  consumer : SameConsumer s t
  mem : t.mem = s.mem
  bus : t.bus = s.bus
  rdata : t.rdata = s.rdata

theorem RingSideKept.refl (s : State) : RingSideKept s s :=
  ⟨⟨rfl, rfl, rfl, rfl, rfl⟩, ⟨rfl, rfl⟩, ⟨rfl, rfl, rfl⟩, rfl, rfl, rfl⟩

theorem ringSideKept_respond (x : Port) (r : Rsp) (v : Word) (s : State) :
    RingSideKept s (respond x r v s) := by
  constructor <;> simp [SameRing, SameProducer, SameConsumer]

theorem ringSideKept_setSlot (s : State) (x : Port) (o : Option CommandWord) :
    RingSideKept s (s.setSlot x o) := by
  constructor <;> simp [SameRing, SameProducer, SameConsumer]

theorem RingSideKept.available_eq {s t : State} (h : RingSideKept s t) : available t = available s := by
  obtain ⟨-, hN, hhead, htail, hfull⟩ := h.ring
  exact available_congr hN hhead htail hfull

/-- The invariant speaks of the ring registers, the sequencers and storage alone. -/
theorem BlockInv.of_ringSideKept {s t : State} (hI : BlockInv s) (h : RingSideKept s t) : BlockInv t := by
  have ha := h.available_eq
  obtain ⟨⟨hbase, hN, hhead, htail, hfull⟩, ⟨hbusy, hprem⟩, ⟨hmode, hcrem, hcur⟩, hm, -, -⟩ := h
  have haddr : addrAfter t = addrAfter s := by funext x i; simp only [addrAfter, hbase, hN]
  constructor <;> simp only [hbase, hN, hhead, htail, hfull, hbusy, hprem, hmode, hcrem, hcur, hm, ha, haddr]
  exacts [hI.memory, hI.unbound, hI.region, hI.indices, hI.fullMeets, hI.heldWritten, hI.producer,
    hI.consumer, hI.burstFits, hI.readFits, hI.peekFits]

theorem BlockInv.after_respond {s : State} (hI : BlockInv s) (x : Port) (r : Rsp) (v : Word) :
    BlockInv (respond x r v s) :=
  hI.of_ringSideKept (ringSideKept_respond x r v s)

theorem BlockInv.after_setSlot {s : State} (hI : BlockInv s) (x : Port) (o : Option CommandWord) :
    BlockInv (s.setSlot x o) :=
  hI.of_ringSideKept (ringSideKept_setSlot s x o)

theorem BlockInv.after_emit {s : State} (hI : BlockInv s) (v : Byte) : BlockInv (emit v s) := { hI with }

/-- The invariant does not speak of the script or of the turn. -/
theorem BlockInv.given_turn {s : State} (hI : BlockInv s) (rest : List Event) (x : Port) :
    BlockInv { s with script := rest, turn := x } := { hI with }

/-- Hardware reset leaves nothing bound and nothing in flight (R190). -/
theorem BlockInv.after_hardwareReset {s : State} (hI : BlockInv s) : BlockInv (hardwareReset s) := by
  have ha : available (hardwareReset s) = 0 := by simp [available]
  constructor
  case memory => exact hI.memory
  all_goals simp [ha]

/-- With no burst in flight an emptied ring may stand at any region inside the address space (R100). -/
theorem BlockInv.after_bindRegion {s : State} (hI : BlockInv s) (hb : burstInFlight s = false)
    {storage size : Word} (h1 : storage ≠ 0) (h2 : size ≠ 0)
    (h3 : storage.toNat + size.toNat ≤ 2 ^ 32) : BlockInv (bindRegion storage size s) := by
  obtain ⟨-, hmode⟩ : s.pBusy = false ∧ s.cMode = .idle := by simpa [burstInFlight] using hb
  have hrem : s.cRem = 0 := hI.consumer.mp hmode
  have hpos := Word.toNat_pos h2
  exact {
    memory := hI.memory
    unbound := fun h => absurd h h2
    region := fun _ => ⟨h1, h3⟩
    indices := fun _ => ⟨hpos, hpos⟩
    fullMeets := fun h => by cases h
    heldWritten := fun i hi => by simp at hi
    producer := hI.producer
    consumer := hI.consumer
    burstFits := by simp [hrem]
    readFits := fun h => by simp [hmode] at h
    peekFits := fun h => by simp [hmode] at h }

theorem BlockInv.after_emptied {s : State} (hI : BlockInv s) (hb : burstInFlight s = false) (hN : s.N ≠ 0) :
    BlockInv (emptied s) := by
  obtain ⟨hbase, hfits⟩ := hI.region hN
  rw [emptied_eq_bindRegion]
  exact hI.after_bindRegion hb hbase hN hfits

/-- The slot of `head` lies inside the address space (R52 (c), R53). -/
theorem BlockInv.slotAddr_head_lt {s : State} (hI : BlockInv s) (hN : s.N ≠ 0) :
    slotAddr s.base s.head < Config.addressCount := by
  have h1 := (hI.indices hN).1
  have h2 := (hI.region hN).2
  simp only [slotAddr, Config.addressCount]; omega

/-- Slot `i` after the oldest byte, counted before the `push`. -/
theorem addrAfter_pushed_tail {s : State} (hN : s.N ≠ 0) (b : Byte) (i : Nat) :
    addrAfter (pushed b s) (pushed b s).tail i = addrAfter s s.tail (if s.full then i + 1 else i) := by
  have h : addrAfter (pushed b s) = addrAfter s := by funext x i; simp [addrAfter]
  rw [h, pushed_tail]
  split
  · exact addrAfter_next hN s.tail i
  · rfl

/-- After a `push` the bytes held are those held before, the oldest of a full ring gone, and the byte stored (R58). -/
theorem BlockInv.heldWritten_pushed {s : State} (hI : BlockInv s) (hN : s.N ≠ 0) (b : Byte) :
    ∀ i < available (pushed b s),
      ((pushed b s).mem.read (addrAfter (pushed b s) (pushed b s).tail i)).isSome := by
  intro i hi
  have hr := hI.ringOk hN
  rw [available_pushed hr] at hi
  rw [addrAfter_pushed_tail hN]
  have hle : (if s.full then i + 1 else i) ≤ available s := by split at hi <;> simp_all
  rcases Nat.lt_or_eq_of_le hle with hlt | heq
  · rw [pushed_mem]; exact Memory.isSome_read_write _ _ _ _ (hI.heldWritten _ hlt)
  · rw [heq, addrAfter_available hr, read_pushed, if_pos rfl]; rfl

theorem BlockInv.after_pushed {s : State} (hI : BlockInv s) (hN : s.N ≠ 0) (b : Byte) :
    BlockInv (pushed b s) := by
  have hr := hI.ringOk hN
  have hr' := hr.after_pushed b
  have haddr : addrAfter (pushed b s) = addrAfter s := by funext x i; simp [addrAfter]
  exact {
    memory := by rw [pushed_mem]; exact Memory.wf_write hI.memory _ (hI.slotAddr_head_lt hN) b
    unbound := fun h => absurd h hr'.bound
    region := by simpa using hI.region
    indices := fun _ => ⟨hr'.head_lt, hr'.tail_lt⟩
    fullMeets := hr'.full_meets
    heldWritten := hI.heldWritten_pushed hN b
    producer := by simpa using hI.producer
    consumer := by simpa using hI.consumer
    burstFits := by simpa using hI.burstFits
    readFits := fun h => by
      have := hI.readFits (by simpa using h)
      have := available_le_pushed hr b
      rw [pushed_cRem]; omega
    peekFits := fun h => by
      obtain ⟨hcur, hw⟩ := hI.peekFits (by simpa using h)
      rw [pushed_cCur, pushed_cRem, pushed_N, haddr, pushed_mem]
      exact ⟨hcur, fun i hi => Memory.isSome_read_write _ _ _ _ (hw i hi)⟩ }

/-- A `pop` takes the oldest byte; a `READ` burst in flight must not need it any more (I8). -/
theorem BlockInv.after_popped {s : State} (hI : BlockInv s) (hN : s.N ≠ 0) (ha : available s ≠ 0)
    (hread : s.cMode = .read → s.cRem.toNat ≤ available s - 1) : BlockInv (popped s) := by
  have hr := hI.ringOk hN
  have hr' := hr.after_popped
  have hav := available_popped hr ha
  exact {
    hI with
    unbound := fun h => absurd h hN
    indices := fun _ => ⟨hr'.head_lt, hr'.tail_lt⟩
    fullMeets := hr'.full_meets
    heldWritten := fun i hi => by
      have := hI.heldWritten (i + 1) (by omega)
      rwa [← addrAfter_next hN] at this
    readFits := fun h => by rw [hav]; exact hread h }

theorem BlockInv.after_startWrite {s : State} (hI : BlockInv s) (hN : s.N ≠ 0) (len : Word) :
    BlockInv (startWrite len s) := by
  unfold startWrite
  split
  · exact hI
  · next hlen => exact { hI with unbound := fun h => absurd h hN, producer := by simpa using hlen }

theorem BlockInv.after_startRead {s : State} (hI : BlockInv s) (hN : s.N ≠ 0) {n : Word}
    (hn : n.toNat ≤ available s) : BlockInv (startRead n s) := by
  unfold startRead
  split
  · exact hI
  · next h0 =>
    exact {
      hI with
      unbound := fun h => absurd h hN
      consumer := by simpa using h0
      burstFits := hn.trans (hI.ringOk hN).available_le
      readFits := fun _ => hn
      peekFits := fun h => by cases h }

/-- The count a `READ` or a `PEEK` announces is held, before its answer and after it (R126). -/
theorem burstCount_le_available {s : State} (hI : BlockInv s) (hN : s.N ≠ 0) (len v : Word) :
    (burstCount len (available s)).toNat ≤ available (respond s.turn .ok v s) := by
  rw [(ringSideKept_respond ..).available_eq, burstCount, Word.toNat_ofNat_of_le (n := s.N)
    ((Nat.min_le_right _ _).trans (hI.ringOk hN).available_le)]
  exact Nat.min_le_right _ _

/-- The cursor of a `PEEK` starts at the oldest byte, so what it will visit is held (R124). -/
theorem BlockInv.after_startPeek {s : State} (hI : BlockInv s) (hN : s.N ≠ 0) {n : Word}
    (hn : n.toNat ≤ available s) : BlockInv (startPeek n s) := by
  unfold startPeek
  split
  · exact hI
  · next h0 =>
    exact {
      hI with
      unbound := fun h => absurd h hN
      consumer := by simpa using h0
      burstFits := hn.trans (hI.ringOk hN).available_le
      readFits := fun h => by cases h
      peekFits := fun _ => ⟨(hI.indices hN).2, fun i hi => hI.heldWritten i (hi.trans_le hn)⟩ }

theorem BlockInv.after_countPayload {s : State} (hI : BlockInv s) (hN : s.N ≠ 0) :
    BlockInv (countPayload s) :=
  { hI with unbound := fun h => absurd h hN, producer := by simp }

theorem BlockInv.after_countDelivered {s : State} (hI : BlockInv s) (hN : s.N ≠ 0) (hr : s.cRem ≠ 0) :
    BlockInv (countDelivered s) := by
  have hrem := Word.toNat_sub_one hr
  have hmode : s.cMode ≠ .idle := fun h => hr (hI.consumer.mp h)
  have keeps : ∀ m, m ≠ .idle → (countDelivered s).cMode = m → s.cMode = m := fun m hm h => by
    rw [countDelivered_cMode] at h
    split at h
    · exact absurd h.symm hm
    · exact h
  exact {
    hI with
    unbound := fun h => absurd h hN
    consumer := by simp [hmode]
    burstFits := by have := hI.burstFits; simp only [countDelivered_cRem, countDelivered_N]; omega
    readFits := fun h => by
      have := hI.readFits (keeps _ (by simp) h)
      have ha : available (countDelivered s) = available s := rfl
      rw [countDelivered_cRem, ha]; omega
    peekFits := fun h => by
      obtain ⟨hcur, hw⟩ := hI.peekFits (keeps _ (by simp) h)
      exact ⟨hcur, fun i hi => hw i (by rw [countDelivered_cRem] at hi; omega)⟩ }

/-- A `PEEK` data beat moves the cursor on, so what is still to be visited was to be visited before (R124). -/
theorem BlockInv.after_peekDelivered {s : State} (hI : BlockInv s) (hN : s.N ≠ 0) (hr : s.cRem ≠ 0)
    (hm : s.cMode = .peek) :
    BlockInv { countDelivered s with cCur := nextIndex s.cCur s.N } := by
  have hrem := Word.toNat_sub_one hr
  obtain ⟨-, hw⟩ := hI.peekFits hm
  exact {
    hI.after_countDelivered hN hr with
    peekFits := fun _ => ⟨nextIndex_lt hN, fun i hi => by
      have := hw (i + 1) (by simp only [countDelivered_cRem] at hi; omega)
      rwa [← addrAfter_next hN] at this⟩ }

/-- Every first beat keeps the invariant. -/
theorem BlockInv.after_effect {i : Instr} {s t : State} (hI : BlockInv s) (he : Effect i s t) : BlockInv t := by
  cases he with
  | wait => exact hI
  | illegal => exact hI.after_respond _ _ _
  | unbound => exact hI.after_respond _ _ _
  | answer => exact hI.after_respond _ _ _
  | init storage size _ _ hb h1 h2 h3 => exact (hI.after_bindRegion hb h1 h2 h3).after_respond _ _ _
  | reset _ _ hb hN => exact (hI.after_emptied hb hN).after_respond _ _ _
  | writeByte b _ _ _ hN => exact (hI.after_pushed hN b).after_respond _ _ _
  | write len _ _ _ hN => exact (hI.after_respond _ _ _).after_startWrite (by simpa using hN) len
  | readByte v _ _ hb hN ha =>
    exact ((hI.after_popped hN ha (fun h => by simp [hb] at h)).after_respond _ _ _).after_emit v
  | read len _ _ _ hN =>
    exact (hI.after_respond _ _ _).after_startRead (by simpa using hN) (burstCount_le_available hI hN len _)
  | peek len _ _ _ hN =>
    exact (hI.after_respond _ _ _).after_startPeek (by simpa using hN) (burstCount_le_available hI hN len _)
  | crc c =>
    have hC : BlockInv { s with crc := c } := { hI with }
    exact hC.after_respond _ _ _

/-- Every step keeps the invariant. -/
theorem BlockInv.after_step {s t : State} (hI : BlockInv s) (h : step s = .next t) : BlockInv t := by
  cases step_effect h with
  | noEvent => exact hI
  | nothingThere x _ rest => exact hI.given_turn rest x
  | present x w rest => exact (hI.given_turn rest s.turn).after_setSlot x (some w)
  | hardwareReset rest => exact (hI.given_turn rest s.turn).after_hardwareReset
  | reserved x _ rest => exact (hI.given_turn rest x).after_respond _ _ _
  | command x _ rest _ _ _ _ _ _ _ he => exact (hI.given_turn rest x).after_effect he
  | producerData b rest _ _ _ hN => exact ((hI.given_turn rest .p).after_pushed hN b).after_countPayload (by simpa using hN)
  | readData _ v rest _ hb hr hN ha =>
    have hread := hI.readFits hb
    have hcount : (s.cRem - 1).toNat ≤ available s - 1 := by rw [Word.toNat_sub_one hr]; omega
    have hcounted := (hI.given_turn rest .c).after_countDelivered hN hr
    exact (hcounted.after_popped hN ha fun _ => hcount).after_emit v
  | peekData _ v rest _ hb hr hN =>
    exact { (hI.given_turn rest .c).after_peekDelivered hN hr hb with }

end Sys2Proof.Safety
end

section
/-! SUPPORT. The family of spec/10_state.md: the state's invariant, and what a beat of each port may write. -/

namespace Sys2Proof.Safety

open Sys2Proof.Machine

/-- Settles O51: each operation keeps the invariant, and a step is one of them (`step_effect`). -/
theorem stepKeepsInv : Obligations.StepKeepsInv := fun _ _ hI h => hI.after_step h

/-- Settles O50: `State.reset` is a literal, and each field of the invariant is decided on it. -/
theorem invHoldsAtReset : Obligations.InvHoldsAtReset := by
  unfold Obligations.InvHoldsAtReset
  constructor <;> decide

/-- Settles O8: `portBeat` asks for the burst in flight before it looks at the command. -/
theorem busyPortTakesDataBeat : Obligations.BusyPortTakesDataBeat := by
  intro s wdata rest
  refine ⟨fun hs hb => ?_, fun hs hm => ?_, fun hs hm => ?_⟩
  · simp [step, hs, onEvent, portBeat, hb]
  · simp [step, hs, onEvent, portBeat, consumerDataBeat, hm]
  · simp [step, hs, onEvent, portBeat, consumerDataBeat, hm]

/-! I7 and the other ring invariants of R28. -/

/-- The bytes held, one for each place counted by `available()`. -/
theorem BlockInv.held_eq_map {s : State} (hI : BlockInv s) :
    held s = (List.range (available s)).map (fun i => (s.mem.read (addrAfter s s.tail i)).getD 0) := by
  refine List.filterMap_eq_map_iff_forall_eq_some.mpr fun i hi => ?_
  obtain ⟨v, hv⟩ := Option.isSome_iff_exists.mp (hI.heldWritten i (List.mem_range.mp hi))
  rw [hv]; rfl

theorem BlockInv.length_held {s : State} (hI : BlockInv s) : (held s).length = available s := by
  rw [hI.held_eq_map, List.length_map, List.length_range]

theorem BlockInv.getElem?_held {s : State} (hI : BlockInv s) {i : Nat} (hi : i < available s) :
    (held s)[i]? = s.mem.read (addrAfter s s.tail i) := by
  obtain ⟨v, hv⟩ := Option.isSome_iff_exists.mp (hI.heldWritten i hi)
  rw [hI.held_eq_map, List.getElem?_map, List.getElem?_range hi, Option.map_some, hv]; rfl

/-- Settles O53: I1 to I8 are read off the invariant, which the step keeps. -/
theorem ringInvariantsHold : Obligations.RingInvariantsHold := by
  intro s t hI h hN
  have hT := hI.after_step h
  have hr := hT.ringOk hN
  have hle := hr.available_le
  exact ⟨⟨hr.head_lt, hr.tail_lt⟩, hr.full_meets, by rw [free]; omega, hle, hr.full_iff, hr.empty_iff,
    ⟨hT.length_held, fun _ => hT.getElem?_held⟩, hT.readFits⟩

/-! What a beat of each port may write (R31, R32, R180). -/

/-- The frame of a beat of port `x`. -/
def PortFrame (x : Port) (s t : State) : Prop :=
  (x = .k → SameRing s t ∧ SameProducer s t ∧ SameConsumer s t ∧ SameStorage s t ∧ t.rdata = s.rdata) ∧
  (x = .c → t.base = s.base ∧ t.N = s.N ∧ t.head = s.head ∧ t.mem = s.mem ∧ SameProducer s t) ∧
  (x = .p → t.base = s.base ∧ t.N = s.N ∧ SameConsumer s t ∧ t.rdata = s.rdata) ∧
  (x = .h → SameProducer s t ∧ SameConsumer s t ∧ SameStorage s t ∧ t.rdata = s.rdata) ∧
  (x ≠ .k → t.crc = s.crc) ∧ t.params = s.params ∧ t.draws = s.draws

/-- What writes none of the things a frame names is within the frame of every port. -/
theorem RingSideKept.portFrame {s t : State} (h : RingSideKept s t) (hcrc : SameCrc s t) (x : Port) :
    PortFrame x s t := by
  obtain ⟨hring, hprod, hcons, hmem, hbus, hrdata⟩ := h
  obtain ⟨hcrc, hparams, hdraws⟩ := hcrc
  have ⟨hbase, hN, hhead, _⟩ := hring
  have hstore : SameStorage s t := ⟨fun a => by rw [hmem], hbus⟩
  exact ⟨fun _ => ⟨hring, hprod, hcons, hstore, hrdata⟩, fun _ => ⟨hbase, hN, hhead, hmem, hprod⟩,
    fun _ => ⟨hbase, hN, hcons, hrdata⟩, fun _ => ⟨hprod, hcons, hstore, hrdata⟩, fun _ => hcrc,
    hparams, hdraws⟩

theorem portFrame_respond (x y : Port) (r : Rsp) (v : Word) (s : State) :
    PortFrame x s (respond y r v s) :=
  (ringSideKept_respond y r v s).portFrame ⟨by simp, by simp, by simp⟩ x

/-- A first beat stays within the frame of the port whose turn it is. -/
theorem portFrame_of_effect {i : Instr} {s t : State} (he : Effect i s t) : PortFrame s.turn s t := by
  cases he with
  | wait => exact (RingSideKept.refl s).portFrame ⟨rfl, rfl, rfl⟩ _
  | illegal => exact portFrame_respond ..
  | unbound => exact portFrame_respond ..
  | answer => exact portFrame_respond ..
  | init storage size _ ht => simp [PortFrame, SameProducer, SameConsumer, SameStorage, ht]
  | reset _ ht => simp [PortFrame, SameProducer, SameConsumer, SameStorage, ht]
  | writeByte b _ ht => simp [PortFrame, SameConsumer, ht]
  | write len _ ht => simp [PortFrame, SameConsumer, ht]
  | readByte v _ ht => simp [PortFrame, SameProducer, popped, ht]
  | read len _ ht => simp [PortFrame, SameProducer, ht]
  | peek len _ ht => simp [PortFrame, SameProducer, ht]
  | crc c _ ht => simp [PortFrame, SameRing, SameProducer, SameConsumer, SameStorage, ht]

/-- Settles O10: the frame of every first beat and of every data beat. -/
theorem eachPortWritesItsOwn : Obligations.EachPortWritesItsOwn := by
  intro s t x wdata rest hs h
  change PortFrame x s t
  cases step_effect h with
  | noEvent h0 => rw [hs] at h0; cases h0
  | present _ _ _ h0 => rw [hs] at h0; cases h0
  | hardwareReset _ h0 => rw [hs] at h0; cases h0
  | nothingThere => exact (RingSideKept.refl s).portFrame ⟨rfl, rfl, rfl⟩ x
  | reserved y _ r => exact portFrame_respond x y .errIllegal 0 { s with script := r, turn := y }
  | command y _ r _ _ _ h0 _ _ _ he =>
    rw [hs] at h0; cases h0
    exact portFrame_of_effect he
  | producerData b r h0 => rw [hs] at h0; cases h0; simp [PortFrame, SameConsumer]
  | readData _ v r h0 => rw [hs] at h0; cases h0; simp [PortFrame, SameProducer, popped]
  | peekData _ v r h0 => rw [hs] at h0; cases h0; simp [PortFrame, SameProducer]

/-- Settles O11: of all the effects of a step only hardware reset and a binding `INIT` write `base` or `N`. -/
theorem onlyInitAndHardwareResetRebind : Obligations.OnlyInitAndHardwareResetRebind := by
  intro s t h hne
  cases step_effect h with
  | hardwareReset rest hs => exact .inl ⟨rest, hs, rfl, rfl⟩
  | command x wdata rest w i t hs hw hd hb he =>
    cases he with
    | init storage size hi ht =>
      obtain rfl : x = .h := ht
      subst hi
      exact .inr ⟨wdata, rest, w, storage, size, hs, hw, hd, by simp, by simp⟩
    | _ => simp [popped] at hne
  | _ => simp [popped] at hne

end Sys2Proof.Safety
end

section
/-! SUPPORT. Port K and the other ports (the opening of spec/44_crc_ops.md, spec/10_state.md R34): a beat of another port neither sees nor writes the CRC unit, a beat of port K sees and writes nothing else. -/

namespace Sys2Proof.Machine

/-- The outcome of a step with its next state changed. -/
def mapNext (f : State → State) : Result → Result
  | .next s => .next (f s)
  | .fault e => .fault e
  | .refused r => .refused r

@[simp] theorem mapNext_next (f : State → State) (s : State) : mapNext f (.next s) = .next (f s) := rfl

theorem mapNext_eq_next {f : State → State} {r : Result} {t : State} (h : mapNext f r = .next t) :
    ∃ v, r = .next v ∧ t = f v := by
  cases r with
  | next v => cases h; exact ⟨v, rfl, rfl⟩
  | fault => cases h
  | refused => cases h

/-- What a beat of port H, P or C does not read: the command and the accumulator on the side of port K, the
responses returned before, and the events to come. -/
structure Unread where
  kCmd : Option CommandWord
  crc : Crc
  earlier : List Reply
  script : List Event

/-- `s` with all that put in, the responses before its own. -/
def amid (o : Unread) (s : State) : State :=
  { s with kCmd := o.kCmd, crc := o.crc, replies := o.earlier ++ s.replies, script := o.script }

section
variable (o : Unread)

@[simp] theorem amid_base (s : State) : (amid o s).base = s.base := rfl
@[simp] theorem amid_N (s : State) : (amid o s).N = s.N := rfl
@[simp] theorem amid_head (s : State) : (amid o s).head = s.head := rfl
@[simp] theorem amid_tail (s : State) : (amid o s).tail = s.tail := rfl
@[simp] theorem amid_pBusy (s : State) : (amid o s).pBusy = s.pBusy := rfl
@[simp] theorem amid_pRem (s : State) : (amid o s).pRem = s.pRem := rfl
@[simp] theorem amid_cMode (s : State) : (amid o s).cMode = s.cMode := rfl
@[simp] theorem amid_cRem (s : State) : (amid o s).cRem = s.cRem := rfl
@[simp] theorem amid_cCur (s : State) : (amid o s).cCur = s.cCur := rfl
@[simp] theorem amid_mem (s : State) : (amid o s).mem = s.mem := rfl
@[simp] theorem amid_turn (s : State) : (amid o s).turn = s.turn := rfl
@[simp] theorem available_amid (s : State) : available (amid o s) = available s := rfl
@[simp] theorem free_amid (s : State) : free (amid o s) = free s := rfl
@[simp] theorem isEmpty_amid (s : State) : isEmpty (amid o s) = isEmpty s := rfl
@[simp] theorem isFull_amid (s : State) : isFull (amid o s) = isFull s := rfl
@[simp] theorem isHeld_amid (i : Instr) (s : State) : isHeld i (amid o s) = isHeld i s := rfl
@[simp] theorem emptied_amid (s : State) : emptied (amid o s) = amid o (emptied s) := rfl
@[simp] theorem bindRegion_amid (storage size : Word) (s : State) :
    bindRegion storage size (amid o s) = amid o (bindRegion storage size s) := rfl

@[simp] theorem portBusy_amid (s : State) (x : Port) : portBusy (amid o s) x = portBusy s x := by
  cases x <;> rfl

theorem slot_amid (s : State) {x : Port} (hx : x ≠ .k) : (amid o s).slot x = s.slot x := by
  cases x
  case k => exact absurd rfl hx
  all_goals rfl

theorem respond_amid {x : Port} (hx : x ≠ .k) (r : Rsp) (v : Word) (s : State) :
    respond x r v (amid o s) = amid o (respond x r v s) := by
  cases x
  case k => exact absurd rfl hx
  all_goals simp [respond, State.setSlot, amid]

@[simp] theorem startWrite_amid (n : Word) (s : State) :
    startWrite n (amid o s) = amid o (startWrite n s) := by
  unfold startWrite; split <;> rfl

@[simp] theorem startRead_amid (n : Word) (s : State) :
    startRead n (amid o s) = amid o (startRead n s) := by
  unfold startRead; split <;> rfl

@[simp] theorem startPeek_amid (n : Word) (s : State) :
    startPeek n (amid o s) = amid o (startPeek n s) := by
  unfold startPeek; split <;> rfl

@[simp] theorem discardOldest_amid (s : State) :
    discardOldest (amid o s) = amid o (discardOldest s) := by
  cases hf : s.full <;> simp [discardOldest, amid, hf]

theorem memWrite_amid (a : Nat) (v : Byte) (s : State) :
    memWrite a v (amid o s) = (memWrite a v s).map (amid o) := by
  unfold memWrite; split <;> rfl

theorem memRead_amid (a : Nat) (s : State) :
    memRead a (amid o s) = (memRead a s).map (Prod.map id (amid o)) := by
  unfold memRead
  rw [amid_mem]
  split
  · rfl
  · cases s.mem.read a <;> rfl

theorem push_amid (b : Byte) (s : State) : push b (amid o s) = (push b s).map (amid o) := by
  simp only [push, discardOldest_amid, memWrite_amid, amid_N, amid_base, amid_head]
  split
  · rfl
  · cases memWrite (slotAddr s.base s.head) b (discardOldest s) <;> rfl

theorem pop_amid (s : State) : pop (amid o s) = (pop s).map (Prod.map id (amid o)) := by
  simp only [pop, memRead_amid, available_amid, amid_N, amid_base, amid_tail]
  split
  · rfl
  · split
    · rfl
    · cases memRead (slotAddr s.base s.tail) s <;> rfl

/-- The tests all first beats share do not look past the block's own side. -/
theorem command_amid {i : Instr} {body : State → Result} {s : State} (hs : s.turn ≠ .k)
    (h : s.turn ∈ i.ports → body (amid o s) = mapNext (amid o) (body s)) :
    command i body (amid o s) = mapNext (amid o) (command i body s) := by
  simp only [command, amid_turn, amid_N, portBusy_amid, isHeld_amid, raise_eq_respond, respond_amid o hs]
  split
  · rfl
  · split
    · rfl
    · next hp =>
      split
      · rfl
      · split
        · rfl
        · exact h (by simpa using hp)

/-- The first beat of a command on port H, P or C. -/
theorem exec_amid (i : Instr) {s : State} (hs : s.turn ≠ .k) :
    exec i (amid o s) = mapNext (amid o) (exec i s) := by
  have crcOnly : s.turn ∉ [Port.k] := by simpa using hs
  cases i with
  | init storage size =>
    rw [exec_init, exec_init]
    refine command_amid o hs fun _ => ?_
    simp only [amid_turn, bindRegion_amid, respond_amid o hs]
    split
    · rfl
    · split <;> rfl
  | reset =>
    rw [exec_reset, exec_reset]
    exact command_amid o hs fun _ => by simp [respond_amid o hs]
  | writeByte b =>
    rw [exec_writeByte, exec_writeByte]
    refine command_amid o hs fun _ => ?_
    rw [push_amid]
    cases hp : push b s with
    | error f => rfl
    | ok s' =>
      obtain ⟨-, -, rfl⟩ := push_inv hp
      exact congrArg _ (respond_amid o (by simpa using hs) .ok 0 (pushed b s))
  | write len =>
    rw [exec_write, exec_write]
    exact command_amid o hs fun _ => by simp [respond_amid o hs]
  | readByte =>
    rw [exec_readByte, exec_readByte]
    refine command_amid o hs fun _ => ?_
    rw [pop_amid, available_amid, amid_turn, respond_amid o hs]
    split
    · rfl
    · cases hp : pop s with
      | error f => rfl
      | ok p =>
        obtain ⟨v, s'⟩ := p
        obtain ⟨-, -, -, -, rfl⟩ := pop_inv hp
        exact congrArg (fun u => Host.Outcome.next (emit v u)) (respond_amid o hs .ok 1 (popped s))
  | read len =>
    rw [exec_read, exec_read]
    exact command_amid o hs fun _ => by simp [respond_amid o hs]
  | peek len =>
    rw [exec_peek, exec_peek]
    exact command_amid o hs fun _ => by simp [respond_amid o hs]
  | available =>
    rw [exec_available, exec_available]
    exact command_amid o hs fun _ => by simp [respond_amid o hs]
  | free =>
    rw [exec_free, exec_free]
    exact command_amid o hs fun _ => by simp [respond_amid o hs]
  | isEmpty =>
    rw [exec_isEmpty, exec_isEmpty]
    exact command_amid o hs fun _ => by simp [respond_amid o hs]
  | isFull =>
    rw [exec_isFull, exec_isFull]
    exact command_amid o hs fun _ => by simp [respond_amid o hs]
  | crcClear =>
    rw [exec_crcClear, exec_crcClear]
    exact command_amid o hs fun h => absurd h crcOnly
  | crcByte b =>
    rw [exec_crcByte, exec_crcByte]
    exact command_amid o hs fun h => absurd h crcOnly
  | crcGet =>
    rw [exec_crcGet, exec_crcGet]
    exact command_amid o hs fun h => absurd h crcOnly

theorem firstBeat_amid {s : State} (hs : s.turn ≠ .k) :
    firstBeat (amid o s) = mapNext (amid o) (firstBeat s) := by
  simp only [firstBeat, amid_turn, slot_amid o s hs]
  cases s.slot s.turn with
  | none => rfl
  | some w =>
    simp only [commandBeat]
    cases decode w with
    | error e => exact congrArg _ (respond_amid o hs .errIllegal 0 s)
    | ok i => exact exec_amid o i hs

theorem producerDataBeat_amid (b : Byte) (s : State) :
    producerDataBeat b (amid o s) = mapNext (amid o) (producerDataBeat b s) := by
  simp only [producerDataBeat, push_amid, amid_pRem]
  split
  · rfl
  · cases push b s <;> rfl

theorem readDataBeat_amid (s : State) :
    readDataBeat (amid o s) = mapNext (amid o) (readDataBeat s) := by
  simp only [readDataBeat, pop_amid, amid_cRem]
  split
  · rfl
  · cases pop s <;> rfl

theorem peekDataBeat_amid (s : State) :
    peekDataBeat (amid o s) = mapNext (amid o) (peekDataBeat s) := by
  simp only [peekDataBeat, memRead_amid, amid_cRem, amid_N, amid_base, amid_cCur]
  split
  · rfl
  · split
    · rfl
    · cases memRead (slotAddr s.base s.cCur) s <;> rfl

/-- A beat of port H, P or C does the same whatever stands at port K, in the accumulator, in the script and in
the responses before it. -/
theorem portBeat_amid (wdata : Byte) {s : State} (hs : s.turn ≠ .k) :
    portBeat wdata (amid o s) = mapNext (amid o) (portBeat wdata s) := by
  unfold portBeat
  rw [amid_turn]
  cases hx : s.turn with
  | h => exact firstBeat_amid o hs
  | p =>
    simp only [amid_pBusy, producerDataBeat_amid, firstBeat_amid o hs]
    split <;> rfl
  | c =>
    simp only [amid_cMode, consumerDataBeat, firstBeat_amid o hs, readDataBeat_amid, peekDataBeat_amid]
    cases s.cMode <;> rfl
  | k => exact absurd hx hs

end

/-! A beat of port K. -/

/-- What a beat of port K makes of the accumulator and of the command on its port, and what it answers. -/
def crcTurn (params : Config.Params) (crc : Crc) : Option CommandWord → Crc × List Reply
  | none => (crc, [])
  | some w =>
    match decode w with
    | .ok .crcClear => (params.crcSeed, [⟨.k, .ok, 0⟩])
    | .ok (.crcByte b) => (crcUpdate crc b, [⟨.k, .ok, 0⟩])
    | .ok .crcGet => (crc, [⟨.k, .ok, (crc ^^^ params.crcXorOut).setWidth 32⟩])
    | _ => (crc, [⟨.k, .errIllegal, 0⟩])

/-- The state after a beat of port K. -/
def afterCrcTurn (s : State) : State :=
  { s with
    turn := .k
    kCmd := none
    crc := (crcTurn s.params s.crc s.kCmd).1
    replies := s.replies ++ (crcTurn s.params s.crc s.kCmd).2 }

/-- Port K has no burst and holds nothing: its beat takes the command that stands there and writes the CRC
unit alone. -/
theorem portBeat_k (wdata : Byte) (s : State) :
    portBeat wdata { s with turn := .k } = .next (afterCrcTurn s) := by
  simp only [portBeat, firstBeat, State.slot, afterCrcTurn]
  cases hk : s.kCmd with
  | none => simp [crcTurn, ← hk]
  | some w =>
    simp only [commandBeat, crcTurn]
    cases hd : decode w with
    | error e => rfl
    | ok i => cases i <;> rfl

theorem step_beat {s : State} {x : Port} {wdata : Byte} {rest : List Event}
    (hs : s.script = .beat x wdata :: rest) :
    step s = portBeat wdata { s with script := rest, turn := x } := by
  simp [step, hs, onEvent]

theorem step_beat_k {s : State} {wdata : Byte} {rest : List Event} (hs : s.script = .beat .k wdata :: rest) :
    step s = .next (afterCrcTurn { s with script := rest }) := by
  rw [step_beat hs]; exact portBeat_k wdata { s with script := rest }

/-- `s` at the turn of port `x`, without what a beat of port H, P or C does not read. -/
def alone (x : Port) (s : State) : State :=
  { s with turn := x, kCmd := none, crc := 0, replies := [], script := [] }

/-- The beat of another port, with what it does not read put back afterwards. -/
theorem step_beat_amid {s : State} {x : Port} {wdata : Byte} {rest : List Event} (hx : x ≠ .k)
    (hs : s.script = .beat x wdata :: rest) :
    step s = mapNext (amid ⟨s.kCmd, s.crc, s.replies, rest⟩)
      (portBeat wdata (alone x s)) := by
  have hs' : amid ⟨s.kCmd, s.crc, s.replies, rest⟩ (alone x s) = { s with script := rest, turn := x } := by
    simp [amid, alone]
  rw [step_beat hs, ← portBeat_amid _ wdata (s := alone x s) hx, hs']

end Sys2Proof.Machine

namespace Sys2Proof.Safety

open Sys2Proof.Machine

theorem run_two_inv {s t : State} (h : run 2 s = .next t) : ∃ v, step s = .next v ∧ step v = .next t := by
  obtain ⟨v, hv, h⟩ := run_succ_inv h
  obtain ⟨t', ht, h⟩ := run_succ_inv h
  cases run_zero_inv h
  exact ⟨v, hv, ht⟩

/-- Settles O47: in both orders the beat of the other port runs on the same state but for what it does not
read (`step_beat_amid`), and the beat of port K finds the same command and accumulator (`step_beat_k`). -/
theorem crcBeatsCommuteWithOtherPorts : Obligations.CrcBeatsCommuteWithOtherPorts := by
  intro s t u x a b rest hx ht hu
  obtain ⟨t₁, ht₁, ht⟩ := run_two_inv ht
  obtain ⟨u₁, hu₁, hu⟩ := run_two_inv hu
  have hparams : u₁.params = s.params := by
    obtain ⟨-, -, -, -, -, hparams, -⟩ := eachPortWritesItsOwn _ _ _ _ _ rfl hu₁
    exact hparams
  rw [step_beat_k rfl] at ht₁
  cases ht₁
  rw [step_beat_amid hx rfl] at ht hu₁
  obtain ⟨v, hv, rfl⟩ := mapNext_eq_next ht
  obtain ⟨v', hv', rfl⟩ := mapNext_eq_next hu₁
  obtain rfl : v = v' := Host.Outcome.next.inj (hv.symm.trans hv')
  rw [step_beat_k rfl] at hu
  cases hu
  refine ⟨by simp [amid, afterCrcTurn, ← hparams], ?_⟩
  have hswap : (s.replies ++ ((crcTurn s.params s.crc s.kCmd).2 ++ v.replies)).Perm
      (s.replies ++ (v.replies ++ (crcTurn s.params s.crc s.kCmd).2)) :=
    List.perm_append_comm.append_left s.replies
  rw [← hparams] at hswap
  simpa [amid, afterCrcTurn, ← hparams] using hswap

end Sys2Proof.Safety
end

section
/-! SUPPORT. What a step does to the ring, storage and `RDATA`, said once, and the ring as a queue that overwrites (spec/20_memory.md R51, R54, R57, spec/41_producer_ops.md R110, spec/42_consumer_ops.md R120, R124). -/

namespace Sys2Proof.Safety

open Sys2Proof.Machine

/-- The ring registers, storage and the bus are as they were. -/
structure RingAndStorageKept (s t : State) : Prop where
  ring : SameRing s t
  mem : t.mem = s.mem
  bus : t.bus = s.bus

theorem RingAndStorageKept.held_eq {s t : State} (h : RingAndStorageKept s t) : held t = held s := by
  obtain ⟨⟨hbase, hN, hhead, htail, hfull⟩, hm, -⟩ := h
  exact held_congr hbase hN hhead htail hfull hm

/-- The next event may empty the ring: hardware reset, or a beat of port H that finds a control operation there
(R100, R101, R190). -/
def MayEmptyRing (s : State) : Prop :=
  s.script.head? = some .hardwareReset ∨
    ∃ wdata w i, s.script.head? = some (.beat .h wdata) ∧ s.hCmd = some w ∧ decode w = .ok i ∧
      i.control = true

/-- Everything a step can do to the ring, storage and `RDATA` (R51, R54, R110, R120, R124). -/
inductive RingEffect (s t : State) : Prop
  | kept (hk : RingAndStorageKept s t) (hd : t.rdata = s.rdata)
  | emptied (hby : MayEmptyRing s) (ha : available t = 0) (hm : t.mem = s.mem) (hb : t.bus = s.bus)
      (hd : t.rdata = s.rdata)
  | pushed (b : Byte) (hN : s.N ≠ 0) (hk : RingAndStorageKept (pushed b s) t) (hd : t.rdata = s.rdata)
  | popped (v : Byte) (hN : s.N ≠ 0) (ha : available s ≠ 0) (hc : s.cMode ≠ .peek)
      (hv : s.mem.read (slotAddr s.base s.tail) = some v) (hk : RingAndStorageKept (popped s) t)
      (hd : t.rdata = s.rdata ++ [v])
  | peeked (v : Byte) (hN : s.N ≠ 0) (hc : s.cMode = .peek)
      (hv : s.mem.read (slotAddr s.base s.cCur) = some v)
      (hk : RingAndStorageKept { s with bus := s.bus ++ [.read (slotAddr s.base s.cCur)] } t)
      (hd : t.rdata = s.rdata ++ [v])

theorem RingSideKept.ringEffect {s t : State} (h : RingSideKept s t) : RingEffect s t :=
  .kept ⟨h.ring, h.mem, h.bus⟩ h.rdata

/-- The inversion of `step`, as far as the ring, storage and `RDATA` go. -/
theorem step_ringEffect {s t : State} (h : step s = .next t) : RingEffect s t := by
  cases step_effect h with
  | noEvent => exact (RingSideKept.refl s).ringEffect
  | nothingThere => exact .kept (by constructor <;> simp [SameRing]) rfl
  | present => exact .kept (by constructor <;> simp [SameRing]) (by simp)
  | reserved => exact .kept (by constructor <;> simp [SameRing]) (by simp)
  | hardwareReset rest hs => exact .emptied (.inl (by rw [hs]; rfl)) (by simp [available]) rfl rfl rfl
  | command x wdata rest w i t hs hw hd _ he =>
    have hby : x = .h → i.control = true → MayEmptyRing s := by
      rintro rfl hc
      exact .inr ⟨wdata, w, i, by rw [hs]; rfl, hw, hd, hc⟩
    cases he with
    | init storage size hi ht =>
      exact .emptied (hby ht (by rw [hi]; rfl)) (by simp [available]) (by simp) (by simp) (by simp)
    | reset hi ht =>
      exact .emptied (hby ht (by rw [hi]; rfl)) (by simp [available]) (by simp) (by simp) (by simp)
    | writeByte b _ _ _ hN =>
      exact .pushed b hN (by constructor <;> simp [SameRing, pushed_full, pushed_tail]) (by simp)
    | readByte v _ _ hb hN ha hv =>
      have hc : s.cMode ≠ .peek := by rw [show s.cMode = .idle from hb]; nofun
      exact .popped v hN ha hc hv (by constructor <;> simp [SameRing, popped]) (by simp [popped])
    | _ => exact .kept (by constructor <;> simp [SameRing]) (by simp)
  | producerData b _ _ _ _ hN =>
    exact .pushed b hN (by constructor <;> simp [SameRing, pushed_full, pushed_tail]) (by simp)
  | readData _ v _ _ hb _ hN ha hv =>
    exact .popped v hN ha (by rw [hb]; nofun) hv (by constructor <;> simp [SameRing, popped]) (by simp [popped])
  | peekData _ v _ _ hb _ hN hv =>
    exact .peeked v hN hb hv (by constructor <;> simp [SameRing]) (by simp)

/-! What a step accessed, stored, delivered and removed. -/

theorem accesses_of_bus {s t : State} {acc : List Access} (h : t.bus = s.bus ++ acc) : accesses s t = acc := by
  rw [accesses, h, List.drop_left]

theorem delivered_of_rdata {s t : State} {bs : List Byte} (h : t.rdata = s.rdata ++ bs) : delivered s t = bs := by
  rw [delivered, h, List.drop_left]

theorem accesses_of_same {s t : State} (h : t.bus = s.bus) : accesses s t = [] :=
  accesses_of_bus (by rw [h, List.append_nil])

theorem delivered_of_same {s t : State} (h : t.rdata = s.rdata) : delivered s t = [] :=
  delivered_of_rdata (by rw [h, List.append_nil])

theorem produced_of_bus {s t : State} {acc : List Access} (h : t.bus = s.bus ++ acc) :
    produced s t = acc.filterMap storedByte := by
  rw [produced, accesses_of_bus h]

theorem produced_of_same {s t : State} (h : t.bus = s.bus) : produced s t = [] := by
  rw [produced, accesses_of_same h]; rfl

theorem removed_of_same {s t : State} (h : t.rdata = s.rdata) : removed s t = [] := by
  rw [removed, delivered_of_same h, ite_self]

/-! The ring as a queue. -/

/-- The oldest byte of a ring that is not empty has been written (R58). -/
theorem BlockInv.read_oldest {s : State} (hI : BlockInv s) (hN : s.N ≠ 0) (ha : available s ≠ 0) :
    ∃ v, s.mem.read (slotAddr s.base s.tail) = some v := by
  obtain ⟨-, htail⟩ := hI.indices hN
  have hw := hI.heldWritten 0 (Nat.pos_of_ne_zero ha)
  rw [addrAfter_zero htail] at hw
  exact Option.isSome_iff_exists.mp hw

/-- Where there is room the slot of `head` holds none of the bytes held. -/
theorem addrAfter_ne_slotAddr_head {s : State} (h : RingOk s) (hf : s.full = false) {i : Nat}
    (hi : i < available s) : addrAfter s s.tail i ≠ slotAddr s.base s.head := by
  have hroom : available s < s.N.toNat :=
    lt_of_le_of_ne h.available_le fun ha => by simp [h.full_iff.mpr ha] at hf
  rw [← addrAfter_available h]
  intro heq
  have hmod : s.tail.toNat + i ≡ s.tail.toNat + available s [MOD s.N.toNat] := Nat.add_left_cancel heq
  exact hi.ne ((Nat.ModEq.add_left_cancel' _ hmod).eq_of_lt_of_lt (hi.trans hroom) hroom)

/-- Where there is room a `push` appends its byte (R110). -/
theorem held_pushed_of_not_full {s : State} (h : RingOk s) (hf : s.full = false) (b : Byte) :
    held (pushed b s) = held s ++ [b] := by
  have hcount : available (pushed b s) = available s + 1 := by simp [available_pushed h, hf]
  have haddr (i : Nat) : addrAfter (pushed b s) (pushed b s).tail i = addrAfter s s.tail i := by
    simp [addrAfter_pushed_tail h.bound, hf]
  have hlast : (pushed b s).mem.read (addrAfter s s.tail (available s)) = some b := by
    rw [addrAfter_available h, read_pushed, if_pos rfl]
  have hothers : ∀ i ∈ List.range (available s),
      (pushed b s).mem.read (addrAfter s s.tail i) = s.mem.read (addrAfter s s.tail i) := fun i hi => by
    rw [read_pushed, if_neg (addrAfter_ne_slotAddr_head h hf (List.mem_range.mp hi))]
  simp only [held, hcount, haddr, List.range_succ, List.filterMap_append, List.filterMap_congr hothers,
    List.filterMap_cons, hlast, List.filterMap_nil]

/-- A `pop` takes the oldest byte off those held (R120). -/
theorem held_popped {s : State} (h : RingOk s) (ha : available s ≠ 0) {v : Byte}
    (hv : s.mem.read (slotAddr s.base s.tail) = some v) : held s = v :: held (popped s) := by
  have hcount : available s = available (popped s) + 1 := by rw [available_popped h ha]; omega
  have hnext (i : Nat) : s.mem.read (addrAfter s s.tail (i + 1)) =
      (popped s).mem.read (addrAfter (popped s) (popped s).tail i) := by
    rw [← addrAfter_next h.bound]; rfl
  rw [← addrAfter_zero h.tail_lt] at hv
  simp only [held, hcount, List.range_succ_eq_map, List.filterMap_cons, hv, List.filterMap_map,
    Function.comp_def, Nat.succ_eq_add_one, hnext]

/-- A `push` on a full ring keeps what a `push` keeps once the oldest byte is gone. -/
theorem held_pushed_of_full {s : State} (hf : s.full = true) (b : Byte) :
    held (pushed b s) = held (pushed b (popped s)) := by
  apply held_congr <;> simp [pushed_tail, pushed_full, popped, hf]

/-- The bytes held after a `push` (R110). -/
theorem BlockInv.held_pushed {s : State} (hI : BlockInv s) (hN : s.N ≠ 0) (b : Byte) :
    held (pushed b s) = overwriteAppend s.N.toNat (held s) b := by
  have hr := hI.ringOk hN
  rw [overwriteAppend, hI.length_held]
  split
  · next hcount =>
    have hf := hr.full_iff.mpr hcount
    have ha : available s ≠ 0 := by rw [hcount]; exact Word.toNat_ne_zero hN
    obtain ⟨v, hv⟩ := hI.read_oldest hN ha
    rw [held_pushed_of_full hf, held_pushed_of_not_full hr.after_popped rfl, held_popped hr ha hv, List.tail_cons]
  · next hcount =>
    exact held_pushed_of_not_full hr (by simpa using mt hr.full_iff.mp hcount) b

/-- The ring is a bounded queue that overwrites: a step empties it, or leaves it, or appends the byte it
stores, or removes the oldest and delivers it (R110, R120, R124). -/
theorem BlockInv.queue_step {s t : State} (hI : BlockInv s) (h : step s = .next t) :
    (held t = [] ∧ produced s t = [] ∧ removed s t = [] ∧ MayEmptyRing s) ∨
    (held t = held s ∧ produced s t = [] ∧ removed s t = []) ∨
    (∃ b, held t = overwriteAppend s.N.toNat (held s) b ∧ produced s t = [b] ∧ removed s t = []) ∨
    (∃ v, held s = v :: held t ∧ produced s t = [] ∧ removed s t = [v]) := by
  cases step_ringEffect h with
  | kept hk hd => exact .inr (.inl ⟨hk.held_eq, produced_of_same hk.bus, removed_of_same hd⟩)
  | emptied hby ha _ hb hd => exact .inl ⟨by simp [held, ha], produced_of_same hb, removed_of_same hd, hby⟩
  | pushed b hN hk hd =>
    exact .inr (.inr (.inl ⟨b, hk.held_eq.trans (hI.held_pushed hN b),
      produced_of_bus (hk.bus.trans (pushed_bus b s)), removed_of_same hd⟩))
  | popped v hN ha hc hv hk hd =>
    have hheld : held s = v :: held t := by rw [hk.held_eq]; exact held_popped (hI.ringOk hN) ha hv
    exact .inr (.inr (.inr ⟨v, hheld, produced_of_bus hk.bus, by rw [removed, if_neg hc, delivered_of_rdata hd]⟩))
  | peeked v _ hc _ hk _ =>
    exact .inr (.inl ⟨hk.held_eq, produced_of_bus hk.bus, if_pos hc⟩)

end Sys2Proof.Safety
end

section
/-! SUPPORT. No beat faults in a state that meets the invariant (spec/20_memory.md R53, R58, spec/42_consumer_ops.md R122, spec/45_common_laws.md R160). -/

namespace Sys2Proof.Safety

open Sys2Proof.Machine

/-- The slot of an index lies inside the address space (R52 (c), R53). -/
theorem BlockInv.slotAddr_lt {s : State} (hI : BlockInv s) (hN : s.N ≠ 0) {x : Word}
    (hx : x.toNat < s.N.toNat) : slotAddr s.base x < Config.addressCount := by
  obtain ⟨-, hfits⟩ := hI.region hN
  simp only [slotAddr, Config.addressCount]
  omega

/-- The byte under the cursor of a `PEEK` burst has been written (R58). -/
theorem BlockInv.read_cursor {s : State} (hI : BlockInv s) (hm : s.cMode = .peek) :
    ∃ v, s.mem.read (slotAddr s.base s.cCur) = some v := by
  have hrem : s.cRem ≠ 0 := fun h => by simp [hI.consumer.mpr h] at hm
  obtain ⟨hcur, hw⟩ := hI.peekFits hm
  have hw := hw 0 (Word.toNat_pos hrem)
  rw [addrAfter_zero hcur] at hw
  exact Option.isSome_iff_exists.mp hw

/-- A bound ring takes every byte. -/
theorem BlockInv.push_ok {s : State} (hI : BlockInv s) (hN : s.N ≠ 0) (b : Byte) :
    push b s = .ok (pushed b s) :=
  Machine.push_ok hN (hI.slotAddr_head_lt hN)

/-- A ring that is not empty gives up a byte. -/
theorem BlockInv.pop_ok {s : State} (hI : BlockInv s) (hN : s.N ≠ 0) (ha : available s ≠ 0) :
    ∃ v, pop s = .ok (v, popped s) := by
  obtain ⟨-, htail⟩ := hI.indices hN
  obtain ⟨v, hv⟩ := hI.read_oldest hN ha
  exact ⟨v, Machine.pop_ok hN ha (hI.slotAddr_lt hN htail) hv⟩

/-- A first beat faults only where the operation's own rule does. -/
theorem command_ne_fault {i : Instr} {body : State → Result} {s : State} {f : Fault}
    (hbody : (i.needsBinding = true → s.N ≠ 0) → body s ≠ .fault f) : command i body s ≠ .fault f := by
  rcases command_cases i body s with ⟨e, -⟩ | ⟨e, -⟩ | ⟨e, -⟩ | ⟨e, -, -, -, hN⟩ <;> rw [e]
  · nofun
  · nofun
  · nofun
  · exact hbody hN

theorem exec_ne_fault {s : State} (hI : BlockInv s) (i : Instr) (f : Fault) : exec i s ≠ .fault f := by
  cases i with
  | writeByte b =>
    rw [exec_writeByte]
    refine command_ne_fault fun hN => ?_
    rw [hI.push_ok (hN rfl)]
    nofun
  | readByte =>
    rw [exec_readByte]
    refine command_ne_fault fun hN => ?_
    split
    · nofun
    · next ha =>
      obtain ⟨v, hv⟩ := hI.pop_ok (hN rfl) ha
      rw [hv]
      nofun
  | init storage size =>
    rw [exec_init]
    refine command_ne_fault fun _ => ?_
    split
    · nofun
    · split <;> nofun
  | _ =>
    simp only [exec_reset, exec_write, exec_read, exec_peek, exec_available, exec_free, exec_isEmpty,
      exec_isFull, exec_crcClear, exec_crcByte, exec_crcGet]
    exact command_ne_fault fun _ => by nofun

theorem firstBeat_ne_fault {s : State} (hI : BlockInv s) (f : Fault) : firstBeat s ≠ .fault f := by
  unfold firstBeat
  split
  · nofun
  · unfold commandBeat
    split
    · nofun
    · exact exec_ne_fault hI _ f

/-- While a burst is in flight the block is bound (R173). -/
theorem BlockInv.bound_of_burst {s : State} (hI : BlockInv s) (h : burstInFlight s = true) : s.N ≠ 0 := by
  intro hN
  obtain ⟨-, -, -, -, hbusy, hmode⟩ := hI.unbound hN
  simp [burstInFlight, hbusy, hmode] at h

theorem producerDataBeat_ne_fault {s : State} (hI : BlockInv s) (hb : s.pBusy = true) (b : Byte) (f : Fault) :
    producerDataBeat b s ≠ .fault f := by
  have hN := hI.bound_of_burst (by simp [burstInFlight, hb])
  have hrem : s.pRem ≠ 0 := fun h => by simp [hI.producer.mpr h] at hb
  rw [producerDataBeat, if_neg hrem, hI.push_ok hN]
  nofun

theorem readDataBeat_ne_fault {s : State} (hI : BlockInv s) (hm : s.cMode = .read) (f : Fault) :
    readDataBeat s ≠ .fault f := by
  have hN := hI.bound_of_burst (by simp [burstInFlight, hm])
  have hrem : s.cRem ≠ 0 := fun h => by simp [hI.consumer.mpr h] at hm
  have ha : available s ≠ 0 := by
    have := hI.readFits hm
    have := Word.toNat_pos hrem
    omega
  obtain ⟨v, hv⟩ := hI.pop_ok hN ha
  rw [readDataBeat, if_neg hrem, hv]
  nofun

theorem peekDataBeat_ne_fault {s : State} (hI : BlockInv s) (hm : s.cMode = .peek) (f : Fault) :
    peekDataBeat s ≠ .fault f := by
  have hN := hI.bound_of_burst (by simp [burstInFlight, hm])
  have hrem : s.cRem ≠ 0 := fun h => by simp [hI.consumer.mpr h] at hm
  obtain ⟨hcur, -⟩ := hI.peekFits hm
  obtain ⟨v, hv⟩ := hI.read_cursor hm
  rw [peekDataBeat, if_neg hrem, if_neg hN, memRead_ok (hI.slotAddr_lt hN hcur) hv]
  nofun

theorem portBeat_ne_fault {s : State} (hI : BlockInv s) (wdata : Byte) (f : Fault) :
    portBeat wdata s ≠ .fault f := by
  unfold portBeat
  split
  · exact firstBeat_ne_fault hI f
  · split
    · next hb => exact producerDataBeat_ne_fault hI hb wdata f
    · exact firstBeat_ne_fault hI f
  · split
    · exact firstBeat_ne_fault hI f
    · unfold consumerDataBeat
      split
      · nofun
      · next hm => exact readDataBeat_ne_fault hI hm f
      · next hm => exact peekDataBeat_ne_fault hI hm f
  · exact firstBeat_ne_fault hI f

end Sys2Proof.Safety
end

section
/-! SUPPORT. The family of spec/20_memory.md: accesses, faults, and the order of delivery. -/

namespace Sys2Proof.Safety

open Sys2Proof.Machine

/-- Settles O52: only a beat can fault, and under the invariant the ring takes the byte
stored and holds the byte read. -/
theorem noStepFaults : Obligations.NoStepFaults := by
  intro s f hI
  unfold step
  split
  · nofun
  · next e rest _ =>
    cases e with
    | present x w => simp only [onEvent, present]; split <;> nofun
    | beat x wdata => exact portBeat_ne_fault (hI.given_turn rest x) wdata f
    | hardwareReset => nofun

/-- Settles O54: the one access of a step goes to the slot of `head`, `tail` or `c_cur`, and each
of them is below `N`. -/
theorem accessesStayInBoundRegion : Obligations.AccessesStayInBoundRegion := by
  intro s t hI h acc hacc
  cases step_ringEffect h with
  | kept hk => simp [accesses_of_same hk.bus] at hacc
  | emptied _ _ _ hb => simp [accesses_of_same hb] at hacc
  | pushed b hN hk =>
    obtain ⟨hhead, -⟩ := hI.indices hN
    rw [accesses_of_bus (hk.bus.trans (pushed_bus b s)), List.mem_singleton] at hacc
    subst hacc
    exact ⟨Nat.le_add_right .., Nat.add_lt_add_left hhead _⟩
  | popped v hN _ _ _ hk =>
    obtain ⟨-, htail⟩ := hI.indices hN
    rw [accesses_of_bus (s := s) hk.bus, List.mem_singleton] at hacc
    subst hacc
    exact ⟨Nat.le_add_right .., Nat.add_lt_add_left htail _⟩
  | peeked v _ hc _ hk =>
    obtain ⟨hcur, -⟩ := hI.peekFits hc
    rw [accesses_of_bus (s := s) hk.bus, List.mem_singleton] at hacc
    subst hacc
    exact ⟨Nat.le_add_right .., Nat.add_lt_add_left hcur _⟩

/-! The order of delivery (R57). -/

theorem overwriteAppend_sublist (capacity : Nat) (q : List Byte) (b : Byte) :
    (overwriteAppend capacity q b).Sublist (q ++ [b]) := by
  unfold overwriteAppend
  split
  · exact (List.tail_sublist q).append_right [b]
  · exact .refl _

/-- R57 (a), (b) for one step. -/
theorem BlockInv.delivered_in_order_step {s t : State} (hI : BlockInv s) (h : step s = .next t) :
    (removed s t ++ held t).Sublist (held s ++ produced s t) := by
  obtain ⟨hh, hp, hr, -⟩ | ⟨hh, hp, hr⟩ | ⟨b, hh, hp, hr⟩ | ⟨v, hh, hp, hr⟩ := hI.queue_step h <;>
    rw [hh, hp, hr]
  · exact List.nil_sublist _
  · simp
  · exact overwriteAppend_sublist ..
  · simp

theorem history_succ_inv {k : Nat} {s u : State} {p r : List Byte} (h : history (k + 1) s = some (p, r, u)) :
    ∃ t p' r', step s = .next t ∧ history k t = some (p', r', u) ∧
      p = produced s t ++ p' ∧ r = removed s t ++ r' := by
  simp only [history] at h
  split at h
  · next t ht =>
    split at h
    · next p' r' u' hu => cases h; exact ⟨t, p', r', ht, hu, rfl, rfl⟩
    · cases h
  · cases h
  · cases h

/-- Settles O57, by induction on the number of steps: what the first step removes comes before what the rest
remove, and what it stores comes before what they store. -/
theorem deliveredInProductionOrderAtMostOnce : Obligations.DeliveredInProductionOrderAtMostOnce := by
  intro k
  induction k with
  | zero => intro s t p r _ h; cases h; simp
  | succ k ih =>
    intro s u p r hI h
    obtain ⟨t, p', r', ht, hu, rfl, rfl⟩ := history_succ_inv h
    have hrest : (r' ++ held u).Sublist (held t ++ p') := ih t u p' r' (hI.after_step ht) hu
    have hfirst := hI.delivered_in_order_step ht
    calc removed s t ++ r' ++ held u
      _ = removed s t ++ (r' ++ held u) := List.append_assoc ..
      List.Sublist _ (removed s t ++ (held t ++ p')) := hrest.append_left _
      _ = removed s t ++ held t ++ p' := (List.append_assoc ..).symm
      List.Sublist _ (held s ++ produced s t ++ p') := hfirst.append_right _
      _ = held s ++ (produced s t ++ p') := List.append_assoc ..

/-! The rest of the family. -/

/-- Settles O55: of the effects of a step only a `push` stores, and only a `pop` and a `PEEK` beat load, one
byte each. -/
theorem oneByteAccessPerStep : Obligations.OneByteAccessPerStep := by
  intro s t h
  cases step_ringEffect h with
  | kept hk hd => simp [accesses_of_same hk.bus, hk.bus, hk.mem, hd]
  | emptied _ _ hm hb hd => simp [accesses_of_same hb, hb, hm, hd]
  | pushed b _ hk hd =>
    have hb := hk.bus.trans (pushed_bus b s)
    have hm := hk.mem.trans (pushed_mem b s)
    rw [accesses_of_bus hb]
    exact ⟨hb, .inr (.inl ⟨_, b, rfl, hm, hd⟩)⟩
  | popped v _ _ _ hv hk hd =>
    rw [accesses_of_bus (s := s) hk.bus]
    exact ⟨hk.bus, .inr (.inr ⟨_, v, rfl, hv, hk.mem, hd⟩)⟩
  | peeked v _ _ hv hk hd =>
    rw [accesses_of_bus (s := s) hk.bus]
    exact ⟨hk.bus, .inr (.inr ⟨_, v, rfl, hv, hk.mem, hd⟩)⟩

/-- Settles O18: no test turns the command away, and its own rule finds a region that is
not null and does not fit. -/
theorem initPastTopIsRefused : Obligations.InitPastTopIsRefused := by
  intro s storage size ht hb h1 h2 h3
  have hnull : nullRegion storage size = false := by
    simp only [nullRegion, Config.nullRef, beq_eq_false_iff_ne.mpr h1, beq_eq_false_iff_ne.mpr h2, Bool.or_self]
  have hfits : regionFits storage size = false := decide_eq_false (Nat.not_le.mpr h3)
  rw [exec_init, command_runs (by rw [ht]; rfl) (by simp [ht, Instr.ports]) (by simp [isHeld, hb])
    (by simp [Instr.needsBinding])]
  simp [hnull, hfits]

end Sys2Proof.Safety
end

section
/-! SUPPORT. The command word and the decoder: an operation is decoded from the words that carry its opcode and the operands its format reads, and from no other; the reserved opcodes are the rest (spec/30_encoding.md R72, R75 to R78, R80). -/

namespace Sys2Proof

open Sys2Proof.Safety

/-! The fields of an encoded operation; `Laws.opField_encode` is the first. -/

theorem aField_encode (i : Instr) : aField (encode i) = i.aOperand :=
  (BitVec.extractLsb'_append_eq_of_le (Nat.le_refl 32)).trans BitVec.extractLsb'_append_eq_right

theorem bField_encode (i : Instr) : bField (encode i) = i.bOperand :=
  BitVec.extractLsb'_append_eq_right

/-- The byte of format D is the low byte of `B`. -/
theorem bByte_eq_setWidth_bField (w : CommandWord) : bByte w = (bField w).setWidth 8 := by
  ext k hk
  simp [bByte, bField, show k < 32 by omega]

/-- The operands of the operation stand in `w`, in the fields its format reads (R75). -/
def Instr.ReadsFrom (w : CommandWord) : Instr → Prop
  | .init storage size => aField w = storage ∧ bField w = size
  | .writeByte b | .crcByte b => bByte w = b
  | .write len | .read len | .peek len => aField w = len
  | .reset | .readByte | .available | .free | .isEmpty | .isFull | .crcClear | .crcGet => True

/-- The encoder writes every operand where the format reads it. -/
theorem Instr.readsFrom_encode (i : Instr) : i.ReadsFrom (encode i) := by
  cases i with
  | init storage size => exact ⟨aField_encode _, bField_encode _⟩
  | writeByte b | crcByte b =>
    rw [Instr.ReadsFrom, bByte_eq_setWidth_bField, bField_encode]
    exact BitVec.setWidth_setWidth_of_le b (by decide)
  | write len | read len | peek len => exact aField_encode _
  | _ => trivial

/-- A word with the opcode of an operation and its operands is that operation (R76, R78). -/
theorem decode_of_readsFrom {i : Instr} {w : CommandWord} (hop : opField w = i.opcode)
    (hread : i.ReadsFrom w) : decode w = .ok i := by
  cases i with
  | init storage size =>
    obtain ⟨rfl, rfl⟩ := hread
    simp [decode, hop, Instr.opcode]
  | writeByte b | crcByte b | write len | read len | peek len =>
    obtain rfl := hread
    simp [decode, hop, Instr.opcode]
  | _ => simp [decode, hop, Instr.opcode]

/-- A word with a reserved opcode is no operation (R80). -/
theorem decode_of_reserved {w : CommandWord} (h : reservedOpcode (opField w).toNat = true) :
    decode w = .error (.reservedOpcode (opField w)) := by
  have hne (op : BitVec 8) (hop : reservedOpcode op.toNat = false) : opField w ≠ op := by
    rintro rfl
    exact Bool.false_ne_true (hop.symm.trans h)
  simp (disch := decide) only [decode, hne, if_false]

/-- The opcode map has no hole: what is not reserved is listed (R76, R80). -/
theorem reserved_or_listed (op : BitVec 8) : reservedOpcode op.toNat = true ∨
    op ∈ [0x01, 0x02, 0x10, 0x11, 0x20, 0x21, 0x22, 0x30, 0x31, 0x32, 0x33, 0x40, 0x41, 0x42] := by
  revert op
  decide

/-- Every word has a reserved opcode or carries an operation, with its operands (R77). -/
theorem reserved_or_readsFrom (w : CommandWord) : reservedOpcode (opField w).toNat = true ∨
    ∃ i : Instr, opField w = i.opcode ∧ i.ReadsFrom w := by
  refine (reserved_or_listed (opField w)).imp_right fun hop => ?_
  simp only [List.mem_cons, List.not_mem_nil, or_false] at hop
  rcases hop with h | h | h | h | h | h | h | h | h | h | h | h | h | h
  · exact ⟨.init (aField w) (bField w), h, rfl, rfl⟩
  · exact ⟨.reset, h, trivial⟩
  · exact ⟨.writeByte (bByte w), h, rfl⟩
  · exact ⟨.write (aField w), h, rfl⟩
  · exact ⟨.readByte, h, trivial⟩
  · exact ⟨.read (aField w), h, rfl⟩
  · exact ⟨.peek (aField w), h, rfl⟩
  · exact ⟨.available, h, trivial⟩
  · exact ⟨.free, h, trivial⟩
  · exact ⟨.isEmpty, h, trivial⟩
  · exact ⟨.isFull, h, trivial⟩
  · exact ⟨.crcClear, h, trivial⟩
  · exact ⟨.crcByte (bByte w), h, rfl⟩
  · exact ⟨.crcGet, h, trivial⟩

/-- The decoder refuses a word for its reserved opcode and for nothing else. -/
theorem reserved_iff_decode_error (w : CommandWord) : reservedOpcode (opField w).toNat = true ↔
    decode w = .error (.reservedOpcode (opField w)) := by
  refine ⟨decode_of_reserved, fun he => ?_⟩
  obtain h | ⟨i, hop, hread⟩ := reserved_or_readsFrom w
  · exact h
  · rw [decode_of_readsFrom hop hread] at he
    cases he

end Sys2Proof
end

section
/-! SUPPORT. The first beat of a command: where it is taken, and its answer (spec/30_encoding.md R71, spec/45_common_laws.md R163, spec/60_exceptions.md R172). -/

namespace Sys2Proof.Machine

open Sys2Proof.Safety

/-- A port with no burst in flight takes the first beat of its command (R163). -/
theorem portBeat_ready {s : State} (wdata : Byte) (hb : portBusy s s.turn = false) :
    portBeat wdata s = firstBeat s := by
  unfold portBeat
  split
  · rfl
  · next ht =>
    rw [ht] at hb
    exact if_neg (by simpa [portBusy] using hb)
  · next ht =>
    rw [ht] at hb
    exact if_pos (by simpa [portBusy] using hb)
  · rfl

theorem step_beat_ready {s : State} {x : Port} {wdata : Byte} {rest : List Event}
    (hs : s.script = .beat x wdata :: rest) (hb : portBusy s x = false) :
    step s = firstBeat { s with script := rest, turn := x } := by
  rw [step_beat hs]
  exact portBeat_ready wdata (by cases x <;> exact hb)

theorem firstBeat_none {s : State} (h : s.slot s.turn = none) : firstBeat s = .next s := by
  rw [firstBeat, h]

theorem firstBeat_some {s : State} {w : CommandWord} (h : s.slot s.turn = some w) :
    firstBeat s = commandBeat w s := by
  rw [firstBeat, h]

theorem commandBeat_reserved {w : CommandWord} (h : reservedOpcode (opField w).toNat = true) (s : State) :
    commandBeat w s = .next (respond s.turn .errIllegal 0 s) := by
  rw [commandBeat, decode_of_reserved h]
  rfl

theorem answered_respond (r : Rsp) (v : Word) (s : State) : Answered s (respond s.turn r v s) r v :=
  ⟨by simp, fun y hy => respond_slot_other _ _ _ _ _ hy, by simp, by simp, by simp⟩

/-- A response alone writes nothing but the port it is returned on (R172). -/
theorem respond_frame (x : Port) (r : Rsp) (v : Word) (s : State) :
    SameRing s (respond x r v s) ∧ SameProducer s (respond x r v s) ∧ SameConsumer s (respond x r v s) ∧
      SameCrc s (respond x r v s) ∧ SameStorage s (respond x r v s) ∧ (respond x r v s).rdata = s.rdata := by
  obtain ⟨hring, hproducer, hconsumer, hmem, hbus, hrdata⟩ := ringSideKept_respond x r v s
  exact ⟨hring, hproducer, hconsumer, ⟨by simp, by simp, by simp⟩, ⟨fun a => by rw [hmem], hbus⟩, hrdata⟩

/-- A first beat that does not wait returns one response, and an error is all it does. -/
theorem effect_reply {i : Instr} {s t : State} (he : Effect i s t) :
    t = s ∨ ∃ r v, t.replies = s.replies ++ [{ port := s.turn, rsp := r, val := v }] ∧
      (r ≠ .ok → v = 0 ∧ t = respond s.turn r 0 s) := by
  cases he with
  | wait => exact .inl rfl
  | illegal => exact .inr ⟨.errIllegal, 0, by simp, fun _ => ⟨rfl, rfl⟩⟩
  | unbound => exact .inr ⟨.errUnbound, 0, by simp, fun _ => ⟨rfl, rfl⟩⟩
  | answer v => exact .inr ⟨.ok, v, by simp, fun h => absurd rfl h⟩
  | readByte => exact .inr ⟨.ok, 1, by simp [popped], fun h => absurd rfl h⟩
  | read len | peek len => exact .inr ⟨.ok, burstCount len (available s), by simp, fun h => absurd rfl h⟩
  | _ => exact .inr ⟨.ok, 0, by simp, fun h => absurd rfl h⟩

end Sys2Proof.Machine
end

section
/-! SUPPORT. The family of spec/30_encoding.md: the command word, the response word, and the first beat of a command. -/

namespace Sys2Proof.Safety

open Sys2Proof.Machine

/-- Settles O1: the encoder writes the opcode and every operand where the decoder reads them. -/
theorem decodeEncodeRoundTrip : Obligations.DecodeEncodeRoundTrip := fun i =>
  decode_of_readsFrom (Laws.opField_encode i) i.readsFrom_encode

/-- Settles O2: the operation that one word carries stands in the other as well. -/
theorem ignoredFieldsDoNotMatter : Obligations.IgnoredFieldsDoNotMatter := by
  intro w w' hop hAB hA hB
  obtain hr | ⟨i, hi, hread⟩ := reserved_or_readsFrom w
  · rw [decode_of_reserved hr, decode_of_reserved (hop ▸ hr), hop]
  · rw [decode_of_readsFrom hi hread]
    refine (decode_of_readsFrom (hop ▸ hi) ?_).symm
    cases i with
    | init storage size =>
      obtain ⟨ha, hb⟩ := hAB hi
      obtain ⟨hstorage, hsize⟩ := hread
      exact ⟨ha ▸ hstorage, hb ▸ hsize⟩
    | write len | read len | peek len => exact (hA (by simp [hi, Instr.opcode])).symm.trans hread
    | writeByte b | crcByte b => exact (hB (by simp [hi, Instr.opcode])).symm.trans hread
    | _ => trivial

/-- Settles O4: the decoder refuses exactly the reserved opcodes, and the answer is a response alone. -/
theorem reservedOpcodeIsAnsweredIllegal : Obligations.ReservedOpcodeIsAnsweredIllegal := by
  refine ⟨by decide +kernel, fun w => ⟨reserved_iff_decode_error w, fun hr s x wdata rest hs hw hb => ?_⟩⟩
  have hslot := (slot_given_turn s rest x x).trans hw
  exact ⟨_, by rw [step_beat_ready hs hb, firstBeat_some hslot, commandBeat_reserved hr],
    answered_respond .errIllegal 0 { s with script := rest, turn := x },
    respond_frame x .errIllegal 0 { s with script := rest, turn := x }⟩

/-- Settles O12: of all the effects of a first beat, all but waiting take the command off its port
(`effect_slot`) and return one response (`effect_reply`). -/
theorem firstBeatAnswersOnceOrWaits : Obligations.FirstBeatAnswersOnceOrWaits := by
  intro i s t h
  have he := exec_effect h
  obtain hwait | hslot := effect_slot he
  · exact .inl hwait
  obtain hwait | ⟨r, v, hreply, herror⟩ := effect_reply he
  · exact .inl hwait
  refine .inr ⟨r, v, hreply, by rw [hslot, if_pos rfl], fun y hy => by rw [hslot, if_neg hy], fun hr => ?_⟩
  obtain ⟨hv, rfl⟩ := herror hr
  exact ⟨hv, respond_frame s.turn r 0 s⟩

/-- Settles O3: each row of the map is an operation whose opcode and operands the word carries. -/
theorem opcodeMapSelectsOperation : Obligations.OpcodeMapSelectsOperation := by
  intro w
  exact ⟨(decode_of_readsFrom · ⟨rfl, rfl⟩), (decode_of_readsFrom · trivial), (decode_of_readsFrom · rfl),
    (decode_of_readsFrom · rfl), (decode_of_readsFrom · trivial), (decode_of_readsFrom · rfl),
    (decode_of_readsFrom · rfl), (decode_of_readsFrom · trivial), (decode_of_readsFrom · trivial),
    (decode_of_readsFrom · trivial), (decode_of_readsFrom · trivial), (decode_of_readsFrom · trivial),
    (decode_of_readsFrom · rfl), (decode_of_readsFrom · trivial),
    fun _ _ => rfl, rfl, fun _ => rfl, fun _ => rfl, rfl, fun _ => rfl, fun _ => rfl, rfl, rfl, rfl, rfl, rfl,
    fun _ => rfl, rfl⟩

/-- Settles O5: five words of the opcode table are decoded. -/
theorem familyWordsDecode : Obligations.FamilyWordsDecode := by
  unfold Obligations.FamilyWordsDecode
  decide

/-- Settles O6: a response word is `RSP` in front of `VAL`. -/
theorem responseWordLayout : Obligations.ResponseWordLayout :=
  ⟨fun _ => ⟨BitVec.extractLsb'_append_eq_left, BitVec.extractLsb'_append_eq_right⟩, rfl, rfl, rfl⟩

/-- Settles O9: `present` finds a free port, a ready port finds no command, and `step` finds no event. -/
theorem presentingAndIdleBeats : Obligations.PresentingAndIdleBeats := by
  intro s x rest
  refine ⟨fun w hs hw => ?_, fun wdata hs hw hb => ?_, fun hs => ?_⟩
  · have hslot : ({ s with script := rest } : State).slot x = none := (slot_given_turn s rest s.turn x).trans hw
    rw [step, hs]
    simp only [onEvent, present, hslot]
  · rw [step_beat_ready hs hb, firstBeat_none ((slot_given_turn s rest x x).trans hw)]
  · rw [step, hs]

end Sys2Proof.Safety
end

section
/-! SUPPORT. The first beats on port H: when a command is held, what a control operation does where it is not, and what a status operation is answered (spec/40_control_ops.md R100 to R103). -/

namespace Sys2Proof.Machine

open Sys2Proof.Safety

theorem nullRegion_iff {storage size : Word} : nullRegion storage size = true ↔ storage = 0 ∨ size = 0 := by
  simp [nullRegion, Config.nullRef]

/-- No sequencer belongs to port H (R33). -/
theorem portBusy_of_turn_h {s : State} (ht : s.turn = .h) : portBusy s s.turn = false := by
  rw [ht]; rfl

/-- A control operation is held for as long as a burst is in flight, and no longer (R103). -/
theorem isHeld_of_control {i : Instr} (hc : i.control = true) (s : State) : isHeld i s = burstInFlight s := by
  rw [isHeld, hc, Bool.true_and]

theorem isHeld_of_not_control {i : Instr} (hc : i.control = false) (s : State) : isHeld i s = false := by
  rw [isHeld, hc, Bool.false_and]

/-- A held command waits on its port with nothing written (R103). -/
theorem exec_held {i : Instr} {s : State} (hb : portBusy s s.turn = false) (hp : s.turn ∈ i.ports)
    (hh : isHeld i s = true) : exec i s = .next s := by
  obtain ⟨body, hbody⟩ := exec_eq_command i
  rw [hbody, command]
  simp [hb, hp, hh]

/-- `INIT` on port H with no burst in flight: its own rule (R100). -/
theorem exec_init_runs (storage size : Word) {s : State} (ht : s.turn = .h) (hb : burstInFlight s = false) :
    exec (.init storage size) s =
      if nullRegion storage size then .next (respond s.turn .ok 0 s)
      else if !regionFits storage size then .refused .regionPastTop
      else .next (respond s.turn .ok 0 (bindRegion storage size s)) := by
  rw [exec_init]
  exact command_runs (portBusy_of_turn_h ht) (by simp [ht, Instr.ports])
    ((isHeld_of_control rfl s).trans hb) (by simp [Instr.needsBinding])

/-- `RESET` on port H of a bound block with no burst in flight: its own rule (R101). -/
theorem exec_reset_runs {s : State} (ht : s.turn = .h) (hb : burstInFlight s = false) (hN : s.N ≠ 0) :
    exec .reset s = .next (respond s.turn .ok 0 (emptied s)) := by
  rw [exec_reset]
  exact command_runs (portBusy_of_turn_h ht) (by simp [ht, Instr.ports])
    ((isHeld_of_control rfl s).trans hb) fun _ => hN

/-- `t` is `s` with its ring emptied at the region, the command answered `OK`, and nothing else written:
what `INIT` and `RESET` have in common (R100 to R102). -/
abbrev EmptiedAt (storage size : Word) (s t : State) : Prop :=
  t.base = storage ∧ t.N = size ∧ t.head = 0 ∧ t.tail = 0 ∧ t.full = false ∧ SameProducer s t ∧
    SameConsumer s t ∧ SameCrc s t ∧ SameStorage s t ∧ t.rdata = s.rdata ∧ Answered s t .ok 0

/-- The response writes only its port, and `bindRegion` only the ring registers. -/
theorem emptiedAt_respond_bindRegion (storage size : Word) (s : State) :
    EmptiedAt storage size s (respond s.turn .ok 0 (bindRegion storage size s)) := by
  obtain ⟨⟨hbase, hN, hhead, htail, hfull⟩, hrest⟩ := respond_frame s.turn .ok 0 (bindRegion storage size s)
  obtain ⟨hproducer, hconsumer, hcrc, hstorage, hrdata⟩ := hrest
  exact ⟨hbase, hN, hhead, htail, hfull, hproducer, hconsumer, hcrc, hstorage, hrdata,
    answered_respond .ok 0 (bindRegion storage size s)⟩

/-- A command that is not held, and whose own rule only answers, is answered at once, with its value or
with an error. -/
theorem command_answers {i : Instr} (value : State → Word) {s : State} (hb : portBusy s s.turn = false)
    (hh : isHeld i s = false) :
    ∃ r v, command i (fun s => .next (respond s.turn .ok (value s) s)) s = .next (respond s.turn r v s) := by
  rcases command_cases i (fun s => .next (respond s.turn .ok (value s) s)) s with
    ⟨-, hwait⟩ | ⟨hillegal, -⟩ | ⟨hunbound, -⟩ | ⟨hruns, -⟩
  · simp [hb, hh] at hwait
  · exact ⟨_, _, hillegal⟩
  · exact ⟨_, _, hunbound⟩
  · exact ⟨_, _, hruns⟩

/-- The four status operations are not held, and their own rules only answer (R103, R140). -/
theorem exec_status_answers {i : Instr} (hi : i = .available ∨ i = .free ∨ i = .isEmpty ∨ i = .isFull)
    {s : State} (hb : portBusy s s.turn = false) :
    ∃ r v, exec i s = .next (respond s.turn r v s) := by
  rcases hi with rfl | rfl | rfl | rfl
  · exact command_answers (fun s => BitVec.ofNat 32 (available s)) hb (isHeld_of_not_control rfl s)
  · exact command_answers (fun s => BitVec.ofNat 32 (free s)) hb (isHeld_of_not_control rfl s)
  · exact command_answers (fun s => truth (isEmpty s)) hb (isHeld_of_not_control rfl s)
  · exact command_answers (fun s => truth (isFull s)) hb (isHeld_of_not_control rfl s)

end Sys2Proof.Machine
end

section
/-! SUPPORT. The family of spec/40_control_ops.md: `INIT`, `RESET`, and the burst that holds them. -/

namespace Sys2Proof.Safety

open Sys2Proof.Machine

/-- Settles O20: the control operations are held (`exec_held`), the status operations are answered at once. -/
theorem controlWaitsForBursts : Obligations.ControlWaitsForBursts := by
  intro s ht hburst
  have hb := portBusy_of_turn_h ht
  have waits {i : Instr} (hc : i.control = true) (hp : s.turn ∈ i.ports) : exec i s = .next s :=
    exec_held hb hp ((isHeld_of_control hc s).trans hburst)
  refine ⟨fun storage size => waits rfl (by simp [ht, Instr.ports]), waits rfl (by simp [ht, Instr.ports]),
    fun i hi => ?_⟩
  obtain ⟨r, v, hnext⟩ := exec_status_answers hi hb
  obtain ⟨hslot, -⟩ := answered_respond r v s
  exact ⟨_, hnext, ht ▸ hslot, by simp⟩

/-- Settles O16: of the three branches of `INIT` a region that is not null and fits takes the last. -/
theorem initBindsAndEmpties : Obligations.InitBindsAndEmpties := by
  intro s storage size ht hb h1 h2 h3
  refine ⟨_, ?_, emptiedAt_respond_bindRegion storage size s⟩
  have hnull : ¬ nullRegion storage size = true := fun h => (nullRegion_iff.mp h).elim h1 h2
  have hfits : regionFits storage size = true := decide_eq_true h3
  rw [exec_init_runs storage size ht hb, if_neg hnull, hfits]
  rfl

/-- Settles O17: a null region takes the first branch of `INIT`, which only answers. -/
theorem nullInitIsSilentNoOp : Obligations.NullInitIsSilentNoOp := by
  intro s storage size ht hb hnull
  obtain ⟨hring, hproducer, hconsumer, hcrc, hstorage, hrdata⟩ := respond_frame s.turn .ok 0 s
  refine ⟨_, ?_, hring, hproducer, hconsumer, hcrc, hstorage, hrdata, answered_respond .ok 0 s⟩
  rw [exec_init_runs storage size ht hb, if_pos (nullRegion_iff.mpr hnull)]

/-- Settles O19: `RESET` empties the ring at the region it is bound to. -/
theorem resetEmptiesRing : Obligations.ResetEmptiesRing := by
  intro s ht hb hN
  exact ⟨_, exec_reset_runs ht hb hN, emptiedAt_respond_bindRegion s.base s.N s⟩

end Sys2Proof.Safety
end

section
/-! SUPPORT. The beats of port P: the first beats of `WRITE_BYTE` and `WRITE`, the producer data beat, and a command that is presented and taken (spec/41_producer_ops.md R110 to R112, spec/45_common_laws.md R163). -/

namespace Sys2Proof.Machine

open Sys2Proof.Safety

/-! One beat. -/

/-- `WRITE_BYTE` on a bound block whose port P is ready: the byte is stored and the command answered (R110). -/
theorem exec_writeByte_runs (b : Byte) {s : State} (hr : ReadyAt .p s) (hN : s.N ≠ 0)
    (ha : slotAddr s.base s.head < Config.addressCount) :
    exec (.writeByte b) s = .next (respond s.turn .ok 0 (pushed b s)) := by
  obtain ⟨ht, hb⟩ := hr
  rw [exec_writeByte, command_runs (ht ▸ hb) (by simp [ht, Instr.ports]) (isHeld_of_not_control rfl s)
    (fun _ => hN), push_ok hN ha]
  simp

/-- `WRITE` on a bound block whose port P is ready: the command is answered and its burst started (R111). -/
theorem exec_write_runs (len : Word) {s : State} (hr : ReadyAt .p s) (hN : s.N ≠ 0) :
    exec (.write len) s = .next (startWrite len (respond s.turn .ok 0 s)) := by
  obtain ⟨ht, hb⟩ := hr
  rw [exec_write, command_runs (ht ▸ hb) (by simp [ht, Instr.ports]) (isHeld_of_not_control rfl s) fun _ => hN]

/-- The beat of port P while its burst is in flight: the payload byte is stored and counted off (R111). -/
theorem step_producerData {s : State} {b : Byte} {rest : List Event} (hs : s.script = .beat .p b :: rest)
    (hb : s.pBusy = true) (hr : s.pRem ≠ 0) (hN : s.N ≠ 0)
    (ha : slotAddr s.base s.head < Config.addressCount) :
    step s = .next (countPayload (pushed b { s with script := rest, turn := .p })) := by
  have hpush : push b { s with script := rest, turn := .p } = .ok (pushed b { s with script := rest, turn := .p }) :=
    push_ok hN ha
  obtain ⟨hstep, -⟩ := busyPortTakesDataBeat s b rest
  rw [hstep hs hb, producerDataBeat, if_neg hr, hpush]

/-- What a `push` does to the ring, storage and the bus, for an outcome `t` that writes nothing else of them (R110). -/
abbrev StoredAtHead (b : Byte) (s t : State) : Prop :=
  t.head.toNat = (s.head.toNat + 1) % s.N.toNat ∧
  t.tail.toNat = (if s.full then (s.tail.toNat + 1) % s.N.toNat else s.tail.toNat) ∧
  (t.full = true ↔ t.head = t.tail) ∧ t.base = s.base ∧ t.N = s.N ∧
  t.mem.read (s.base.toNat + s.head.toNat) = some b ∧
  (∀ a, a ≠ s.base.toNat + s.head.toNat → t.mem.read a = s.mem.read a) ∧
  t.bus = s.bus ++ [.write (s.base.toNat + s.head.toNat) b]

theorem storedAtHead_pushed (b : Byte) {s : State} (hN : s.N ≠ 0) : StoredAtHead b s (pushed b s) := by
  refine ⟨?_, ?_, ?_, pushed_base b s, pushed_N b s, ?_, fun a ha => ?_, pushed_bus b s⟩
  · rw [pushed_head, nextIndex_toNat hN]
  · rw [pushed_tail, apply_ite BitVec.toNat, nextIndex_toNat hN]
  · rw [pushed_full, beq_iff_eq]
  · exact (read_pushed ..).trans (if_pos rfl)
  · exact (read_pushed ..).trans (if_neg ha)

theorem answered_respond_pushed (b : Byte) (s : State) : Answered s (respond s.turn .ok 0 (pushed b s)) .ok 0 :=
  ⟨by simp, fun y hy => by rw [respond_slot_other _ _ _ _ _ hy, pushed_slot], by simp, by simp, by simp⟩

theorem answered_startWrite {s t : State} {r : Rsp} {v : Word} (h : Answered s t r v) (len : Word) :
    Answered s (startWrite len t) r v := by
  simpa only [Answered, slot_startWrite, startWrite_replies, startWrite_script, startWrite_turn] using h

theorem slot_countPayload (s : State) (x : Port) : (countPayload s).slot x = s.slot x := by cases x <;> rfl

/-- A producer sequencer that is idle owes, once started, the `len` bytes of its payload (R111). -/
theorem startWrite_pRem {s : State} (h : s.pRem = 0) (len : Word) : (startWrite len s).pRem = len := by
  unfold startWrite
  split
  · next h0 => rw [h, h0]
  · rfl

theorem startWrite_pBusy {s : State} (h : s.pBusy = false) (len : Word) :
    (startWrite len s).pBusy = true ↔ len ≠ 0 := by
  unfold startWrite
  split
  · next h0 => simpa [h] using h0
  · next h0 => exact iff_of_true rfl h0

/-- Both indices of a ring of one slot are 0 (R112). -/
theorem RingOk.indices_of_one_byte {s : State} (h : RingOk s) (hone : s.N = 1) : s.head = 0 ∧ s.tail = 0 := by
  have hhead := h.head_lt
  have htail := h.tail_lt
  rw [hone] at hhead htail
  exact ⟨BitVec.eq_of_toNat_eq (Nat.lt_one_iff.mp hhead), BitVec.eq_of_toNat_eq (Nat.lt_one_iff.mp htail)⟩

/-! A command presented and taken. -/

/-- `s` at the turn of port `x`, where the agent has presented `i`, with the events after that to come. -/
def presented (x : Port) (i : Instr) (rest : List Event) (s : State) : State :=
  { s with script := rest, turn := x }.setSlot x (some (encode i))

theorem setSlot_given_turn (x : Port) (i : Instr) (rest later : List Event) (s : State) :
    { ({ s with script := later } : State).setSlot x (some (encode i)) with script := rest, turn := x } =
      presented x i rest s := by
  cases x <;> rfl

/-- A command presented on a free port with no burst in flight, and given its first beat next, runs (R71, R163). -/
theorem run_presented {s t : State} {x : Port} {i : Instr} {wdata : Byte} {rest : List Event}
    (hs : s.script = .present x (encode i) :: .beat x wdata :: rest) (hw : s.slot x = none)
    (hb : portBusy s x = false) (h : exec i (presented x i rest s) = .next t) : run 2 s = .next t := by
  obtain ⟨hpresent, -⟩ := presentingAndIdleBeats s x (.beat x wdata :: rest)
  have hfirst : step (({ s with script := .beat x wdata :: rest } : State).setSlot x (some (encode i))) = .next t := by
    rw [step_beat_ready (State.setSlot_script ..) (by cases x <;> exact hb), setSlot_given_turn,
      firstBeat_some (w := encode i) (by simp [presented]), commandBeat, decodeEncodeRoundTrip]
    exact h
  rw [run_succ_of (hpresent _ hs hw), run_succ_of hfirst, run]

end Sys2Proof.Machine
end

section
/-! SUPPORT. A payload, byte by byte: its bytes stored by the data beats of one `WRITE` or by one `WRITE_BYTE` each, and what the ring holds after it (spec/41_producer_ops.md R110, R111, R114). -/

namespace Sys2Proof.Machine

open Sys2Proof.Safety

/-! The state after a payload, but for the producer sequencer, the ports and the logs. -/

/-- `s` after a `push` of each byte. -/
def stored (bs : List Byte) (s : State) : State := bs.foldl (fun s b => pushed b s) s

@[simp] theorem stored_nil (s : State) : stored [] s = s := rfl

@[simp] theorem stored_cons (b : Byte) (bs : List Byte) (s : State) :
    stored (b :: bs) s = stored bs (pushed b s) := rfl

/-- The registers but for the producer sequencer's, and storage, are as they were. -/
structure SameBesideProducer (s t : State) : Prop where
  ring : SameRing s t
  mem : t.mem = s.mem
  consumer : SameConsumer s t
  crc : SameCrc s t

theorem SameBesideProducer.refl (s : State) : SameBesideProducer s s :=
  ⟨⟨rfl, rfl, rfl, rfl, rfl⟩, rfl, ⟨rfl, rfl, rfl⟩, ⟨rfl, rfl, rfl⟩⟩

theorem SameBesideProducer.symm {s t : State} (h : SameBesideProducer s t) : SameBesideProducer t s := by
  obtain ⟨⟨_, _, _, _, _⟩, _, ⟨_, _, _⟩, ⟨_, _, _⟩⟩ := h
  constructor <;> simp [SameRing, SameConsumer, SameCrc, *]

theorem SameBesideProducer.trans {s t u : State} (h : SameBesideProducer s t) (h' : SameBesideProducer t u) :
    SameBesideProducer s u := by
  obtain ⟨⟨_, _, _, _, _⟩, _, ⟨_, _, _⟩, ⟨_, _, _⟩⟩ := h
  obtain ⟨⟨_, _, _, _, _⟩, _, ⟨_, _, _⟩, ⟨_, _, _⟩⟩ := h'
  constructor <;> simp [SameRing, SameConsumer, SameCrc, *]

theorem SameBesideProducer.after_pushed {s t : State} (h : SameBesideProducer s t) (b : Byte) :
    SameBesideProducer (pushed b s) (pushed b t) := by
  obtain ⟨⟨_, _, _, _, _⟩, _, ⟨_, _, _⟩, ⟨_, _, _⟩⟩ := h
  constructor <;> simp [SameRing, SameConsumer, SameCrc, pushed_tail, pushed_full, *]

theorem SameBesideProducer.after_stored {s t : State} (h : SameBesideProducer s t) (bs : List Byte) :
    SameBesideProducer (stored bs s) (stored bs t) := by
  induction bs generalizing s t with
  | nil => exact h
  | cons b bs ih => exact ih (h.after_pushed b)

theorem SameBesideProducer.N_eq {s t : State} (h : SameBesideProducer s t) : t.N = s.N := by
  obtain ⟨⟨_, hN, _⟩, _⟩ := h
  exact hN

theorem SameBesideProducer.held_eq {s t : State} (h : SameBesideProducer s t) : held t = held s := by
  obtain ⟨⟨hbase, hN, hhead, htail, hfull⟩, hm, -, -⟩ := h
  exact held_congr hbase hN hhead htail hfull hm

theorem sameBesideProducer_given_turn (rest : List Event) (x : Port) (s : State) :
    SameBesideProducer s { s with script := rest, turn := x } :=
  ⟨⟨rfl, rfl, rfl, rfl, rfl⟩, rfl, ⟨rfl, rfl, rfl⟩, ⟨rfl, rfl, rfl⟩⟩

theorem sameBesideProducer_countPayload (s : State) : SameBesideProducer s (countPayload s) :=
  ⟨⟨rfl, rfl, rfl, rfl, rfl⟩, rfl, ⟨rfl, rfl, rfl⟩, ⟨rfl, rfl, rfl⟩⟩

theorem sameBesideProducer_presented (x : Port) (i : Instr) (rest : List Event) (s : State) :
    SameBesideProducer s (presented x i rest s) := by
  constructor <;> simp [SameRing, SameConsumer, SameCrc, presented]

theorem sameBesideProducer_respond (x : Port) (r : Rsp) (v : Word) (s : State) :
    SameBesideProducer s (respond x r v s) := by
  constructor <;> simp [SameRing, SameConsumer, SameCrc]

theorem sameBesideProducer_startWrite (len : Word) (s : State) :
    SameBesideProducer s (startWrite len s) := by
  constructor <;> simp [SameRing, SameConsumer, SameCrc]

end Sys2Proof.Machine

namespace Sys2Proof.Safety

open Sys2Proof.Machine

/-! The runs that store it. -/

theorem BlockInv.after_run {k : Nat} {s t : State} (hI : BlockInv s) (h : run k s = .next t) : BlockInv t := by
  induction k generalizing s with
  | zero => exact run_zero_inv h ▸ hI
  | succ k ih =>
    obtain ⟨u, hu, h⟩ := run_succ_inv h
    exact ih (hI.after_step hu) h

/-- The data beats of a payload that the burst in flight asks for, with no other beat between: each stores its
byte and counts it off (R111). -/
theorem BlockInv.run_payload {s : State} {bs : List Byte} {rest : List Event} (hI : BlockInv s) (hN : s.N ≠ 0)
    (hrem : bs.length ≤ s.pRem.toNat) (hs : s.script = bs.map (fun b => .beat .p b) ++ rest) :
    ∃ t, run bs.length s = .next t ∧ SameBesideProducer (stored bs s) t ∧
      t.pRem.toNat + bs.length = s.pRem.toNat := by
  induction bs generalizing s with
  | nil => exact ⟨s, rfl, .refl s, rfl⟩
  | cons b bs ih =>
    rw [List.length_cons] at hrem
    have hr : s.pRem ≠ 0 := fun h => by simp [h] at hrem
    have hb : s.pBusy = true := by simpa using mt hI.producer.mp hr
    have hstep := step_producerData (rest := bs.map (fun b => .beat .p b) ++ rest) hs hb hr hN (hI.slotAddr_head_lt hN)
    have hcount := Word.toNat_sub_one hr
    obtain ⟨t, hrun, hsame, hleft⟩ := ih (hI.after_step hstep) (by simpa using hN)
      (by rw [countPayload_pRem, pushed_pRem, hcount]; omega) (by simp)
    rw [countPayload_pRem, pushed_pRem, hcount] at hleft
    have hfirst := ((sameBesideProducer_given_turn (bs.map (fun b => .beat .p b) ++ rest) .p s).after_pushed b).trans
      (sameBesideProducer_countPayload _)
    exact ⟨t, (run_succ_of hstep).trans hrun, (hfirst.after_stored bs).trans hsame, by rw [List.length_cons]; omega⟩

/-- `WRITE` presented and taken: its payload is owed, and nothing is stored yet (R111). -/
theorem run_writeAccept {s : State} {len : Word} {wdata : Byte} {rest : List Event} (hN : s.N ≠ 0)
    (hb : s.pBusy = false) (hrem : s.pRem = 0) (hw : s.pCmd = none)
    (hs : s.script = .present .p (encode (.write len)) :: .beat .p wdata :: rest) :
    ∃ t, run 2 s = .next t ∧ SameBesideProducer s t ∧ t.pRem = len ∧ t.script = rest := by
  have hkept := sameBesideProducer_presented .p (.write len) rest s
  have hexec := exec_write_runs (s := presented .p (.write len) rest s) len ⟨rfl, hb⟩ (by rwa [hkept.N_eq])
  exact ⟨_, run_presented hs hw hb hexec,
    (hkept.trans (sameBesideProducer_respond _ .ok 0 _)).trans (sameBesideProducer_startWrite len _),
    startWrite_pRem (by simpa [presented] using hrem) len, by simp [presented]⟩

/-- `WRITE_BYTE` presented and taken: its byte is stored (R110). -/
theorem BlockInv.run_writeByte {s : State} {b wdata : Byte} {rest : List Event} (hI : BlockInv s) (hN : s.N ≠ 0)
    (hb : s.pBusy = false) (hw : s.pCmd = none)
    (hs : s.script = .present .p (encode (.writeByte b)) :: .beat .p wdata :: rest) :
    ∃ t, run 2 s = .next t ∧ SameBesideProducer (pushed b s) t ∧ SameProducer s t ∧ t.pCmd = none ∧
      t.script = rest := by
  have hkept := sameBesideProducer_presented .p (.writeByte b) rest s
  have hexec := exec_writeByte_runs (s := presented .p (.writeByte b) rest s) b ⟨rfl, hb⟩ (by rwa [hkept.N_eq])
    (hI.slotAddr_head_lt hN)
  exact ⟨_, run_presented hs hw hb hexec, (hkept.after_pushed b).trans (sameBesideProducer_respond _ .ok 0 _),
    by simp [SameProducer, presented], respond_slot_same .p .ok 0 _, by simp [presented]⟩

/-- The whole of a `WRITE`, with no other beat between its own (R111). -/
theorem BlockInv.run_write {s : State} {bs : List Byte} (hI : BlockInv s) (hN : s.N ≠ 0) (hb : s.pBusy = false)
    (hw : s.pCmd = none) (hlen : bs.length < 2 ^ 32)
    (hs : s.script = writtenEvents ⟨.p, .write (BitVec.ofNat 32 bs.length), bs⟩) :
    ∃ t, run (2 + bs.length) s = .next t ∧ SameBesideProducer (stored bs s) t ∧ SameProducer s t := by
  have hrem := hI.producer.mp hb
  obtain ⟨u, haccept, hkept, howed, hscript⟩ := run_writeAccept hN hb hrem hw hs
  have hcount : u.pRem.toNat = bs.length := by rw [howed, BitVec.toNat_ofNat, Nat.mod_eq_of_lt hlen]
  have hU := hI.after_run haccept
  obtain ⟨t, hrun, hsame, hleft⟩ := hU.run_payload (bs := bs) (rest := []) (by rwa [hkept.N_eq]) hcount.ge
    (by rw [hscript, List.append_nil])
  have hdone : t.pRem = 0 := BitVec.eq_of_toNat_eq (Nat.add_right_cancel (hleft.trans (by simpa using hcount)))
  exact ⟨t, (run_add_of haccept).trans hrun, (hkept.after_stored bs).trans hsame,
    ((hU.after_run hrun).producer.mpr hdone).trans hb.symm, hdone.trans hrem.symm⟩

/-- One `WRITE_BYTE` after another, with no other beat between (R110). -/
theorem BlockInv.run_writeBytes {s : State} {bs : List Byte} (hI : BlockInv s) (hN : s.N ≠ 0)
    (hb : s.pBusy = false) (hw : s.pCmd = none)
    (hs : s.script = bs.flatMap fun b => writtenEvents ⟨.p, .writeByte b, []⟩) :
    ∃ t, run (2 * bs.length) s = .next t ∧ SameBesideProducer (stored bs s) t ∧ SameProducer s t := by
  induction bs generalizing s with
  | nil => exact ⟨s, rfl, .refl s, rfl, rfl⟩
  | cons b bs ih =>
    obtain ⟨u, hbyte, hpushed, ⟨hbusy, hrem⟩, hfree, hscript⟩ := hI.run_writeByte hN hb hw hs
    obtain ⟨t, hrun, hsame, hbusy', hrem'⟩ :=
      ih (hI.after_run hbyte) (by rwa [hpushed.N_eq, pushed_N]) (hbusy.trans hb) hfree hscript
    refine ⟨t, ?_, (hpushed.after_stored bs).trans hsame, hbusy'.trans hbusy, hrem'.trans hrem⟩
    rw [List.length_cons, Nat.mul_succ, Nat.add_comm, run_add_of hbyte, hrun]

/-! The bytes held after a payload. -/

/-- A queue that overwrites holds the last of the bytes it held and was given, as many as it has room for. -/
theorem foldl_overwriteAppend {capacity : Nat} {q : List Byte} (hq : q.length ≤ capacity) (hc : capacity ≠ 0)
    (bs : List Byte) :
    bs.foldl (overwriteAppend capacity) q = (q ++ bs).drop ((q ++ bs).length - capacity) := by
  induction bs generalizing q with
  | nil => simp [Nat.sub_eq_zero_of_le hq]
  | cons b bs ih =>
    rw [List.foldl_cons, overwriteAppend]
    split
    · next hfull =>
      cases q with
      | nil => exact absurd hfull.symm hc
      | cons a q =>
        rw [List.length_cons] at hfull
        rw [List.tail_cons, ih (by simp; omega), List.append_assoc, List.singleton_append, List.cons_append,
          List.length_cons, Nat.succ_sub (by simp; omega), List.drop_succ_cons]
    · next hroom =>
      rw [ih (by simp; omega), List.append_assoc, List.singleton_append]

theorem BlockInv.held_stored_eq_foldl {s : State} (hI : BlockInv s) (hN : s.N ≠ 0) (bs : List Byte) :
    held (stored bs s) = bs.foldl (overwriteAppend s.N.toNat) (held s) := by
  induction bs generalizing s with
  | nil => rfl
  | cons b bs ih =>
    rw [stored_cons, ih (hI.after_pushed hN b) (by rwa [pushed_N]), hI.held_pushed hN, pushed_N, List.foldl_cons]

/-- Of the bytes held and those stored after them, the ring holds the last `N` (R114). -/
theorem BlockInv.held_stored {s : State} (hI : BlockInv s) (hN : s.N ≠ 0) (bs : List Byte) :
    held (stored bs s) = (held s ++ bs).drop ((held s ++ bs).length - s.N.toNat) := by
  rw [hI.held_stored_eq_foldl hN]
  exact foldl_overwriteAppend (hI.length_held.trans_le (hI.ringOk hN).available_le) (Word.toNat_ne_zero hN) bs

end Sys2Proof.Safety
end

section
/-! SUPPORT. The family of spec/41_producer_ops.md: `WRITE_BYTE`, `WRITE` and its data beats. -/

namespace Sys2Proof.Safety

open Sys2Proof.Machine

/-- Settles O56: of the effects of a step on the ring, one empties it, one appends, one removes (`queue_step`). -/
theorem ringRefinesOverwritingQueue : Obligations.RingRefinesOverwritingQueue := fun _ _ hI h => hI.queue_step h

/-- Settles O27: both runs lead to the state after a `push` of each byte, but for the logs. -/
theorem writeEqualsWriteBytes : Obligations.WriteEqualsWriteBytes := by
  intro s bs hI hN hb hw hlen
  have hW := hI.given_turn (writtenEvents ⟨.p, .write (BitVec.ofNat 32 bs.length), bs⟩) s.turn
  have hB := hI.given_turn (bs.flatMap fun b => writtenEvents ⟨.p, .writeByte b, []⟩) s.turn
  obtain ⟨t, ht, hsame, hbusy, hrem⟩ := hW.run_write hN hb hw hlen rfl
  obtain ⟨u, hu, hsame', hbusy', hrem'⟩ := hB.run_writeBytes hN hb hw rfl
  have hwrite := ((sameBesideProducer_given_turn _ s.turn s).after_stored bs).trans hsame
  have hbytes := ((sameBesideProducer_given_turn _ s.turn s).after_stored bs).trans hsame'
  obtain ⟨hring, hmem, hconsumer, hcrc⟩ := hwrite.symm.trans hbytes
  exact ⟨t, u, ht, hu, hring, hmem.symm, ⟨hbusy'.trans hbusy.symm, hrem'.trans hrem.symm⟩, hconsumer, hcrc⟩

/-- Settles O58: the data beats store the payload (`run_payload`), of which the ring, empty before, holds the
last `N` bytes (`held_stored`). -/
theorem overrunKeepsLastBytes : Obligations.OverrunKeepsLastBytes := by
  intro s bs rest hI hN ha _ hrem hs
  obtain ⟨t, hrun, hsame, -⟩ := hI.run_payload hN hrem hs
  have hempty : held s = [] := List.length_eq_zero_iff.mp (hI.length_held.trans ha)
  have hheld : held t = bs.drop (bs.length - s.N.toNat) := by
    rw [hsame.held_eq, hI.held_stored hN, hempty, List.nil_append]
  refine ⟨t, hrun, ?_, hheld⟩
  rw [← (hI.after_run hrun).length_held, hheld, List.length_drop]
  omega

/-- Settles O21: the command stores as `push` does, and is answered. -/
theorem writeByteStoresAndAdvances : Obligations.WriteByteStoresAndAdvances := by
  intro s b hr hN ha
  obtain ⟨hhead, htail, hfull, hbase, hcapacity, hstored, hothers, hbus⟩ := storedAtHead_pushed b hN
  refine ⟨_, exec_writeByte_runs b hr hN ha, ?_⟩
  simp only [respond_head, respond_tail, respond_full, respond_base, respond_N, respond_mem, respond_bus]
  exact ⟨hhead, htail, hfull, hbase, hcapacity, hstored, hothers, hbus, by simp [SameProducer],
    by simp [SameConsumer], by simp [SameCrc], by simp, answered_respond_pushed b s⟩

/-- Settles O23: the data beat stores as `push` does and counts the byte off, at the turn of port P. -/
theorem writeDataBeatStoresPayload : Obligations.WriteDataBeatStoresPayload := by
  intro s b rest hs hb hr hN ha
  obtain ⟨hhead, htail, hfull, hbase, hcapacity, hstored, hothers, hbus⟩ :=
    storedAtHead_pushed (s := { s with script := rest, turn := .p }) b hN
  refine ⟨_, step_producerData hs hb hr hN ha, ?_⟩
  exact ⟨by rw [countPayload_pRem, pushed_pRem, Word.toNat_sub_one hr], by simp, hhead, htail, hfull, hbase,
    hcapacity, hstored, hothers, hbus, by simp [SameConsumer], by simp [SameCrc], by simp,
    fun y => by rw [slot_countPayload, pushed_slot], by simp, by simp, by simp⟩

/-- Settles O24: the invariant puts the slot of `head` inside the address space, so the ring takes every byte, and the
sequencer is idle where the port is ready. -/
theorem producerIsNeverDenied : Obligations.ProducerIsNeverDenied := by
  intro s hI hN
  have ha := hI.slotAddr_head_lt hN
  refine ⟨fun b hr => ?_, fun len hr => ?_, fun b rest hs hb => ?_⟩
  · exact ⟨_, exec_writeByte_runs b hr hN ha, answered_respond_pushed b s,
      accesses_of_bus (by rw [respond_bus, pushed_bus, slotAddr])⟩
  · obtain ⟨ht, hb⟩ := hr
    refine ⟨_, exec_write_runs len ⟨ht, hb⟩ hN, answered_startWrite (answered_respond .ok 0 s) len,
      startWrite_pRem ?_ len, startWrite_pBusy ?_ len⟩
    · rw [respond_pRem, hI.producer.mp hb]
    · rw [respond_pBusy]; exact hb
  · have hr : s.pRem ≠ 0 := fun h => by simp [hI.producer.mpr h] at hb
    have hpos := Word.toNat_pos hr
    refine ⟨_, step_producerData hs hb hr hN ha, ?_, accesses_of_bus (pushed_bus ..)⟩
    rw [countPayload_pRem, pushed_pRem, Word.toNat_sub_one hr]
    omega

/-- Settles O25: the count is the capacity where the ring is full, and below it elsewhere. -/
theorem pushCountsUpToCapacity : Obligations.PushCountsUpToCapacity := by
  intro s t b hI h
  obtain ⟨hN, -, rfl⟩ := push_inv h
  have hr := hI.ringOk hN
  have hle := hr.available_le
  have hfull := hr.full_iff
  rw [available_pushed hr]
  split
  · next hf => rw [hfull.mp hf]; omega
  · next hf => rw [hfull] at hf; omega

/-- Settles O26: both indices of a ring of one slot are 0, before and after a `push` and a `pop`, and the slot is
where `push` stores and `pop` reads. -/
theorem oneByteRingHoldsLastByte : Obligations.OneByteRingHoldsLastByte := by
  intro s b hI hone
  have hN : s.N ≠ 0 := by simp [hone]
  have hr := hI.ringOk hN
  have hr' := hr.after_pushed b
  have hone' : (pushed b s).N = 1 := (pushed_N b s).trans hone
  obtain ⟨hhead, htail⟩ := hr.indices_of_one_byte hone
  obtain ⟨hhead', htail'⟩ := hr'.indices_of_one_byte hone'
  obtain ⟨hhead'', htail''⟩ := hr'.after_popped.indices_of_one_byte hone'
  have hfull : (pushed b s).full = true := by rw [pushed_full, hhead', htail']; rfl
  have hcount : available (pushed b s) ≠ 0 := by rw [available_full hfull]; exact Word.toNat_ne_zero hr'.bound
  have hread : (pushed b s).mem.read s.base.toNat = some b := by
    rw [read_pushed, slotAddr, hhead]; exact if_pos rfl
  have holdest : (pushed b s).mem.read (slotAddr (pushed b s).base (pushed b s).tail) = some b := by
    rw [slotAddr, htail', pushed_base]; exact hread
  have hheld : held (pushed b s) = [b] := by simpa [hone] using hI.held_stored hN [b]
  have hpop := pop_ok hr'.bound hcount ((hI.after_pushed hN b).slotAddr_lt hr'.bound hr'.tail_lt) holdest
  exact ⟨hhead, htail, _, hI.push_ok hN b, hhead', htail', hfull, hread, hheld, _, hpop, hhead'', htail'', rfl⟩

/-- Settles O22: the answer and the start of the burst are all that the accept beat does. -/
theorem writeAcceptStartsBurst : Obligations.WriteAcceptStartsBurst := by
  intro s len hr hN
  obtain ⟨hring, hmem, hconsumer, hcrc⟩ :=
    (sameBesideProducer_respond s.turn .ok 0 s).trans (sameBesideProducer_startWrite len _)
  refine ⟨_, exec_write_runs len hr hN, fun h0 => ?_, fun h0 => ?_, hring, hconsumer, hcrc,
    ⟨fun a => by rw [hmem], by simp⟩, by simp, answered_startWrite (answered_respond .ok 0 s) len⟩
  · rw [startWrite, if_pos h0]
    exact ⟨respond_pBusy .., respond_pRem ..⟩
  · rw [startWrite, if_neg h0]
    exact ⟨rfl, rfl⟩

end Sys2Proof.Safety
end

section
/-! SUPPORT. The beats of port C: the first beats of `READ_BYTE`, `READ` and `PEEK`, and the data beats of the two bursts (spec/42_consumer_ops.md R120 to R126). -/

namespace Sys2Proof.Machine

open Sys2Proof.Safety

/-- The count announced is `min(len, available())`: `len` bounds it, so no bit is lost (R126). -/
theorem burstCount_toNat (len : Word) (n : Nat) : (burstCount len n).toNat = min len.toNat n :=
  Word.toNat_ofNat_of_le (Nat.min_le_left _ _)

/-- `READ_BYTE` of an empty buffer only answers (R121 corner case (a)). -/
theorem exec_readByte_empty {s : State} (hr : ReadyAt .c s) (hN : s.N ≠ 0) (ha : available s = 0) :
    exec .readByte s = .next (respond s.turn .ok 0 s) := by
  obtain ⟨ht, hb⟩ := hr
  rw [exec_readByte, command_runs (ht ▸ hb) (by simp [ht, Instr.ports]) (isHeld_of_not_control rfl s)
    (fun _ => hN), if_pos ha]

/-- `READ_BYTE` of a buffer that holds a byte: the oldest is taken out, counted in the answer and delivered (R121). -/
theorem exec_readByte_runs {s : State} {v : Byte} (hr : ReadyAt .c s) (hN : s.N ≠ 0) (ha : available s ≠ 0)
    (haddr : slotAddr s.base s.tail < Config.addressCount)
    (hv : s.mem.read (slotAddr s.base s.tail) = some v) :
    exec .readByte s = .next (emit v (respond s.turn .ok 1 (popped s))) := by
  obtain ⟨ht, hb⟩ := hr
  rw [exec_readByte, command_runs (ht ▸ hb) (by simp [ht, Instr.ports]) (isHeld_of_not_control rfl s)
    (fun _ => hN), if_neg ha, pop_ok hN ha haddr hv]
  rfl

/-- `READ` on a bound block whose port C is ready: the count is announced and its burst started (R122). -/
theorem exec_read_runs (len : Word) {s : State} (hr : ReadyAt .c s) (hN : s.N ≠ 0) :
    exec (.read len) s = .next (startRead (burstCount len (available s))
      (respond s.turn .ok (burstCount len (available s)) s)) := by
  obtain ⟨ht, hb⟩ := hr
  rw [exec_read, command_runs (ht ▸ hb) (by simp [ht, Instr.ports]) (isHeld_of_not_control rfl s) fun _ => hN]

/-- `PEEK` on a bound block whose port C is ready: the count is announced and its burst started (R124). -/
theorem exec_peek_runs (len : Word) {s : State} (hr : ReadyAt .c s) (hN : s.N ≠ 0) :
    exec (.peek len) s = .next (startPeek (burstCount len (available s))
      (respond s.turn .ok (burstCount len (available s)) s)) := by
  obtain ⟨ht, hb⟩ := hr
  rw [exec_peek, command_runs (ht ▸ hb) (by simp [ht, Instr.ports]) (isHeld_of_not_control rfl s) fun _ => hN]

theorem answered_startRead {s t : State} {r : Rsp} {v : Word} (h : Answered s t r v) (n : Word) :
    Answered s (startRead n t) r v := by
  simpa only [Answered, slot_startRead, startRead_replies, startRead_script, startRead_turn] using h

/-- A `READ` of nothing starts no burst (R122). -/
theorem startRead_nothing {n : Word} (h : n = 0) (s : State) : startRead n s = s := if_pos h

theorem startRead_consumer {n : Word} (h : n ≠ 0) (s : State) :
    (startRead n s).cMode = .read ∧ (startRead n s).cRem = n ∧ (startRead n s).cCur = s.cCur := by
  rw [startRead, if_neg h]
  exact ⟨rfl, rfl, rfl⟩

/-- A `PEEK` of nothing starts no burst (R124). -/
theorem startPeek_nothing {n : Word} (h : n = 0) (s : State) : startPeek n s = s := if_pos h

theorem startPeek_consumer {n : Word} (h : n ≠ 0) (s : State) :
    (startPeek n s).cMode = .peek ∧ (startPeek n s).cRem = n ∧ (startPeek n s).cCur = s.tail := by
  rw [startPeek, if_neg h]
  exact ⟨rfl, rfl, rfl⟩

theorem answered_startPeek {s t : State} {r : Rsp} {v : Word} (h : Answered s t r v) (n : Word) :
    Answered s (startPeek n t) r v := by
  simpa only [Answered, slot_startPeek, startPeek_replies, startPeek_script, startPeek_turn] using h

theorem slot_emit (b : Byte) (s : State) (x : Port) : (emit b s).slot x = s.slot x := by cases x <;> rfl

theorem answered_readByte (v : Byte) (s : State) :
    Answered s (emit v (respond s.turn .ok 1 (popped s))) .ok 1 :=
  ⟨by rw [slot_emit, respond_slot_same], fun y hy => by rw [slot_emit, respond_slot_other _ _ _ _ _ hy, slot_popped],
    by simp [popped], by simp [popped], by simp [popped]⟩

/-- What a `pop` does to the ring, storage and the bus, for an outcome `t` that writes nothing else of them (R120). -/
abbrev TakenAtTail (s t : State) : Prop :=
  t.tail.toNat = (s.tail.toNat + 1) % s.N.toNat ∧ t.full = false ∧ t.base = s.base ∧ t.N = s.N ∧
  t.head = s.head ∧ (∀ a, t.mem.read a = s.mem.read a) ∧
  t.bus = s.bus ++ [.read (s.base.toNat + s.tail.toNat)]

theorem takenAtTail_popped {s : State} (hN : s.N ≠ 0) : TakenAtTail s (popped s) :=
  ⟨nextIndex_toNat hN, rfl, rfl, rfl, rfl, fun _ => rfl, rfl⟩

/-- The state the data beat of a `READ` leaves, with the events `rest` still to come (R122). -/
def readDelivered (v : Byte) (rest : List Event) (s : State) : State :=
  countDelivered (emit v (popped { s with script := rest, turn := .c }))

/-- The state the data beat of a `PEEK` leaves, with the events `rest` still to come (R124). -/
def peekDelivered (v : Byte) (rest : List Event) (s : State) : State :=
  countDelivered
    { emit v { s with script := rest, turn := .c, bus := s.bus ++ [.read (slotAddr s.base s.cCur)] } with
      cCur := nextIndex s.cCur s.N }

/-- The beat of port C while a `READ` is in flight: the oldest byte is taken out, delivered and counted off (R122). -/
theorem step_readData {s : State} {wdata v : Byte} {rest : List Event} (hs : s.script = .beat .c wdata :: rest)
    (hm : s.cMode = .read) (hr : s.cRem ≠ 0) (hN : s.N ≠ 0) (ha : available s ≠ 0)
    (haddr : slotAddr s.base s.tail < Config.addressCount)
    (hv : s.mem.read (slotAddr s.base s.tail) = some v) : step s = .next (readDelivered v rest s) := by
  have hpop : pop { s with script := rest, turn := .c } = .ok (v, popped { s with script := rest, turn := .c }) :=
    pop_ok hN ha haddr hv
  obtain ⟨-, hstep, -⟩ := busyPortTakesDataBeat s wdata rest
  rw [hstep hs hm, readDataBeat, if_neg hr, hpop]
  rfl

/-- The beat of port C while a `PEEK` is in flight: the byte under the cursor is delivered and counted off (R124). -/
theorem step_peekData {s : State} {wdata v : Byte} {rest : List Event} (hs : s.script = .beat .c wdata :: rest)
    (hm : s.cMode = .peek) (hr : s.cRem ≠ 0) (hN : s.N ≠ 0)
    (haddr : slotAddr s.base s.cCur < Config.addressCount)
    (hv : s.mem.read (slotAddr s.base s.cCur) = some v) : step s = .next (peekDelivered v rest s) := by
  have hread : memRead (slotAddr s.base s.cCur) { s with script := rest, turn := .c } =
      .ok (v, { s with script := rest, turn := .c, bus := s.bus ++ [.read (slotAddr s.base s.cCur)] }) :=
    memRead_ok haddr hv
  obtain ⟨-, -, hstep⟩ := busyPortTakesDataBeat s wdata rest
  rw [hstep hs hm, peekDataBeat, if_neg hr, if_neg hN, hread]
  rfl

/-- A burst ends with its last byte and no earlier. -/
theorem countDelivered_cMode_eq (s : State) : (countDelivered s).cMode = if s.cRem = 1 then .idle else s.cMode := by
  simp only [countDelivered_cMode, sub_eq_zero]

/-- A burst keeps its mode or ends. -/
theorem countDelivered_cMode_ne {s : State} {m : CMode} (hm : m ≠ .idle) (h : s.cMode ≠ m) :
    (countDelivered s).cMode ≠ m := by
  rw [countDelivered_cMode]
  split
  · exact hm.symm
  · exact h

end Sys2Proof.Machine
end

section
/-! SUPPORT. The family of spec/42_consumer_ops.md: one beat of `READ_BYTE`, `READ` and `PEEK`. -/

namespace Sys2Proof.Safety

open Sys2Proof.Machine

/-- Settles O29: the empty buffer takes the first branch of the rule, which only answers. -/
theorem readByteOnEmptyDeliversNothing : Obligations.ReadByteOnEmptyDeliversNothing := by
  intro s hr hN ha
  obtain ⟨hring, hproducer, hconsumer, hcrc, hstorage, hrdata⟩ := respond_frame s.turn .ok 0 s
  exact ⟨_, exec_readByte_empty hr hN ha, hrdata, hring, hproducer, hconsumer, hcrc, hstorage,
    answered_respond .ok 0 s⟩

/-- Settles O28: the command takes the oldest byte out as `pop` does, is answered, and delivers it. -/
theorem readByteTakesOldest : Obligations.ReadByteTakesOldest := by
  intro s v hr hN ha haddr hv
  obtain ⟨htail, hfull, hbase, hcapacity, hhead, hmem, hbus⟩ := takenAtTail_popped hN
  refine ⟨_, exec_readByte_runs hr hN ha haddr hv, ?_⟩
  simp only [emit_rdata, emit_tail, emit_full, emit_base, emit_N, emit_head, emit_mem, emit_bus, respond_rdata,
    respond_tail, respond_full, respond_base, respond_N, respond_head, respond_mem, respond_bus]
  exact ⟨rfl, htail, hfull, hbase, hcapacity, hhead, hmem, hbus, by simp [SameProducer, popped],
    by simp [SameConsumer, popped], by simp [SameCrc, popped], answered_readByte v s⟩

/-- Settles O30: the answer and the start of the burst are all that the accept beat does. -/
theorem readAcceptAnnouncesCount : Obligations.ReadAcceptAnnouncesCount := by
  intro s len hr hN
  refine ⟨_, _, exec_read_runs len hr hN, burstCount_toNat len (available s),
    answered_startRead (answered_respond .ok _ s) _, fun h0 => ?_, fun h0 => ?_, by simp [SameRing],
    by simp [SameProducer], by simp [SameCrc], by simp [SameStorage], by simp⟩
  · rw [startRead_nothing h0]
    exact ⟨respond_cMode .., respond_cRem .., respond_cCur ..⟩
  · simpa using startRead_consumer h0 (respond s.turn .ok _ s)

/-- Settles O32: the answer and the start of the burst, its cursor at `tail`, are all that the accept beat does. -/
theorem peekAcceptAnnouncesCount : Obligations.PeekAcceptAnnouncesCount := by
  intro s len hr hN
  refine ⟨_, _, exec_peek_runs len hr hN, burstCount_toNat len (available s),
    answered_startPeek (answered_respond .ok _ s) _, fun h0 => ?_, fun h0 => ?_, by simp [SameRing],
    by simp [SameProducer], by simp [SameCrc], by simp [SameStorage], by simp⟩
  · rw [startPeek_nothing h0]
    exact ⟨respond_cMode .., respond_cRem .., respond_cCur ..⟩
  · simpa using startPeek_consumer h0 (respond s.turn .ok _ s)

/-- Settles O31: the data beat takes the oldest byte out as `pop` does, delivers it and counts it off, at the turn
of port C. -/
theorem readDataBeatDeliversOldest : Obligations.ReadDataBeatDeliversOldest := by
  intro s wdata v rest hs hm hr hN ha haddr hv
  obtain ⟨htail, hfull, hbase, hcapacity, hhead, hmem, hbus⟩ := takenAtTail_popped hN
  refine ⟨_, step_readData hs hm hr hN ha haddr hv, rfl, htail, hfull, hbase, hcapacity, hhead,
    Word.toNat_sub_one hr, rfl, ?_, hmem, hbus, ⟨rfl, rfl⟩, ⟨rfl, rfl, rfl⟩, fun y => by cases y <;> rfl, rfl, rfl, rfl⟩
  exact (countDelivered_cMode_eq _).trans (congrArg _ hm)

/-- Settles O33: the data beat delivers the byte under the cursor, moves the cursor and counts the byte off, and it
does not call `pop`. -/
theorem peekDataBeatKeepsRing : Obligations.PeekDataBeatKeepsRing := by
  intro s wdata v rest hs hm hr hN haddr hv
  refine ⟨_, step_peekData hs hm hr hN haddr hv, rfl, ⟨rfl, rfl, rfl, rfl, rfl⟩, nextIndex_toNat hN,
    Word.toNat_sub_one hr, ?_, fun _ => rfl, rfl, ⟨rfl, rfl⟩, ⟨rfl, rfl, rfl⟩, fun y => by cases y <;> rfl, rfl, rfl, rfl⟩
  exact (countDelivered_cMode_eq _).trans (congrArg _ hm)

end Sys2Proof.Safety
end

section
/-! SUPPORT. The bursts of port C: what one data beat does to the ring under the invariant, what the beats of the other ports leave of the burst, and runs that end with its last byte (spec/20_memory.md R60, spec/42_consumer_ops.md R122 to R125, R127). -/

namespace Sys2Proof.Safety

open Sys2Proof.Machine

/-! One data beat. -/

/-- The data beat of a `READ`: its byte is the oldest held, and the ring holds the others after it (R122). -/
theorem BlockInv.step_read {s : State} {wdata : Byte} {rest : List Event} (hI : BlockInv s)
    (hs : s.script = .beat .c wdata :: rest) (hm : s.cMode = .read) :
    ∃ v, held s = v :: held (readDelivered v rest s) ∧ step s = .next (readDelivered v rest s) := by
  have hN := hI.bound_of_burst (by simp [burstInFlight, hm])
  have hr : s.cRem ≠ 0 := fun h => by simp [hI.consumer.mpr h] at hm
  have ha : available s ≠ 0 := ((Word.toNat_pos hr).trans_le (hI.readFits hm)).ne'
  obtain ⟨-, htail⟩ := hI.indices hN
  obtain ⟨v, hv⟩ := hI.read_oldest hN ha
  exact ⟨v, held_popped (hI.ringOk hN) ha hv, step_readData hs hm hr hN ha (hI.slotAddr_lt hN htail) hv⟩

/-- The data beat of a `PEEK`: its byte is the one under the cursor (R124). -/
theorem BlockInv.step_peek {s : State} {wdata : Byte} {rest : List Event} (hI : BlockInv s)
    (hs : s.script = .beat .c wdata :: rest) (hm : s.cMode = .peek) :
    ∃ v, s.mem.read (slotAddr s.base s.cCur) = some v ∧ step s = .next (peekDelivered v rest s) := by
  have hN := hI.bound_of_burst (by simp [burstInFlight, hm])
  have hr : s.cRem ≠ 0 := fun h => by simp [hI.consumer.mpr h] at hm
  obtain ⟨hcur, -⟩ := hI.peekFits hm
  obtain ⟨v, hv⟩ := hI.read_cursor hm
  exact ⟨v, hv, step_peekData hs hm hr hN (hI.slotAddr_lt hN hcur) hv⟩

theorem BlockInv.mode_of_owed {s : State} (hI : BlockInv s) (hr : s.cRem ≠ 0) :
    s.cMode = .read ∨ s.cMode = .peek := by
  cases hm : s.cMode with
  | idle => exact absurd (hI.consumer.mp hm) hr
  | read => exact .inl rfl
  | peek => exact .inr rfl

/-- A beat of port C while it owes bytes delivers one of them and counts it off. -/
theorem BlockInv.step_burst {s t : State} {wdata : Byte} {rest : List Event} (hI : BlockInv s)
    (hs : s.script = .beat .c wdata :: rest) (hr : s.cRem ≠ 0) (h : step s = .next t) :
    ∃ v, t.rdata = s.rdata ++ [v] ∧ t.cRem = s.cRem - 1 := by
  rcases hI.mode_of_owed hr with hm | hm
  · obtain ⟨v, -, hstep⟩ := hI.step_read hs hm
    cases hstep.symm.trans h
    exact ⟨v, rfl, rfl⟩
  · obtain ⟨v, -, hstep⟩ := hI.step_peek hs hm
    cases hstep.symm.trans h
    exact ⟨v, rfl, rfl⟩

/-! The events that give port C no beat. -/

theorem eq_beat_of_isBeatOf {x : Port} {e : Event} (h : isBeatOf x e = true) : ∃ wdata, e = .beat x wdata := by
  cases e with
  | present => cases h
  | beat y wdata => exact ⟨wdata, by rw [eq_of_beq h]⟩
  | hardwareReset => cases h

theorem step_present_inv {s t : State} {x : Port} {w : CommandWord} {rest : List Event}
    (hs : s.script = .present x w :: rest) (h : step s = .next t) :
    t = { s with script := rest }.setSlot x (some w) := by
  simp only [step, hs, onEvent, present] at h
  split at h <;> cases h
  rfl

/-- They leave the sequencer and `RDATA` of port C alone, hardware reset aside (R32). -/
theorem step_consumer_kept {s t : State} {e : Event} {rest : List Event} (hs : s.script = e :: rest)
    (hreset : isHardwareReset e = false) (hc : isBeatOf .c e = false) (h : step s = .next t) :
    SameConsumer s t ∧ t.rdata = s.rdata := by
  cases e with
  | hardwareReset => cases hreset
  | present x w =>
    rw [step_present_inv hs h]
    exact ⟨⟨State.setSlot_cMode .., State.setSlot_cRem .., State.setSlot_cCur ..⟩, State.setSlot_rdata ..⟩
  | beat x wdata =>
    obtain ⟨hk, -, hp, hh, -⟩ := eachPortWritesItsOwn s t x wdata rest hs h
    cases x with
    | h => obtain ⟨-, hconsumer, -, hrdata⟩ := hh rfl; exact ⟨hconsumer, hrdata⟩
    | p => obtain ⟨-, -, hconsumer, hrdata⟩ := hp rfl; exact ⟨hconsumer, hrdata⟩
    | c => cases hc
    | k => obtain ⟨-, -, hconsumer, -, hrdata⟩ := hk rfl; exact ⟨hconsumer, hrdata⟩

/-- While a burst is in flight they leave the ring and storage alone, or store one byte at port P: a control
operation, which would empty the ring, is held (R103). -/
theorem step_ring_of_burst {s t : State} {e : Event} {rest : List Event} (hs : s.script = e :: rest)
    (hreset : isHardwareReset e = false) (hc : isBeatOf .c e = false) (hburst : burstInFlight s = true)
    (h : step s = .next t) :
    RingAndStorageKept s t ∨
      (isBeatOf .p e = true ∧ s.N ≠ 0 ∧ ∃ b, RingAndStorageKept (pushed b s) t) := by
  cases step_effect h with
  | noEvent h0 => rw [hs] at h0; cases h0
  | nothingThere => exact .inl (by constructor <;> simp [SameRing])
  | present => exact .inl (by constructor <;> simp [SameRing])
  | hardwareReset _ h0 => rw [hs] at h0; cases h0; cases hreset
  | reserved => exact .inl (by constructor <;> simp [SameRing])
  | command x _ _ _ _ _ h0 _ _ _ he =>
    rw [hs] at h0; cases h0
    cases he with
    | init _ _ _ _ hidle => exact absurd (hburst.symm.trans hidle) (by simp)
    | reset _ _ hidle => exact absurd (hburst.symm.trans hidle) (by simp)
    | writeByte b _ ht _ hN =>
      exact .inr ⟨beq_iff_eq.mpr ht, hN, b, by constructor <;> simp [SameRing, pushed_full, pushed_tail]⟩
    | readByte _ _ ht => exact absurd (beq_iff_eq.mpr ht) (by simpa [isBeatOf] using hc)
    | _ => exact .inl (by constructor <;> simp [SameRing])
  | producerData b _ h0 _ _ hN =>
    rw [hs] at h0; cases h0
    exact .inr ⟨rfl, hN, b, by constructor <;> simp [SameRing, pushed_full, pushed_tail]⟩
  | readData _ _ _ h0 => rw [hs] at h0; cases h0; cases hc
  | peekData _ _ _ h0 => rw [hs] at h0; cases h0; cases hc

/-- While a burst is in flight and the ring has room for what port P may store, they only append (R125). -/
theorem BlockInv.step_appends {s t : State} {e : Event} {rest : List Event} (hI : BlockInv s)
    (hs : s.script = e :: rest) (hreset : isHardwareReset e = false) (hc : isBeatOf .c e = false)
    (hburst : burstInFlight s = true) (hroom : isBeatOf .p e = true → s.full = false) (h : step s = .next t) :
    t.N = s.N ∧ t.tail = s.tail ∧
      ∃ later, held t = held s ++ later ∧ later.length ≤ if isBeatOf .p e then 1 else 0 := by
  rcases step_ring_of_burst hs hreset hc hburst h with hk | ⟨hp, hN, b, hk⟩
  · obtain ⟨-, hcapacity, -, htail, -⟩ := hk.ring
    exact ⟨hcapacity, htail, [], by rw [hk.held_eq, List.append_nil], Nat.zero_le _⟩
  · have hf := hroom hp
    obtain ⟨-, hcapacity, -, htail, -⟩ := hk.ring
    refine ⟨hcapacity.trans (pushed_N b s), htail.trans ?_, [b], ?_, by simp [hp]⟩
    · simp [pushed_tail, hf]
    · rw [hk.held_eq, held_pushed_of_not_full (hI.ringOk hN) hf]

/-! A burst to its end. -/

/-- With one beat of port C for each byte it owes, and whatever else between but hardware reset, a burst
delivers that many bytes and ends (R60). -/
theorem BlockInv.run_burst {s t : State} {evs rest : List Event} (hI : BlockInv s) (hs : s.script = evs ++ rest)
    (hreset : evs.all (fun e => !isHardwareReset e) = true)
    (hc : evs.countP (isBeatOf .c) = s.cRem.toNat) (hrun : run evs.length s = .next t) :
    ∃ vs, vs.length = s.cRem.toNat ∧ t.rdata = s.rdata ++ vs ∧ t.cMode = .idle := by
  induction evs generalizing s with
  | nil =>
    cases run_zero_inv hrun
    exact ⟨[], hc, (List.append_nil _).symm, hI.consumer.mpr (BitVec.eq_of_toNat_eq hc.symm)⟩
  | cons e evs ih =>
    obtain ⟨u, hu, hlater⟩ := run_succ_inv hrun
    rw [List.all_cons, Bool.and_eq_true, Bool.not_eq_true'] at hreset
    obtain ⟨he, hreset⟩ := hreset
    have hU := hI.after_step hu
    have hscript := script_of_step hs hu
    cases hbeat : isBeatOf .c e with
    | false =>
      obtain ⟨⟨-, hrem, -⟩, hrdata⟩ := step_consumer_kept hs he hbeat hu
      rw [List.countP_cons_of_neg (by simp [hbeat]), ← hrem] at hc
      rw [← hrem, ← hrdata]
      exact ih hU hscript hreset hc hlater
    | true =>
      obtain ⟨wdata, rfl⟩ := eq_beat_of_isBeatOf hbeat
      rw [List.countP_cons_of_pos hbeat] at hc
      have hr : s.cRem ≠ 0 := fun h0 => by simp [h0] at hc
      obtain ⟨v, hrdata, hrem⟩ := hI.step_burst hs hr hu
      have hcount : u.cRem.toNat = s.cRem.toNat - 1 := by rw [hrem, Word.toNat_sub_one hr]
      obtain ⟨vs, hlen, ht, hidle⟩ := ih hU hscript hreset (by omega) hlater
      exact ⟨v :: vs, by rw [List.length_cons]; omega, by rw [ht, hrdata, List.append_assoc]; rfl, hidle⟩

/-- With no other beat between, a `READ` delivers the bytes held, oldest first, and takes them out (R122, R127). -/
theorem BlockInv.run_read {s : State} {bs later : List Byte} {wdata : Byte} {rest : List Event} (hI : BlockInv s)
    (hm : s.cMode ≠ .peek) (hheld : held s = bs ++ later) (hrem : s.cRem.toNat = bs.length)
    (hs : s.script = List.replicate bs.length (.beat .c wdata) ++ rest) :
    ∃ t, run bs.length s = .next t ∧ t.rdata = s.rdata ++ bs ∧ held t = later ∧ SameProducer s t ∧
      t.cMode = .idle := by
  induction bs generalizing s with
  | nil =>
    have hdone : s.cRem = 0 := BitVec.eq_of_toNat_eq hrem
    exact ⟨s, rfl, (List.append_nil _).symm, hheld, ⟨rfl, rfl⟩, hI.consumer.mpr hdone⟩
  | cons b bs ih =>
    rw [List.length_cons] at hrem
    have hr : s.cRem ≠ 0 := fun h => by simp [h] at hrem
    obtain ⟨v, hnext, hstep⟩ := hI.step_read hs ((hI.mode_of_owed hr).resolve_right hm)
    obtain ⟨rfl, hothers⟩ := List.cons.inj (hnext.symm.trans hheld)
    obtain ⟨t, hrun, hrdata, hleft, hproducer, hidle⟩ :=
      ih (hI.after_step hstep) (countDelivered_cMode_ne (by nofun) hm) hothers
        ((Word.toNat_sub_one hr).trans (by omega)) rfl
    exact ⟨t, (run_succ_of hstep).trans hrun, hrdata.trans (List.append_assoc ..), hleft, hproducer, hidle⟩

/-- The cursor stands `d` places after the oldest byte, and the bytes it has yet to visit are held. -/
structure CursorAt (d : Nat) (s : State) : Prop where
  slot : s.cCur.toNat = (s.tail.toNat + d) % s.N.toNat
  within : d + s.cRem.toNat ≤ available s

/-- A data beat of a `PEEK` delivers the byte under the cursor and moves the cursor one place on; the bytes held
stay where they are (R124). -/
theorem BlockInv.step_peek_cursor {s t : State} {d : Nat} {wdata : Byte} {rest : List Event} (hI : BlockInv s)
    (hs : s.script = .beat .c wdata :: rest) (hm : s.cMode = .peek) (hat : CursorAt d s) (h : step s = .next t) :
    ∃ v, t.rdata = s.rdata ++ [v] ∧ (held s).drop d = v :: (held t).drop (d + 1) ∧ CursorAt (d + 1) t ∧
      t.cRem.toNat + 1 = s.cRem.toNat ∧ t.cMode ≠ .read ∧ free t = free s := by
  have hN := hI.bound_of_burst (by simp [burstInFlight, hm])
  have hr : s.cRem ≠ 0 := fun h => by simp [hI.consumer.mpr h] at hm
  obtain ⟨hslot, hwithin⟩ := hat
  obtain ⟨v, hv, hstep⟩ := hI.step_peek hs hm
  obtain rfl := Host.Outcome.next.inj (hstep.symm.trans h)
  have hpos := Word.toNat_pos hr
  have hcount : (peekDelivered v rest s).cRem.toNat + 1 = s.cRem.toNat := by
    have : (peekDelivered v rest s).cRem.toNat = s.cRem.toNat - 1 := Word.toNat_sub_one hr
    omega
  have hget : (held s)[d]? = some v := by
    rw [hI.getElem?_held (by omega), addrAfter, ← hslot]
    exact hv
  obtain ⟨hlen, hget⟩ := List.getElem?_eq_some_iff.mp hget
  have hdrop : (held s).drop d = v :: (held s).drop (d + 1) := by rw [List.drop_eq_getElem_cons hlen, hget]
  have hnext : (nextIndex s.cCur s.N).toNat = (s.tail.toNat + (d + 1)) % s.N.toNat := by
    rw [nextIndex_toNat hN, hslot, Nat.mod_add_mod, Nat.add_assoc]
  have hheld : d + 1 + (peekDelivered v rest s).cRem.toNat ≤ available s := by omega
  exact ⟨v, rfl, hdrop, ⟨hnext, hheld⟩, hcount, countDelivered_cMode_ne (by nofun) (by simp [hm]), rfl⟩

/-- Any other event, where what port P stores finds room, leaves the cursor where it stands among the bytes held, and
those bytes where they are (R125). -/
theorem BlockInv.step_beside_cursor {s t : State} {d : Nat} {e : Event} {rest : List Event} (hI : BlockInv s)
    (hs : s.script = e :: rest) (hreset : isHardwareReset e = false) (hc : isBeatOf .c e = false)
    (hburst : burstInFlight s = true) (hat : CursorAt d s)
    (hroom : (if isBeatOf .p e then 1 else 0) ≤ free s) (h : step s = .next t) :
    CursorAt d t ∧ ((held t).drop d).take s.cRem.toNat = ((held s).drop d).take s.cRem.toNat ∧
      free s ≤ free t + if isBeatOf .p e then 1 else 0 := by
  obtain ⟨⟨-, hrem, hcur⟩, -⟩ := step_consumer_kept hs hreset hc h
  have hnotfull : isBeatOf .p e = true → s.full = false := fun hp => by
    rw [hp, if_pos rfl, free] at hroom
    by_contra hf
    have := available_full (s := s) (by simpa using hf)
    omega
  obtain ⟨hcapacity, htail, later, hheld, hlater⟩ := hI.step_appends hs hreset hc hburst hnotfull h
  have hlen := hI.length_held
  have hcount : available t = available s + later.length := by
    rw [← (hI.after_step h).length_held, hheld, List.length_append, hlen]
  obtain ⟨hslot, hwithin⟩ := hat
  refine ⟨⟨by rw [hcur, htail, hcapacity, hslot], by rw [hrem]; omega⟩, ?_, by simp only [free, hcapacity]; omega⟩
  rw [hheld, List.drop_append_of_le_length (by omega), List.take_append_of_le_length (by rw [List.length_drop]; omega)]

/-- Where what port P stores meanwhile finds room, a `PEEK` delivers the bytes from the cursor on (R125). -/
theorem BlockInv.run_peek {s t : State} {evs rest : List Event} {d : Nat} (hI : BlockInv s) (hm : s.cMode ≠ .read)
    (hat : CursorAt d s) (hs : s.script = evs ++ rest)
    (hreset : evs.all (fun e => !isHardwareReset e) = true)
    (hc : evs.countP (isBeatOf .c) = s.cRem.toNat) (hp : evs.countP (isBeatOf .p) ≤ free s)
    (hrun : run evs.length s = .next t) :
    t.rdata = s.rdata ++ ((held s).drop d).take s.cRem.toNat := by
  induction evs generalizing s d with
  | nil =>
    cases run_zero_inv hrun
    simp [← hc]
  | cons e evs ih =>
    by_cases hr : s.cRem = 0
    · obtain ⟨vs, hlen, ht, -⟩ := hI.run_burst hs hreset hc hrun
      have hnone : vs = [] := List.length_eq_zero_iff.mp (by simpa [hr] using hlen)
      simp [ht, hnone, hr]
    · have hpeek := (hI.mode_of_owed hr).resolve_left hm
      obtain ⟨u, hu, hlater⟩ := run_succ_inv hrun
      rw [List.all_cons, Bool.and_eq_true, Bool.not_eq_true'] at hreset
      obtain ⟨he, hreset⟩ := hreset
      have hU := hI.after_step hu
      have hscript := script_of_step hs hu
      rw [List.countP_cons] at hp
      cases hbeat : isBeatOf .c e with
      | false =>
        obtain ⟨⟨hmode, hrem, -⟩, hrdata⟩ := step_consumer_kept hs he hbeat hu
        obtain ⟨hatU, hbytes, hfree⟩ :=
          hI.step_beside_cursor hs he hbeat (by simp [burstInFlight, hpeek]) hat (by omega) hu
        rw [List.countP_cons_of_neg (by simp [hbeat]), ← hrem] at hc
        rw [ih hU (by rwa [hmode]) hatU hscript hreset hc (by omega) hlater, hrdata, hrem, hbytes]
      | true =>
        obtain ⟨wdata, rfl⟩ := eq_beat_of_isBeatOf hbeat
        obtain ⟨v, hrdata, hdrop, hatU, hcount, hmode, hfree⟩ := hI.step_peek_cursor hs hpeek hat hu
        rw [List.countP_cons_of_pos hbeat] at hc
        rw [ih hU hmode hatU hscript hreset (by omega) (by omega) hlater, hrdata, hdrop, ← hcount,
          List.take_succ_cons, List.append_assoc]
        rfl

/-! A `WRITE` and the `READ` after it. -/

/-- The data beats of a payload touch neither the binding nor anything of port C (R31). -/
theorem BlockInv.run_payload_port {s t : State} {bs : List Byte} {rest : List Event} (hI : BlockInv s)
    (hN : s.N ≠ 0) (hrem : bs.length ≤ s.pRem.toNat) (hs : s.script = bs.map (fun b => .beat .p b) ++ rest)
    (hrun : run bs.length s = .next t) :
    t.N = s.N ∧ t.cMode = s.cMode ∧ t.cCmd = s.cCmd ∧ t.rdata = s.rdata ∧ t.script = rest := by
  induction bs generalizing s with
  | nil =>
    cases run_zero_inv hrun
    exact ⟨rfl, rfl, rfl, rfl, hs⟩
  | cons b bs ih =>
    rw [List.length_cons] at hrem
    have hr : s.pRem ≠ 0 := fun h => by simp [h] at hrem
    have hb : s.pBusy = true := by simpa using mt hI.producer.mp hr
    have hstep := step_producerData (rest := bs.map (fun b => .beat .p b) ++ rest) hs hb hr hN (hI.slotAddr_head_lt hN)
    have hcount := Word.toNat_sub_one hr
    have hlater := (run_succ_of hstep).symm.trans hrun
    simpa using ih (hI.after_step hstep) (by simpa using hN)
      (by rw [countPayload_pRem, pushed_pRem, hcount]; omega) (by simp) hlater

/-- The bytes held depend on the ring registers and on what storage reads as. -/
theorem held_of_sameRing {s t : State} (h : SameRing s t) (hm : ∀ a, t.mem.read a = s.mem.read a) :
    held t = held s := by
  obtain ⟨hbase, hN, hhead, htail, hfull⟩ := h
  simp only [held, addrAfter, available_congr hN hhead htail hfull, hbase, hN, htail, hm]

/-- A `READ` that stands on port C and asks for no less than is held owes, once taken, all that is held (R126). -/
theorem BlockInv.step_readAccept {s : State} {w : CommandWord} {len : Word} {wdata : Byte} {rest : List Event}
    (hI : BlockInv s) (hs : s.script = .beat .c wdata :: rest) (hN : s.N ≠ 0) (hm : s.cMode = .idle)
    (hw : s.cCmd = some w) (hd : decode w = .ok (.read len)) (hlen : available s ≤ len.toNat) :
    ∃ t, step s = .next t ∧ t.cRem.toNat = available s ∧ t.cMode ≠ .peek ∧ held t = held s ∧
      t.rdata = s.rdata ∧ SameProducer s t := by
  have hb : portBusy s .c = false := by simp [portBusy, hm]
  obtain ⟨t, n, hexec, hcount, -, hnone, hsome, hring, hproducer, -, ⟨hmem, -⟩, hrdata⟩ :=
    readAcceptAnnouncesCount { s with script := rest, turn := .c } len ⟨rfl, hb⟩ hN
  have hn : n.toNat = available s := hcount.trans (Nat.min_eq_right hlen)
  refine ⟨t, ?_, ?_, ?_, held_of_sameRing (s := s) hring hmem, hrdata, hproducer⟩
  · rw [step_beat_ready hs hb, firstBeat_some (s := { s with script := rest, turn := .c }) hw, commandBeat, hd]
    exact hexec
  · rw [← hn]
    by_cases h0 : n = 0
    · obtain ⟨-, hrem, -⟩ := hnone h0
      rw [hrem, h0]
      exact congrArg BitVec.toNat (hI.consumer.mp hm)
    · obtain ⟨-, hrem, -⟩ := hsome h0
      rw [hrem]
  · by_cases h0 : n = 0
    · obtain ⟨hmode, -⟩ := hnone h0
      rw [hmode]
      exact ne_of_eq_of_ne hm (by nofun)
    · obtain ⟨hmode, -⟩ := hsome h0
      rw [hmode]
      nofun

end Sys2Proof.Safety
end

section
/-! SUPPORT. The family of spec/42_consumer_ops.md: whole bursts of port C, alone and among the beats of the other ports. -/

namespace Sys2Proof.Safety

open Sys2Proof.Machine

/-- Settles O34: each beat of port C delivers a byte and counts it off, and no other beat touches the burst. -/
theorem readBurstDeliversWhatItAnnounced : Obligations.ReadBurstDeliversWhatItAnnounced := by
  intro s t evs rest hI _ hs hreset hc hrun
  obtain ⟨vs, hlen, hrdata, hidle⟩ := hI.run_burst hs hreset hc hrun
  exact ⟨by rw [hrdata, List.length_append, hlen], hidle⟩

/-- Settles O35: the cursor starts at the oldest byte, and with room for every byte stored meanwhile the bytes it visits
stay held. -/
theorem peekBurstDeliversOldestHeld : Obligations.PeekBurstDeliversOldestHeld := by
  intro s t evs rest hI hm hcur hheld hs hreset hc hp hrun
  obtain ⟨-, -, -, hidle⟩ := hI.run_burst hs hreset hc hrun
  obtain ⟨hslot, -⟩ := hI.peekFits hm
  have hat : CursorAt 0 s := ⟨by rw [← hcur, Nat.add_zero, Nat.mod_eq_of_lt hslot], by omega⟩
  exact ⟨hI.run_peek (by simp [hm]) hat hs hreset hc hp hrun, hidle⟩

/-- Settles O59: the data beats of the `WRITE` leave its payload as what is held (`held_stored`), the `READ` announces
all of it, and its data beats deliver it. -/
theorem writeThenReadRoundTrip : Obligations.WriteThenReadRoundTrip := by
  intro s bs w len wdata rest hI hN ha _ hrem hfits hm hw hd hlen hs
  obtain ⟨u, hwrite, hstored, hleft⟩ := hI.run_payload hN hrem.ge hs
  obtain ⟨hcapacity, hmode, hcmd, hrdata, hscript⟩ := hI.run_payload_port hN hrem.ge hs hwrite
  rw [List.replicate_succ, List.cons_append] at hscript
  have hU := hI.after_run hwrite
  have hheld : held u = bs := by
    have hempty : held s = [] := List.length_eq_zero_iff.mp (hI.length_held.trans ha)
    rw [hstored.held_eq, hI.held_stored hN, hempty, List.nil_append, Nat.sub_eq_zero_of_le hfits, List.drop_zero]
  have hcount : available u = bs.length := by rw [← hU.length_held, hheld]
  obtain ⟨v, haccept, howed, hread, hheld', hrdata', ⟨hbusy, -⟩⟩ :=
    hU.step_readAccept hscript (by rwa [hcapacity]) (hmode.trans hm) (hcmd.trans hw) hd (hcount.trans_le hlen)
  have hV := hU.after_step haccept
  obtain ⟨t, hdelivered, hrdata'', hnone, ⟨hbusy', -⟩, hidle⟩ := hV.run_read (later := []) hread
    (by rw [hheld', hheld, List.append_nil]) (howed.trans hcount) (script_of_step hscript haccept)
  refine ⟨t, ?_, by rw [hrdata'', hrdata', hrdata], ?_, ?_, hidle⟩
  · rw [run_add_of hwrite, run_succ_of haccept, hdelivered]
  · rw [← (hV.after_run hdelivered).length_held, hnone, List.length_nil]
  · have hdone : u.pRem = 0 := BitVec.eq_of_toNat_eq (show u.pRem.toNat = 0 by omega)
    rw [hbusy', hbusy, hU.producer.mpr hdone]

end Sys2Proof.Safety
end

section
/-! SUPPORT. What a status operation is answered: its own rule only answers, its value is the one its first beat computes, and the values as numbers (spec/43_status_ops.md R140 to R144). -/

namespace Sys2Proof.Machine

open Sys2Proof.Safety

/-- A command that no test turns away, and whose own rule only answers, is answered `OK` with its value and writes
nothing. -/
theorem command_answers_ok {i : Instr} (value : State → Word) {s : State} (hb : portBusy s s.turn = false)
    (hp : s.turn ∈ i.ports) (hh : isHeld i s = false) (hN : s.N ≠ 0) :
    ∃ t, command i (fun s => .next (respond s.turn .ok (value s) s)) s = .next t ∧ Answered s t .ok (value s) ∧
      SameRing s t ∧ SameProducer s t ∧ SameConsumer s t ∧ SameCrc s t ∧ SameStorage s t ∧ t.rdata = s.rdata :=
  ⟨_, command_runs hb hp hh fun _ => hN, answered_respond .ok (value s) s, respond_frame s.turn .ok (value s) s⟩

/-- A beat returns one response, so what it was is determined. -/
theorem answered_unique {s t : State} {r r' : Rsp} {v v' : Word} (h : Answered s t r v) (h' : Answered s t r' v') :
    r = r' ∧ v = v' := by
  obtain ⟨-, -, hreplies, -⟩ := h
  obtain ⟨-, -, hreplies', -⟩ := h'
  simpa using hreplies.symm.trans hreplies'

/-- A beat that leaves the state as it is has answered nothing. -/
theorem not_answered_self (s : State) (r : Rsp) (v : Word) : ¬Answered s s r v := by
  rintro ⟨-, -, hreplies, -⟩
  simp at hreplies

/-- Where a command whose own rule only answers was answered `OK`, it was its own rule that answered: the tests before
it wait or raise an error. -/
theorem value_of_answered_ok {i : Instr} {value : State → Word} {s t : State} {v : Word}
    (h : command i (fun s => .next (respond s.turn .ok (value s) s)) s = .next t) (ha : Answered s t .ok v) :
    v = value s := by
  rcases command_cases i (fun s => .next (respond s.turn .ok (value s) s)) s with
    ⟨hwait, -⟩ | ⟨hillegal, -⟩ | ⟨hunbound, -⟩ | ⟨hruns, -⟩
  · cases h.symm.trans hwait
    exact absurd ha (not_answered_self s .ok v)
  · cases h.symm.trans hillegal
    cases (answered_unique ha (answered_respond .errIllegal 0 s)).1
  · cases h.symm.trans hunbound
    cases (answered_unique ha (answered_respond .errUnbound 0 s)).1
  · cases h.symm.trans hruns
    exact (answered_unique ha (answered_respond .ok (value s) s)).2

/-- `available()` of a ring that is not full, over the integers (R140). -/
theorem available_int {s : State} (hN : s.N ≠ 0) (hf : s.full = false) :
    (available s : Int) = ((s.head.toNat : Int) - s.tail.toNat) % s.N.toNat := by
  have hpos := Word.toNat_pos hN
  rw [available, hf, if_neg Bool.false_ne_true]
  exact Int.toNat_of_nonneg (Int.emod_nonneg _ (by omega))

/-- R140: the result lies in `0 .. N`, wherever the indices stand. -/
theorem available_le_capacity {s : State} (hN : s.N ≠ 0) : available s ≤ s.N.toNat := by
  cases hf : s.full
  · have hpos := Word.toNat_pos hN
    have hlt := Int.emod_lt_of_pos ((s.head.toNat : Int) - s.tail.toNat) (b := s.N.toNat) (by omega)
    have := available_int hN hf
    omega
  · exact (available_full hf).le

/-- `AVAILABLE + FREE = N` (R145). -/
theorem available_add_free {s : State} (hN : s.N ≠ 0) : available s + free s = s.N.toNat :=
  Nat.add_sub_cancel' (available_le_capacity hN)

/-- `available()` fits in a `VAL` (R140). -/
theorem toNat_ofNat_available {s : State} (hN : s.N ≠ 0) : (BitVec.ofNat 32 (available s)).toNat = available s :=
  Word.toNat_ofNat_of_le (available_le_capacity hN)

theorem ofNat_available_eq_iff {s : State} (hN : s.N ≠ 0) (v : Word) :
    BitVec.ofNat 32 (available s) = v ↔ available s = v.toNat := by
  rw [BitVec.toNat_eq, toNat_ofNat_available hN]

/-- `free()` fits in a `VAL` (R142). -/
theorem toNat_ofNat_free (s : State) : (BitVec.ofNat 32 (free s)).toNat = free s :=
  Word.toNat_ofNat_of_le (Nat.sub_le s.N.toNat (available s))

theorem isEmpty_eq_true_iff {s : State} : isEmpty s = true ↔ s.full = false ∧ s.head = s.tail := by
  simp [isEmpty]

theorem truth_eq_one_iff {b : Bool} : truth b = 1 ↔ b = true := by
  cases b <;> decide

theorem truth_eq_ite {b : Bool} {p : Prop} [Decidable p] (h : b = true ↔ p) : truth b = if p then 1 else 0 := by
  simp only [truth, h]

end Sys2Proof.Machine
end

section
/-! SUPPORT. The family of spec/43_status_ops.md: `AVAILABLE`, `FREE`, `IS_EMPTY`, `IS_FULL`, and how their values agree. -/

namespace Sys2Proof.Safety

open Sys2Proof.Machine

/-- Settles O36: the value is `available()`, which fits in a `VAL`. -/
theorem availableAnswersCountHeld : Obligations.AvailableAnswersCountHeld := by
  intro s hp hb hN
  obtain ⟨t, hnext, hanswered, hframe⟩ := command_answers_ok (i := .available)
    (fun s => BitVec.ofNat 32 (available s)) hb hp (isHeld_of_not_control rfl s) hN
  refine ⟨t, _, (exec_available s).trans hnext, hanswered, fun hf => ?_, fun hf => ?_, hframe⟩
  · exact (ofNat_available_eq_iff hN s.N).mpr (available_full hf)
  · rw [toNat_ofNat_available hN, available_int hN hf]

/-- Settles O37: the value is what `available()` leaves of `N`. -/
theorem freeAnswersRoomLeft : Obligations.FreeAnswersRoomLeft := by
  intro s hp hb hN
  obtain ⟨t, hnext, hanswered, hframe⟩ := command_answers_ok (i := .free)
    (fun s => BitVec.ofNat 32 (free s)) hb hp (isHeld_of_not_control rfl s) hN
  have hsum := available_add_free hN
  refine ⟨t, _, (exec_free s).trans hnext, hanswered, fun hf => ?_, fun hf => ?_, hframe⟩
  · have hzero : free s = 0 := by rw [free, available_full hf, Nat.sub_self]
    exact BitVec.eq_of_toNat_eq ((toNat_ofNat_free s).trans hzero)
  · rw [toNat_ofNat_free, ← available_int hN hf]
    omega

/-- Settles O38: the value is the truth of `isEmpty`, the test of R143. -/
theorem isEmptyAnswersTruth : Obligations.IsEmptyAnswersTruth := by
  intro s hp hb hN
  rw [← truth_eq_ite isEmpty_eq_true_iff, exec_isEmpty]
  exact command_answers_ok (fun s => truth (isEmpty s)) hb hp (isHeld_of_not_control rfl s) hN

/-- Settles O39: the value is the truth of the flag. -/
theorem isFullAnswersFlag : Obligations.IsFullAnswersFlag := by
  intro s hp hb hN
  rw [exec_isFull]
  exact command_answers_ok (fun s => truth (isFull s)) hb hp (isHeld_of_not_control rfl s) hN

/-- Settles O40: each value is the one its operation computes in `s` (`value_of_answered_ok`), and I4 to I6 of R28 relate
`available()` to the indices and the flag. -/
theorem statusValuesAreConsistent : Obligations.StatusValuesAreConsistent := by
  intro s ta tf te tu va vf ve vu hI hN hta hva htf hvf hte hve htu hvu
  have hring := hI.ringOk hN
  obtain rfl : va = BitVec.ofNat 32 (available s) := value_of_answered_ok ((exec_available s).symm.trans hta) hva
  obtain rfl : vf = BitVec.ofNat 32 (free s) := value_of_answered_ok ((exec_free s).symm.trans htf) hvf
  obtain rfl : ve = truth (isEmpty s) := value_of_answered_ok ((exec_isEmpty s).symm.trans hte) hve
  obtain rfl : vu = truth (isFull s) := value_of_answered_ok ((exec_isFull s).symm.trans htu) hvu
  rw [truth_eq_one_iff, truth_eq_one_iff, isEmpty_eq_true_iff, isFull, ofNat_available_eq_iff hN,
    ofNat_available_eq_iff hN, toNat_ofNat_available hN, toNat_ofNat_free]
  refine ⟨available_add_free hN, hring.empty_iff, hring.full_iff, ?_⟩
  rintro ⟨⟨hnot, -⟩, hfull⟩
  cases hnot.symm.trans hfull

end Sys2Proof.Safety
end

section
/-! SUPPORT. The arithmetic of the CRC unit: the steps are linear and lose nothing, a byte in the high half comes down whole, and two bytes fed in cancel the accumulator exactly where they spell it (spec/44_crc_ops.md R151, R155). -/

namespace Sys2Proof.Machine

theorem crcShift_of_low_clear {c : Crc} (h : c.getLsbD 0 = false) : crcShift c = c >>> 1 :=
  if_neg (by rw [h]; decide)

theorem crcShift_of_low_set {c : Crc} (h : c.getLsbD 0 = true) : crcShift c = c >>> 1 ^^^ Config.crcPoly := if_pos h

/-- What a step xors into the accumulator once it has moved, by the bit that left. -/
theorem crcShift_eq_xor (c : Crc) : crcShift c = c >>> 1 ^^^ if c.getLsbD 0 then Config.crcPoly else 0 := by
  cases h : c.getLsbD 0 with
  | false => exact (crcShift_of_low_clear h).trans BitVec.xor_zero.symm
  | true => exact crcShift_of_low_set h

theorem crcShift_xor (a b : Crc) : crcShift (a ^^^ b) = crcShift a ^^^ crcShift b := by
  have hpoly : (if (a ^^^ b).getLsbD 0 then Config.crcPoly else 0) =
      (if a.getLsbD 0 then Config.crcPoly else 0) ^^^ if b.getLsbD 0 then Config.crcPoly else 0 := by
    rw [BitVec.getLsbD_xor]
    cases a.getLsbD 0 <;> cases b.getLsbD 0 <;> rfl
  rw [crcShift_eq_xor, crcShift_eq_xor a, crcShift_eq_xor b, hpoly, BitVec.ushiftRight_xor_distrib]
  ac_rfl

/-- A step loses nothing: the polynomial's top bit, which the step leaves clear otherwise, tells whether the bit
that left was 1. -/
theorem crcShift_eq_zero_iff (c : Crc) : crcShift c = 0 ↔ c = 0 := by
  refine ⟨fun h => ?_, fun h => by rw [h]; rfl⟩
  cases hlow : c.getLsbD 0 with
  | true =>
    have htop := congrArg (·.getLsbD 15) ((crcShift_of_low_set hlow).symm.trans h)
    simp [Config.crcPoly] at htop
  | false =>
    rw [crcShift_of_low_clear hlow] at h
    refine BitVec.eq_of_getLsbD_eq fun i _ => ?_
    cases i with
    | zero => simpa using hlow
    | succ j => simpa [Nat.add_comm] using congrArg (·.getLsbD j) h

theorem crcShifts_xor (n : Nat) (a b : Crc) : crcShifts n (a ^^^ b) = crcShifts n a ^^^ crcShifts n b := by
  induction n generalizing a b with
  | zero => rfl
  | succ n ih => rw [crcShifts, crcShift_xor, ih]; rfl

theorem crcShifts_eq_zero_iff (n : Nat) (c : Crc) : crcShifts n c = 0 ↔ c = 0 := by
  induction n generalizing c with
  | zero => rfl
  | succ n ih => rw [crcShifts, ih, crcShift_eq_zero_iff]

theorem crcShifts_add (m n : Nat) (c : Crc) : crcShifts (m + n) c = crcShifts n (crcShifts m c) := by
  induction m generalizing c with
  | zero => rw [Nat.zero_add]; rfl
  | succ m ih => rw [Nat.succ_add, crcShifts, ih]; rfl

/-- The steps of the model, which step first and count after, are `Nat.repeat`, which steps last. -/
theorem crcShifts_eq_repeat (n : Nat) (c : Crc) : crcShifts n c = Nat.repeat crcShift n c := by
  induction n with
  | zero => rfl
  | succ n ih => rw [crcShifts_add, ih]; rfl

/-- The step as R151 words it: the bit that leaves is the lowest, and the polynomial is 0xA001. -/
theorem crcShift_eq_ite (c : Crc) : crcShift c = if c &&& 1 = 1 then (c >>> 1) ^^^ 0xA001 else c >>> 1 := by
  have hbit : c &&& 1 = (BitVec.ofBool (c.getLsbD 0)).setWidth 16 := BitVec.and_one_eq_setWidth_ofBool_getLsbD
  rw [crcShift, hbit]
  cases c.getLsbD 0 <;> rfl

theorem crcShifts_of_low_clear (n : Nat) (c : Crc) (hlow : ∀ i < n, c.getLsbD i = false) :
    crcShifts n c = c >>> n := by
  induction n generalizing c with
  | zero => rw [BitVec.ushiftRight_zero]; rfl
  | succ n ih =>
    have hrest : ∀ i < n, (c >>> 1).getLsbD i = false := fun i hi => by
      rw [BitVec.getLsbD_ushiftRight]; exact hlow (1 + i) (by omega)
    rw [crcShifts, crcShift_of_low_clear (hlow 0 n.succ_pos), ih _ hrest, ← BitVec.shiftRight_add, Nat.add_comm]

/-- A byte in the high half is still whole after eight steps, in the low half. -/
theorem crcShifts_eight_high (h : Byte) : crcShifts 8 (h.setWidth 16 <<< 8) = h.setWidth 16 := by
  rw [crcShifts_of_low_clear 8 _ fun i hi => by simp [hi]]
  refine BitVec.eq_of_getLsbD_eq fun i hi => ?_
  have hbyte (hb : h.getLsbD i = true) : i < 8 := BitVec.lt_of_getLsbD hb
  simpa [hi] using fun hb => by have := hbyte hb; omega

theorem byte_append_eq_xor (h l : Byte) : h ++ l = (h.setWidth 16 <<< 8) ^^^ l.setWidth 16 := by
  refine BitVec.eq_of_getLsbD_eq fun i hi => ?_
  rw [BitVec.getLsbD_append]
  by_cases hlow : i < 8
  · simp [hlow, hi]
  · simp [hlow, hi, BitVec.getLsbD_of_ge l i (by omega)]

/-- Two bytes, the low one the argument's low half. -/
theorem crc_eq_append_iff (c : Crc) (h l : Byte) : c = h ++ l ↔ l = c.extractLsb' 0 8 ∧ h = c.extractLsb' 8 8 := by
  constructor
  · rintro rfl
    exact ⟨BitVec.extractLsb'_append_eq_right.symm, BitVec.extractLsb'_append_eq_left.symm⟩
  · rintro ⟨rfl, rfl⟩
    have hjoin : c.extractLsb' 8 8 ++ c.extractLsb' 0 8 = c.extractLsb' 0 16 :=
      BitVec.extractLsb'_append_extractLsb'_eq_extractLsb' rfl
    rw [hjoin, BitVec.extractLsb'_eq_self]

/-- Eight steps bring the high byte down, and of the low byte make what it makes of an empty accumulator. -/
theorem crcShifts_eight_append (h l : Byte) : crcShifts 8 (h ++ l) = h.setWidth 16 ^^^ crcUpdate 0 l := by
  rw [byte_append_eq_xor, crcShifts_xor, crcShifts_eight_high, crcUpdate]
  exact congrArg (fun d => h.setWidth 16 ^^^ crcShifts 8 d) BitVec.zero_xor.symm

/-- A byte meets the low half alone. -/
theorem high_xor_byte (c : Crc) (b : Byte) : ((c ^^^ b.setWidth 16).extractLsb' 8 8).setWidth 16 = c >>> 8 := by
  refine BitVec.eq_of_getLsbD_eq fun i hi => ?_
  by_cases hlow : i < 8
  · simp [hlow, hi]
  · simp [hlow, BitVec.getLsbD_of_ge c (8 + i) (by omega)]

/-- Two bytes fed in meet the two halves of the accumulator, low one first, and take sixteen steps together. -/
theorem crcUpdate_crcUpdate (c : Crc) (lo hi : Byte) :
    crcUpdate (crcUpdate c lo) hi = crcShifts 16 (c ^^^ (hi ++ lo)) :=
  calc crcUpdate (crcUpdate c lo) hi
      = crcShifts 8 (crcShifts 8 (c ^^^ lo.setWidth 16) ^^^ crcShifts 8 (hi.setWidth 16 <<< 8)) := by
        rw [crcShifts_eight_high]; rfl
    _ = crcShifts 16 (c ^^^ lo.setWidth 16 ^^^ hi.setWidth 16 <<< 8) := by
        rw [← crcShifts_xor, ← crcShifts_add]
    _ = crcShifts 16 (c ^^^ (hi ++ lo)) := by
        rw [byte_append_eq_xor, BitVec.xor_assoc, BitVec.xor_comm (lo.setWidth 16)]

end Sys2Proof.Machine
end

section
/-! SUPPORT. Port K runs the operations of the CRC unit at once, and a write of the accumulator leaves everything else (spec/44_crc_ops.md R150 to R152). -/

namespace Sys2Proof.Machine

open Sys2Proof.Safety

/-- Port K has no burst, and an operation of the CRC unit is neither held nor asks for a binding. -/
theorem command_runs_on_k {i : Instr} {body : State → Result} {s : State} (hk : s.turn = .k) (hp : i.ports = [.k])
    (hc : i.control = false) (hb : i.needsBinding = false) : command i body s = body s := by
  refine command_runs ?_ ?_ (isHeld_of_not_control hc s) ?_
  · rw [hk]; rfl
  · simp [hk, hp]
  · simp [hb]

/-- A command of port K whose own rule writes the accumulator and answers `OK` leaves everything else. -/
theorem command_writes_crc {i : Instr} (value : State → Crc) {s : State} (hk : s.turn = .k) (hp : i.ports = [.k])
    (hc : i.control = false) (hb : i.needsBinding = false) :
    ∃ t, command i (fun s => .next (respond s.turn .ok 0 { s with crc := value s })) s = .next t ∧
      t.crc = value s ∧ t.params = s.params ∧ t.draws = s.draws ∧ SameRing s t ∧ SameProducer s t ∧
      SameConsumer s t ∧ SameStorage s t ∧ t.rdata = s.rdata ∧ Answered s t .ok 0 := by
  obtain ⟨hring, hproducer, hconsumer, ⟨hcrc, hparams, hdraws⟩, hstorage, hrdata⟩ :=
    respond_frame s.turn .ok 0 { s with crc := value s }
  exact ⟨_, command_runs_on_k hk hp hc hb, hcrc, hparams, hdraws, hring, hproducer, hconsumer, hstorage, hrdata,
    answered_respond .ok 0 { s with crc := value s }⟩

end Sys2Proof.Machine
end

section
/-! SUPPORT. What the checksum of a frame is, and when its residue is 0 (spec/44_crc_ops.md R153 to R155). -/

namespace Sys2Proof.Machine

theorem eq_appendCrc_iff (ps : Config.Params) (bs : List Byte) (lo hi : Byte) :
    bs ++ [lo, hi] = appendCrc ps bs ↔
      lo = (checksum ps bs).extractLsb' 0 8 ∧ hi = (checksum ps bs).extractLsb' 8 8 := by
  rw [appendCrc, List.append_cancel_left_eq]
  simp

/-- Two bytes bring the accumulator to 0 exactly where they spell it: the sixteen steps lose nothing. -/
theorem crcUpdate_crcUpdate_eq_zero_iff (c : Crc) (lo hi : Byte) :
    crcUpdate (crcUpdate c lo) hi = 0 ↔ lo = c.extractLsb' 0 8 ∧ hi = c.extractLsb' 8 8 := by
  rw [crcUpdate_crcUpdate, crcShifts_eq_zero_iff, ← crc_eq_append_iff]
  exact BitVec.xor_eq_zero_iff

theorem checksum_of_no_xorOut {ps : Config.Params} (h : ps.crcXorOut = 0) (bs : List Byte) :
    checksum ps bs = bs.foldl crcUpdate ps.crcSeed := by
  rw [checksum, h]
  exact BitVec.xor_zero

theorem crcValue_low (s : State) : (crcValue s).extractLsb' 0 16 = s.crc ^^^ s.params.crcXorOut := by
  refine BitVec.eq_of_getLsbD_eq fun i hi => ?_
  simp [crcValue, hi, Nat.lt_trans hi (show 16 < 32 by decide)]

theorem crcValue_high (s : State) : (crcValue s).extractLsb' 16 16 = 0 := by
  refine BitVec.eq_of_getLsbD_eq fun i _ => ?_
  simp [crcValue]

theorem crcValue_eq_zero_iff {s : State} (h : s.params.crcXorOut = 0) : crcValue s = 0 ↔ s.crc = 0 := by
  have hlow : (crcValue s).extractLsb' 0 16 = s.crc := by rw [crcValue_low, h]; exact BitVec.xor_zero
  refine ⟨fun hv => ?_, fun hc => ?_⟩
  · rw [← hlow, hv]; rfl
  · rw [crcValue, hc, h]; rfl

end Sys2Proof.Machine
end

section
/-! SUPPORT. The family of spec/44_crc_ops.md: `CRC_CLEAR`, `CRC_BYTE`, `CRC_GET`, the table form of the accumulator, and the check of a frame. -/

namespace Sys2Proof.Safety

open Sys2Proof.Machine

/-- Settles O44: the high half of the accumulator, which the byte does not meet, comes down whole, and the low half
is the index of the table. -/
theorem crcByteAgreesWithTable : Obligations.CrcByteAgreesWithTable := fun c b =>
  calc crcUpdate c b
      = crcShifts 8 ((c ^^^ b.setWidth 16).extractLsb' 8 8 ++ (c ^^^ b.setWidth 16).extractLsb' 0 8) := by
        rw [← (crc_eq_append_iff _ _ _).mpr ⟨rfl, rfl⟩, crcUpdate]
    _ = c >>> 8 ^^^ crcUpdate 0 ((c ^^^ b.setWidth 16).extractLsb' 0 8) := by
        rw [crcShifts_eight_append, high_xor_byte]

/-- Settles O45: the last two bytes bring the accumulator of the others to 0 exactly where they spell it, and with
`CRC_XOROUT = 0` that accumulator is the checksum. -/
theorem residueIsZeroForCorrectFramesOnly : Obligations.ResidueIsZeroForCorrectFramesOnly := by
  intro s bs lo hi hxor hcrc
  refine ⟨?_, crcValue_eq_zero_iff hxor⟩
  rw [eq_appendCrc_iff, checksum_of_no_xorOut hxor, hcrc, List.foldl_append]
  exact crcUpdate_crcUpdate_eq_zero_iff _ lo hi

/-- Settles O46: the check takes the last two bytes off and compares them with the checksum of what is left. -/
theorem frameCheckAcceptsOnlySealedFrames : Obligations.FrameCheckAcceptsOnlySealedFrames := by
  intro ps bs lo hi
  have htake : (bs ++ [lo, hi]).take ((bs ++ [lo, hi]).length - 2) = bs := by simp
  rw [framePasses, htake, Bool.and_eq_true, decide_eq_true_iff, beq_iff_eq, eq_appendCrc_iff]
  simp

/-- Settles O41: port K runs the command, which writes the accumulator alone. -/
theorem crcClearLoadsSeed : Obligations.CrcClearLoadsSeed := by
  intro s hk
  rw [exec_crcClear]
  exact command_writes_crc (fun s => s.params.crcSeed) hk rfl rfl rfl

/-- Settles O42: port K runs the command, which writes the accumulator alone, and its steps are those of R151. -/
theorem crcByteTakesEightSteps : Obligations.CrcByteTakesEightSteps := by
  intro s b hk
  rw [exec_crcByte, ← funext crcShift_eq_ite, ← crcShifts_eq_repeat]
  exact command_writes_crc (fun s => crcUpdate s.crc b) hk rfl rfl rfl

/-- Settles O43: port K runs the command, which only answers, with the checksum in the low half of `VAL`. -/
theorem crcGetAnswersChecksum : Obligations.CrcGetAnswersChecksum := by
  intro s hk
  exact ⟨_, _, (exec_crcGet s).trans (command_runs_on_k hk rfl rfl rfl), answered_respond .ok (crcValue s) s,
    crcValue_low s, crcValue_high s, respond_frame s.turn .ok (crcValue s) s⟩

end Sys2Proof.Safety
end

section
/-! SUPPORT. Which beats are enabled, what an enabled beat does, and how a run ends (spec/45_common_laws.md R163, spec/70_reset_and_hazards.md R211). -/

namespace Sys2Proof.Safety

open Sys2Proof.Machine

/-! Which beats are enabled. -/

theorem commandEnabled_some {s : State} {x : Port} {w : CommandWord} (h : s.slot x = some w) :
    commandEnabled x s = mayTake x w s := by
  simp only [commandEnabled, h]

/-- A burst in flight keeps its port busy (R33). -/
theorem burstInFlight_iff {s : State} : burstInFlight s = true ↔ ∃ x, portBusy s x = true := by
  refine ⟨fun h => ?_, fun ⟨x, hx⟩ => ?_⟩
  · rcases Bool.or_eq_true _ _ |>.mp h with hp | hc
    · exact ⟨.p, hp⟩
    · exact ⟨.c, hc⟩
  · cases x with
    | h | k => cases hx
    | p => exact Bool.or_eq_true _ _ |>.mpr (.inl hx)
    | c => exact Bool.or_eq_true _ _ |>.mpr (.inr hx)

/-- With no burst in flight no command is held (R103). -/
theorem mayTake_of_no_burst {s : State} (h : burstInFlight s = false) (x : Port) (w : CommandWord) :
    mayTake x w s = true := by
  unfold mayTake
  split
  · rfl
  · simp [isHeld, h]

/-- A command that may not be taken is a control operation held on a port that may issue it (R103). -/
theorem held_of_not_mayTake {s : State} {x : Port} {w : CommandWord} (h : mayTake x w s = false) :
    ∃ i, decode w = .ok i ∧ x ∈ i.ports ∧ isHeld i s = true := by
  unfold mayTake at h
  split at h
  · cases h
  · next i hd => exact ⟨i, hd, by simpa using h⟩

/-- No deadlock (R163): the burst in flight has its data beat, and without one nothing is held. -/
theorem exists_enabled {s : State} (h : burstInFlight s = true ∨ ∃ x w, s.slot x = some w) :
    ∃ x, enabled x s = true := by
  cases hb : burstInFlight s with
  | true =>
    obtain ⟨x, hx⟩ := burstInFlight_iff.mp hb
    exact ⟨x, by simp [enabled, hx]⟩
  | false =>
    obtain ⟨x, w, hw⟩ := h.resolve_left (by simp [hb])
    exact ⟨x, by simp [enabled, commandEnabled_some hw, mayTake_of_no_burst hb]⟩

theorem live_of_enabled {s : State} {x : Port} (h : enabled x s = true) : live x s = true := by
  rcases Bool.or_eq_true _ _ |>.mp h with hb | hc
  · simp [live, hb]
  · cases hw : s.slot x with
    | none => simp [commandEnabled, hw] at hc
    | some w => simp [live, nextCommand, hw, ← commandEnabled_some hw, hc]

/-! The end of a run. -/

/-- The end of a run (R211), with its four ports as one. -/
theorem ended_iff {s : State} : Ended s ↔
    s.script.all (fun e => !presents e) = true ∧ burstInFlight s = false ∧ ∀ x, s.slot x = none := by
  refine ⟨fun ⟨hscript, hburst, hh, hp, hc, hk⟩ => ⟨hscript, hburst, fun x => ?_⟩,
    fun ⟨hscript, hburst, hslot⟩ => ⟨hscript, hburst, hslot .h, hslot .p, hslot .c, hslot .k⟩⟩
  cases x with
  | h => exact hh
  | p => exact hp
  | c => exact hc
  | k => exact hk

theorem not_enabled_of_ended {s : State} (h : Ended s) (x : Port) : enabled x s = false := by
  obtain ⟨-, hburst, hslot⟩ := ended_iff.mp h
  have hb : portBusy s x = false := by
    by_contra hx
    simp [burstInFlight_iff.mpr ⟨x, by simpa using hx⟩] at hburst
  simp [enabled, commandEnabled, hb, hslot x]

/-- The converse of `ended_of_no_work`. -/
theorem BlockInv.no_work_of_ended {s : State} (hI : BlockInv s) (h : Ended s) : work s = 0 := by
  obtain ⟨hscript, hburst, hh, hp, hc, hk⟩ := h
  obtain ⟨hbusy, hmode⟩ : s.pBusy = false ∧ s.cMode = .idle := by simpa [burstInFlight] using hburst
  have hevents : (s.script.map eventWork).sum = 0 := by
    refine List.sum_eq_zero fun n hn => ?_
    obtain ⟨e, he, rfl⟩ := List.mem_map.mp hn
    have hpresents := List.all_eq_true.mp hscript e he
    cases e with
    | present => cases hpresents
    | beat | hardwareReset => rfl
  simp [work, hevents, hh, hp, hc, hk, slotWork, hI.producer.mp hbusy, hI.consumer.mp hmode]

/-- A run that has not ended and presents nothing more has a beat enabled. -/
theorem exists_enabled_of_not_ended {s : State} (hscript : s.script.all (fun e => !presents e) = true)
    (h : ¬Ended s) : ∃ x, enabled x s = true := by
  refine exists_enabled (or_iff_not_imp_left.mpr fun hburst => ?_)
  by_contra hslot
  exact h (ended_iff.mpr ⟨hscript, by simpa using hburst, fun x => by
    by_contra hx
    exact hslot ⟨x, Option.ne_none_iff_exists'.mp hx⟩⟩)

/-- A run that has not ended has a port that is enabled, or one whose agent is still to present a command. -/
theorem exists_live_of_not_ended {s : State} (h : ¬Ended s) : ∃ x, live x s = true := by
  by_cases hnow : burstInFlight s = true ∨ ∃ x w, s.slot x = some w
  · obtain ⟨x, hx⟩ := exists_enabled hnow
    exact ⟨x, live_of_enabled hx⟩
  · obtain ⟨hburst, hslot⟩ := not_or.mp hnow
    have hburst : burstInFlight s = false := by simpa using hburst
    have hslot (x : Port) : s.slot x = none :=
      Option.eq_none_iff_forall_ne_some.mpr fun w hw => hslot ⟨x, w, hw⟩
    have hscript : s.script.any presents = true := by
      by_contra hnone
      exact h (ended_iff.mpr ⟨by simpa using hnone, hburst, hslot⟩)
    obtain ⟨x, w, hw⟩ := toPresent_of_any hscript
    exact ⟨x, by simp [live, nextCommand, hslot x, hw, mayTake_of_no_burst hburst]⟩

/-- Fair rounds with nothing presented do all the work there is, if there are as many of them: each does some of
it, or the run has ended (R60, R211). -/
theorem BlockInv.ended_after_rounds {rounds : List (List Event)} {s t : State} (hI : BlockInv s)
    (hs : s.script = rounds.flatten) (hfair : ∀ r ∈ rounds, FairRound r) (hwork : work s ≤ rounds.length)
    (h : run s.script.length s = .next t) : Ended t := by
  induction rounds generalizing s with
  | nil =>
    rw [hs] at h
    obtain rfl := run_zero_inv h
    exact ended_of_no_work hI (Nat.le_zero.mp hwork)
  | cons r rounds ih =>
    obtain ⟨hround, hfair'⟩ := List.forall_mem_cons.mp hfair
    obtain ⟨hbeats, -⟩ := hround
    rw [hs, List.flatten_cons, List.length_append] at h
    obtain ⟨u, hu, h⟩ := run_add_inv h
    obtain ⟨hIu, hsu, hle⟩ := work_run stepKeepsInv hI hs hu
    have hlt : work u ≤ rounds.length := by
      by_cases hend : Ended s
      · have := hI.no_work_of_ended hend
        omega
      · have hscript : s.script.all (fun e => !presents e) = true := by
          rw [hs, List.all_flatten]
          exact List.all_eq_true.mpr fun r hr => (hfair r hr).right
        obtain ⟨x, hx⟩ := exists_enabled_of_not_ended hscript hend
        have := work_round stepKeepsInv hI hx hs (hbeats x) hu
        simp only [List.length_cons] at hwork
        omega
    exact ih hIu hsu hfair' hlt (by rwa [hsu])

/-! What an enabled beat does, and one that is not enabled. -/

/-- A beat made progress: it answered a command or counted a byte of a burst. -/
abbrev Progress (s t : State) : Prop :=
  t.replies.length = s.replies.length + 1 ∨ t.pRem.toNat + 1 = s.pRem.toNat ∨ t.cRem.toNat + 1 = s.cRem.toNat

theorem toNat_sub_one_add_one {n : Word} (h : n ≠ 0) : (n - 1).toNat + 1 = n.toNat := by
  rw [Word.toNat_sub_one h]
  exact Nat.sub_one_add_one (Word.toNat_ne_zero h)

/-- The data beat of a busy port counts a byte of its burst (R111, R122, R124). -/
theorem BlockInv.step_busy {s : State} {x : Port} {wdata : Byte} {rest : List Event} (hI : BlockInv s)
    (hs : s.script = .beat x wdata :: rest) (hb : portBusy s x = true) :
    ∃ t, step s = .next t ∧ Progress s t := by
  have hN := hI.bound_of_burst (burstInFlight_iff.mpr ⟨x, hb⟩)
  cases x with
  | h | k => cases hb
  | p =>
    have hbusy : s.pBusy = true := hb
    have hr : s.pRem ≠ 0 := fun h => by simp [hI.producer.mpr h] at hbusy
    refine ⟨_, step_producerData hs hbusy hr hN (hI.slotAddr_head_lt hN), .inr (.inl ?_)⟩
    rw [countPayload_pRem, pushed_pRem]
    exact toNat_sub_one_add_one hr
  | c =>
    have hr : s.cRem ≠ 0 := fun h => by simp [portBusy, hI.consumer.mpr h] at hb
    rcases hI.mode_of_owed hr with hm | hm
    · obtain ⟨v, -, hstep⟩ := hI.step_read hs hm
      exact ⟨_, hstep, .inr (.inr (toNat_sub_one_add_one hr))⟩
    · obtain ⟨v, -, hstep⟩ := hI.step_peek hs hm
      exact ⟨_, hstep, .inr (.inr (toNat_sub_one_add_one hr))⟩

/-- A first beat is refused only where the operation's own rule is. -/
theorem command_refusal {i : Instr} {body : State → Result} {s : State} {r : Refusal}
    (h : command i body s = .refused r) : body s = .refused r := by
  rcases command_cases i body s with ⟨e, -⟩ | ⟨e, -⟩ | ⟨e, -⟩ | ⟨e, -⟩ <;> rw [e] at h
  · cases h
  · cases h
  · cases h
  · exact h

/-- The one operand check that refuses a command is that of `INIT` (U5). -/
theorem exec_refusal {i : Instr} {s : State} {r : Refusal} (h : exec i s = .refused r) : r = .regionPastTop := by
  cases i with
  | init storage size =>
    rw [exec_init] at h
    replace h := command_refusal h
    split at h
    · cases h
    · split at h <;> cases h
      rfl
  | writeByte b =>
    rw [exec_writeByte] at h
    replace h := command_refusal h
    split at h <;> cases h
  | readByte =>
    rw [exec_readByte] at h
    replace h := command_refusal h
    split at h
    · cases h
    · split at h <;> cases h
  | _ =>
    simp only [exec_reset, exec_write, exec_read, exec_peek, exec_available, exec_free, exec_isEmpty,
      exec_isFull, exec_crcClear, exec_crcByte, exec_crcGet] at h
    cases command_refusal h

/-- An enabled first beat answers its command, or is the `INIT` the model refuses. -/
theorem commandBeat_enabled {s : State} {w : CommandWord} (hI : BlockInv s) (hw : s.slot s.turn = some w)
    (hb : portBusy s s.turn = false) (ht : mayTake s.turn w s = true) :
    commandBeat w s = .refused .regionPastTop ∨
      ∃ t, commandBeat w s = .next t ∧ t.replies.length = s.replies.length + 1 := by
  unfold commandBeat
  split
  · exact .inr ⟨_, rfl, by simp⟩
  · next i hd =>
    cases hx : exec i s with
    | fault f => exact absurd hx (exec_ne_fault hI i f)
    | refused r => exact .inl (by rw [exec_refusal hx])
    | next t =>
      refine .inr ⟨t, rfl, ?_⟩
      have hwait : t ≠ s := by
        rintro rfl
        rcases work_effect hw hd (exec_effect hx) with ⟨-, hbusy | ⟨hport, hheld⟩⟩ | hlt
        · simp [hb] at hbusy
        · simp [mayTake, hd, hport, hheld] at ht
        · exact absurd hlt (lt_irrefl _)
      obtain ⟨r, v, hreply, -⟩ := (effect_reply (exec_effect hx)).resolve_left hwait
      rw [hreply, List.length_append, List.length_singleton]

theorem BlockInv.step_enabled {s : State} {x : Port} {wdata : Byte} {rest : List Event} (hI : BlockInv s)
    (hs : s.script = .beat x wdata :: rest) (h : enabled x s = true) :
    step s = .refused .regionPastTop ∨ ∃ t, step s = .next t ∧ Progress s t := by
  cases hb : portBusy s x with
  | true => exact .inr (hI.step_busy hs hb)
  | false =>
    have hc : commandEnabled x s = true := by simpa [enabled, hb] using h
    cases hw : s.slot x with
    | none => simp [commandEnabled, hw] at hc
    | some w =>
      rw [commandEnabled_some hw] at hc
      have hslot := (slot_given_turn s rest x x).trans hw
      rw [step_beat_ready hs hb, firstBeat_some hslot]
      have hready : portBusy { s with script := rest, turn := x } x = false := by cases x <;> exact hb
      rcases commandBeat_enabled (hI.given_turn rest x) hslot hready hc with hr | ⟨t, ht, hreply⟩
      · exact .inl hr
      · exact .inr ⟨t, ht, .inl hreply⟩

/-- A beat that is not enabled finds no command, or one that is held (R103). -/
theorem step_not_enabled {s : State} {x : Port} {wdata : Byte} {rest : List Event}
    (hs : s.script = .beat x wdata :: rest) (h : enabled x s = false) :
    step s = .next { s with script := rest, turn := x } := by
  obtain ⟨hb, hc⟩ := Bool.or_eq_false_iff.mp h
  rw [step_beat_ready hs hb]
  cases hw : s.slot x with
  | none => exact firstBeat_none ((slot_given_turn s rest x x).trans hw)
  | some w =>
    obtain ⟨i, hd, hport, hheld⟩ := held_of_not_mayTake ((commandEnabled_some hw).symm.trans hc)
    rw [firstBeat_some ((slot_given_turn s rest x x).trans hw), commandBeat, hd]
    exact exec_held (by cases x <;> exact hb) hport hheld

end Sys2Proof.Safety
end

section
/-! SUPPORT. The family of spec/45_common_laws.md: the beat of a ready port, and progress. -/

namespace Sys2Proof.Safety

open Sys2Proof.Machine

/-- Settles O60: bursts and commands give some port an enabled beat, every round of a run that has not ended does
some of its work, and a beat that is not enabled finds nothing or a held command. -/
theorem noDeadlockAndDisabledBeatsWait : Obligations.NoDeadlockAndDisabledBeatsWait := by
  intro s hI
  refine ⟨exists_enabled, exists_live_of_not_ended, not_enabled_of_ended, ?_, fun _ _ _ => hI.step_enabled,
    fun _ _ _ => step_not_enabled⟩
  intro evs rounds t hs hfair hwork h
  rw [hs, List.length_append] at h
  obtain ⟨u, hu, h⟩ := run_add_inv h
  obtain ⟨hIu, hsu, hle⟩ := work_run stepKeepsInv hI hs hu
  exact hIu.ended_after_rounds hsu hfair (hle.trans hwork) (by rwa [hsu])

/-- Settles O7: a ready port takes the first beat of its command, which is the operation's. -/
theorem stepRunsDecodedOperation : Obligations.StepRunsDecodedOperation := by
  intro s x wdata rest w i hs hw hd hb
  rw [step_beat_ready hs hb, firstBeat_some ((slot_given_turn s rest x x).trans hw), commandBeat, hd]

end Sys2Proof.Safety
end

section
/-! SUPPORT. The two errors of a first beat: which operations ask for a binding, when a first beat answers an error, and which first beat reports an unbound block (spec/60_exceptions.md R171, R173, R176). -/

namespace Sys2Proof

/-- The ten operations that ask for a binding (R173). -/
theorem Instr.needsBinding_iff (i : Instr) : i.needsBinding = true ↔
    i = .reset ∨ (∃ b, i = .writeByte b) ∨ (∃ len, i = .write len) ∨ i = .readByte ∨ (∃ len, i = .read len) ∨
      (∃ len, i = .peek len) ∨ i = .available ∨ i = .free ∨ i = .isEmpty ∨ i = .isFull := by
  cases i <;> simp [Instr.needsBinding]

theorem Instr.ne_of_needsBinding {i j : Instr} (hi : i.needsBinding = true) (hj : j.needsBinding = false) :
    i ≠ j := by
  rintro rfl
  exact Bool.false_ne_true (hj.symm.trans hi)

/-- Of the operations that ask for a binding only `RESET` can be held (R103). -/
theorem Instr.eq_reset_of_control {i : Instr} (hi : i.needsBinding = true) (hc : i.control = true) : i = .reset := by
  cases i with
  | reset => rfl
  | init storage size => cases hi
  | _ => cases hc

end Sys2Proof

namespace Sys2Proof.Machine

open Sys2Proof.Safety

/-- The test of the port comes before those of the hold and of the binding (R171, R176). -/
theorem exec_wrong_port {i : Instr} {s : State} (hb : portBusy s s.turn = false) (hp : s.turn ∉ i.ports) :
    exec i s = .next (respond s.turn .errIllegal 0 s) := by
  obtain ⟨body, hbody⟩ := exec_eq_command i
  rw [hbody, command_wrong_port hb hp]

/-- An operation that is not held and asks for a binding finds none (R173). -/
theorem exec_unbound {i : Instr} {s : State} (hb : portBusy s s.turn = false) (hp : s.turn ∈ i.ports)
    (hh : isHeld i s = false) (hi : i.needsBinding = true) (hN : s.N = 0) :
    exec i s = .next (respond s.turn .errUnbound 0 s) := by
  obtain ⟨body, hbody⟩ := exec_eq_command i
  rw [hbody, command_unbound hb hp hh hi hN]

theorem isHeld_of_needsBinding {i : Instr} {s : State} (hi : i.needsBinding = true)
    (hreset : i = .reset → burstInFlight s = false) : isHeld i s = false := by
  cases hc : i.control with
  | false => exact isHeld_of_not_control hc s
  | true => exact (isHeld_of_control hc s).trans (hreset (Instr.eq_reset_of_control hi hc))

/-- Of all the effects of a first beat one alone answers `ERR_UNBOUND`, and it carries these guards (R173, R176). -/
theorem effect_errUnbound {i : Instr} {s t : State} {v : Word} (he : Effect i s t)
    (h : t.replies = s.replies ++ [{ port := s.turn, rsp := .errUnbound, val := v }]) :
    s.turn ∈ i.ports ∧ i.needsBinding = true ∧ s.N = 0 := by
  cases he with
  | unbound hp hi hN => exact ⟨hp, hi, hN⟩
  | readByte => simp [popped] at h
  | _ => simp at h

end Sys2Proof.Machine
end

section
/-! SUPPORT. The family of spec/60_exceptions.md: an operation on a wrong port, an unbound block, and the order of the two tests. -/

namespace Sys2Proof.Safety

open Sys2Proof.Machine

/-- Settles O13: the test of the port is the first that a ready port makes, and its answer is a response alone. -/
theorem wrongPortIsAnsweredIllegal : Obligations.WrongPortIsAnsweredIllegal := fun _ s hp hb =>
  ⟨_, exec_wrong_port hb hp, answered_respond .errIllegal 0 s, respond_frame s.turn .errIllegal 0 s⟩

/-- Settles O14: the ten operations ask for a binding, none of them is held, and the answer is a response alone. -/
theorem unboundRingOperationIsAnsweredUnbound : Obligations.UnboundRingOperationIsAnsweredUnbound := by
  intro i s hten hp hb hreset hN
  have hi := i.needsBinding_iff.mpr hten
  exact ⟨_, exec_unbound hb hp (isHeld_of_needsBinding hi hreset) hi hN, answered_respond .errUnbound 0 s,
    respond_frame s.turn .errUnbound 0 s⟩

/-- Settles O15: the one effect that answers `ERR_UNBOUND` is of an operation that asks for a binding, on a port that
may issue it; `INIT` and the CRC unit ask for none. -/
theorem illegalIsTestedBeforeUnbound : Obligations.IllegalIsTestedBeforeUnbound := by
  intro i s t h hreply
  obtain ⟨hp, hi, hN⟩ := effect_errUnbound (exec_effect h) hreply
  exact ⟨hp, hN, fun _ _ => Instr.ne_of_needsBinding hi rfl, Instr.ne_of_needsBinding hi rfl,
    fun _ => Instr.ne_of_needsBinding hi rfl, Instr.ne_of_needsBinding hi rfl⟩

end Sys2Proof.Safety
end

section
/-! SUPPORT. The hardware reset event as a step, and the commands it drops (spec/70_reset_and_hazards.md R190, R191). -/

namespace Sys2Proof.Machine

/-- The event is enabled in every state, and the block is reset with the rest of the script still to come (R190). -/
theorem step_hardwareReset {s : State} {rest : List Event} (hs : s.script = .hardwareReset :: rest) :
    step s = .next (hardwareReset { s with script := rest }) := by
  simp only [step, hs, onEvent]

/-- A command whose first beat was not taken is dropped, on whichever port it stands (R191, log 12). -/
@[simp] theorem hardwareReset_slot (s : State) (x : Port) : (hardwareReset s).slot x = none := by
  cases x
  case h => exact hardwareReset_hCmd s
  case p => exact hardwareReset_pCmd s
  case c => exact hardwareReset_cCmd s
  case k => exact hardwareReset_kCmd s

end Sys2Proof.Machine
end

section
/-! SUPPORT. The family of spec/70_reset_and_hazards.md: the state after hardware reset, and the event that leads to it. -/

namespace Sys2Proof.Safety

open Sys2Proof.Machine

/-- Settles O48: `State.reset` is a literal, and each register of R190's table is decided on it. -/
theorem resetStateIsUnboundAndIdle : Obligations.ResetStateIsUnboundAndIdle := by
  unfold Obligations.ResetStateIsUnboundAndIdle
  decide

/-- Settles O49: the event is one step in any state, whose outcome has R190's registers, no command on any port, and the
storage and the logs of before. -/
theorem hardwareResetAbortsAndUnbinds : Obligations.HardwareResetAbortsAndUnbinds := by
  intro s rest hs
  refine ⟨hardwareReset { s with script := rest }, step_hardwareReset hs, ?_⟩
  simp [SameStorage]

end Sys2Proof.Safety
end
